-- ==== Sys2Proof/Machine/Number.lean ====
section
/-! DEFINITION. Exact complex numbers (R9, R12), the elements of a `CPLX` buffer. A number is a finite sum
`Σ coeff * cis(2*pi*turn)` with rational coefficients and rational turns, so it is an element of a cyclotomic field;
these hold the rational complex numbers and every `cis(2*pi*k/n)` the transforms need, and sums, products, quotients
and conjugates stay among them. The list of terms is kept in one canonical form (`Cx.canonical`), so that equal
numbers are equal data. DESIGN CHOICE: entries 1 to 3 of
the assumption log. DEDUCED and proved in Laws: entries 4 and 5. -/

namespace Sys2Proof.Machine

/-- One term `coeff * cis(2*pi*turn)`. -/
structure Term where
  turn : Rat
  coeff : Rat
  deriving DecidableEq, Repr

/-- A complex number as a sum of terms. -/
structure Cx where
  terms : List Term
  deriving DecidableEq, Repr, Inhabited

/-- The part of a turn that counts: a whole turn is none. -/
def fracTurn (r : Rat) : Rat := r - (r.floor : Rat)

/-- The greatest power of the prime p that divides n. -/
def primePart (p n : Nat) : Nat := Nat.gcd (p ^ Nat.log2 n) n

/-- The prime divisors of n that are at least d, when n has none below d; `fuel` at least n suffices. -/
def primeDivisorsFrom : Nat → Nat → Nat → List Nat
  | 0, _, _ => []
  | fuel + 1, d, n =>
    if n ≤ 1 then []
    else if n % d = 0 then d :: primeDivisorsFrom fuel (d + 1) (n / primePart d n)
    else primeDivisorsFrom fuel (d + 1) n

/-- The prime divisors of n, rising. -/
def primeDivisors (n : Nat) : List Nat := primeDivisorsFrom n 2 n

/-- With q the p-part of the denominator of r, the u below q such that r minus u/q has a denominator prime to p. -/
def component (p : Nat) (r : Rat) : Nat :=
  let q := primePart p r.den
  (r.num % (q : Int)).toNat * (r.den / q) ^ (q - q / p - 1) % q

/-- The p-component of the turn lies in the last of the p equal parts of the circle. -/
def inTopDigit (p : Nat) (r : Rat) : Bool :=
  decide ((p - 1) * primePart p r.den ≤ p * component p r)

/-- Rewrites a term whose p-component is in the last part through `Σ_{c<p} cis(2*pi*(r + c/p)) = 0`. -/
def spread (p : Nat) (t : Term) : List Term :=
  if inTopDigit p t.turn then
    (List.range (p - 1)).map fun (c : Nat) => ⟨fracTurn (t.turn + (((c + 1 : Nat) : Rat) / (p : Rat))), -t.coeff⟩
  else [t]

/-- A term written over the basis: turns in [0, 1) with no component in its last part. -/
def reduceTerm (t : Term) : List Term :=
  let r := fracTurn t.turn
  (primeDivisors r.den).foldl (fun ts p => ts.flatMap (spread p)) [⟨r, t.coeff⟩]

/-- Adds a term to a list with rising turns and no zero coefficient. -/
def addTerm (t : Term) : List Term → List Term
  | [] => if t.coeff = 0 then [] else [t]
  | u :: us =>
    if t.coeff = 0 then u :: us
    else if t.turn < u.turn then t :: u :: us
    else if t.turn = u.turn then
      if u.coeff + t.coeff = 0 then us else ⟨u.turn, u.coeff + t.coeff⟩ :: us
    else u :: addTerm t us

/-- The canonical number of a list of terms over the basis. -/
def collect (ts : List Term) : Cx := ⟨ts.foldr addTerm []⟩

/-- The canonical number of any list of terms. -/
def ofTerms (ts : List Term) : Cx := collect (ts.flatMap reduceTerm)

/-- Turns strictly rising. -/
def risingTurns : List Term → Bool
  | [] => true
  | [_] => true
  | t :: u :: us => decide (t.turn < u.turn) && risingTurns (u :: us)

/-- A turn of the basis. -/
def basisTurn (r : Rat) : Bool :=
  decide (0 ≤ r) && decide (r < 1) && (primeDivisors r.den).all fun p => !inTopDigit p r

/-- The canonical form of an element: turns strictly rising, no zero coefficient, every turn in the basis. -/
def Cx.canonical (z : Cx) : Bool :=
  risingTurns z.terms && z.terms.all fun t => decide (t.coeff ≠ 0) && basisTurn t.turn

/-- `0 + 0*j`. -/
def Cx.zero : Cx := ⟨[]⟩

/-- A real number used as a complex one (R9). -/
def Cx.ofRat (x : Rat) : Cx := collect [⟨0, x⟩]

/-- `1 + 0*j`. -/
def Cx.one : Cx := Cx.ofRat 1

/-- `x + y*j` for rational x and y. -/
def Cx.ofParts (x y : Rat) : Cx := collect [⟨0, x⟩, ⟨1 / 4, y⟩]

/-- `cis(2*pi*r)` for a rational number of turns r (R9). -/
def Cx.cis (r : Rat) : Cx := collect (reduceTerm ⟨r, 1⟩)

/-- The sum of two numbers. -/
def Cx.add (x y : Cx) : Cx := ⟨x.terms.foldr addTerm y.terms⟩

/-- A number times a rational one. -/
def Cx.scale (q : Rat) (x : Cx) : Cx :=
  if q = 0 then Cx.zero else ⟨x.terms.map fun t => ⟨t.turn, q * t.coeff⟩⟩

/-- The negative of a number. -/
def Cx.neg (x : Cx) : Cx := Cx.scale (-1) x

/-- The difference of two numbers. -/
def Cx.sub (x y : Cx) : Cx := Cx.add x (Cx.neg y)

/-- The product of two numbers. -/
def Cx.mul (x y : Cx) : Cx :=
  ofTerms (x.terms.flatMap fun t => y.terms.map fun u => ⟨t.turn + u.turn, t.coeff * u.coeff⟩)

/-- The sum of a list of numbers. -/
def Cx.sum (zs : List Cx) : Cx := zs.foldr Cx.add Cx.zero

/-- The conjugate under which `cis(2*pi*r)` becomes `cis(2*pi*a*r)`; complex conjugation is a = −1. -/
def Cx.galois (a : Int) (x : Cx) : Cx := ofTerms (x.terms.map fun t => ⟨(a : Rat) * t.turn, t.coeff⟩)

/-- `conj(z)` (R9). -/
def Cx.conj (z : Cx) : Cx := Cx.galois (-1) z

/-- `re(z)`, as a number with imaginary part 0 (R9). -/
def Cx.re (z : Cx) : Cx := Cx.scale (1 / 2) (Cx.add z (Cx.conj z))

/-- `im(z)`, as a number with imaginary part 0 (R9). -/
def Cx.im (z : Cx) : Cx := Cx.re (Cx.mul (Cx.ofParts 0 (-1)) z)

/-- `abs2(z) = re*re + im*im = z * conj(z)` (R9). -/
def Cx.abs2 (z : Cx) : Cx := Cx.mul z (Cx.conj z)

/-- The least common multiple of the denominators of the turns. -/
def Cx.level (x : Cx) : Nat := x.terms.foldr (fun t n => Nat.lcm t.turn.den n) 1

/-- The product of the conjugates of a number other than itself: those of the a below its level, prime to it. -/
def Cx.coNorm (x : Cx) : Cx :=
  (((List.range x.level).filter fun a => decide (2 ≤ a) && decide (Nat.gcd a x.level = 1)).map
    fun (a : Nat) => Cx.galois (a : Int) x).foldr Cx.mul Cx.one

/-- The inverse of a number other than 0: its conjugates' product over its norm, which is rational. The last arms are
taken on 0 alone (entry 5). -/
def Cx.inv (x : Cx) : Cx :=
  let y := x.coNorm
  match (Cx.mul x y).terms with
  | [t] => if t.turn = 0 then Cx.scale (1 / t.coeff) y else Cx.zero
  | _ => Cx.zero

/-- `z / w = z * conj(w) / abs2(w)` for w other than 0 (R9). -/
def Cx.div (z w : Cx) : Cx := Cx.mul (Cx.mul z (Cx.conj w)) (Cx.inv (Cx.abs2 w))

/-! The sign of a real number: exact for a rational one; otherwise by rational enclosures of the cosines, at a
precision that is doubled until the enclosure leaves 0 out (entry 4). -/

/-- `arctan(1/m) * 2^w`, from `n` terms of the series, each rounded down in size. -/
def arctanInv (w m n : Nat) : Int :=
  ((List.range n).map fun (k : Nat) =>
    let a : Int := ((2 ^ w / ((2 * k + 1) * m ^ (2 * k + 1)) : Nat) : Int)
    if k % 2 = 0 then a else -a).sum

/-- `pi * 2^w` by Machin's formula, within `20 * (w / 4 + 3)`. -/
def piScaled (w : Nat) : Int := 16 * arctanInv w 5 (w / 4 + 1) - 4 * arctanInv w 239 (w / 4 + 1)

/-- From `(c, e)` with `|cos(s) * 2^w - c| ≤ e`, the same for the angle doubled: `cos(2*s) = 2*cos(s)^2 - 1`. -/
def cosDouble (w : Nat) (b : Int × Nat) : Int × Nat :=
  (2 * b.1 * b.1 / 2 ^ w - 2 ^ w, 2 * b.2 * (2 * b.1.natAbs + b.2) / 2 ^ w + 2)

/-- The angle `2*pi*r / 2^k` times `2^w`, for r in [0, 1). -/
def smallAngle (w k : Nat) (r : Rat) : Int := 2 * piScaled w * r.num / ((r.den : Int) * 2 ^ k)

/-- `(c, e)` with `|cos(s) * 2^w - c| ≤ e` for the angle s of `smallAngle`, by `cos(s) = 1 - s^2/2` and its error. -/
def cosSmall (w k : Nat) (r : Rat) : Int × Nat :=
  let a := smallAngle w k r
  (2 ^ w - a * a / 2 ^ (w + 1), a.natAbs ^ 4 * 5 / (96 * 2 ^ (3 * w)) + 40 * (w / 4 + 3) / 2 ^ k + 4)

/-- `(c, e)` with `|cos(2*pi*r) * 2^w - c| ≤ e`. -/
def cosEnclosure (w : Nat) (r : Rat) : Int × Nat :=
  (List.range (w / 4 + 1)).foldl (fun b _ => cosDouble w b) (cosSmall w (w / 4 + 1) r)

/-- `(v, e)` with `|Σ coeff * cos(2*pi*turn) * 2^w - v| ≤ e`. -/
def enclosure (w : Nat) (ts : List Term) : Rat × Rat :=
  ts.foldr (fun t a =>
    let b := cosEnclosure w t.turn
    (t.coeff * (b.1 : Rat) + a.1, |t.coeff| * (b.2 : Rat) + a.2)) (0, 0)

/-- Tries `fuel` precisions from w on, each twice the one before. -/
def signSearch : Nat → Nat → List Term → Ordering
  | 0, _, _ => .eq
  | fuel + 1, w, ts =>
    let b := enclosure w ts
    if b.2 < b.1 then .gt
    else if b.1 < -b.2 then .lt
    else signSearch fuel (2 * w) ts

/-- How many precisions suffice: a number other than 0 of this level and size is not nearer to 0 than its norm
allows (entry 4). -/
def signFuel (x : Cx) : Nat :=
  let den := x.terms.foldr (fun t n => Nat.lcm t.coeff.den n) 1
  let size := x.terms.foldr (fun t n => (t.coeff * (den : Rat)).num.natAbs + n) 0
  Nat.log2 (x.level * (Nat.log2 size + 2) + 16) + 1

/-- The sign of a real number: how it compares with 0. -/
def Cx.sign (x : Cx) : Ordering :=
  match x.terms with
  | [] => .eq
  | [t] =>
    if t.turn = 0 then (if 0 < t.coeff then .gt else if t.coeff < 0 then .lt else .eq)
    else signSearch (signFuel x) 64 x.terms
  | _ => signSearch (signFuel x) 64 x.terms

/-- `x ≤ y` for real numbers. -/
def Cx.le (x y : Cx) : Bool := (Cx.sub y x).sign != .lt

end Sys2Proof.Machine
end

