-- ==== Sys2Proof/Word.lean ====
section
/-! DEFINITION. The 32-bit word of a control register and of a command (R5 `XLEN`, R80), and the number of
a stream buffer (R21). -/

namespace Sys2Proof

/-- A 32-bit word: a control register (R30) or a command (R80). -/
abbrev Word := BitVec 32

/-- The number of a stream buffer `s0` .. `s7` (R21). -/
abbrev BufIdx := Fin 8

end Sys2Proof
end

