-- ==== Sys2Proof/Config.lean ====
section
/-! DEFINITION. What an implementation fixes and the spec leaves open (R5, 93_implementation_defined.md part 3).
Each is an opaque constant: no proof sees its value, so a theorem holds of every implementation. -/

namespace Sys2Proof

/-- How far `CAP`, the greatest number of elements of a stream buffer, exceeds the 64 the spec promises (R5, D4);
`none`: unbounded. Entry 6. -/
opaque Config.capSlack : Option Nat

/-- By how many doublings `ORDER_MAX` exceeds the 64 the spec promises (R5, D17); `none`: unbounded. Entry 7. -/
opaque Config.orderSlack : Option Nat

/-- `CSR_BASE` divided by 4 (R61: the platform's byte address of register index 0, a multiple of 4). Entry 8. -/
opaque Config.csrBaseWord : Nat

/-- The bytes of a real scalar in the format `NUM` on a byte-carrying platform (R12, R65); no rule sees them. Entry 8. -/
opaque Config.scalarBytes : Machine.Cx → List (BitVec 8)

/-- `n ≤ CAP` (R25). The bound is looked at only above the 64 elements every CORE has. -/
def Config.fitsCap (n : Nat) : Bool :=
  decide (n ≤ 64) || (match Config.capSlack with
    | none => true
    | some k => decide (n ≤ 64 + k))

/-- `o ≤ ORDER_MAX` (R104). The bound is looked at only above the order 64 every CORE has. -/
def Config.fitsOrder (o : Nat) : Bool :=
  decide (o ≤ 64) || (match Config.orderSlack with
    | none => true
    | some k => decide (o ≤ 64 * 2 ^ k))

/-- The byte address of register index `i` on a byte-addressed platform (R61). -/
def Config.csrByteAddress (i : Nat) : Nat := 4 * Config.csrBaseWord + 4 * i

end Sys2Proof
end

