-- ==== Sys2Proof/Syntax.lean ====
section
/-! DEFINITION. The ten commands of BRCORE-1 (R84), one constructor per row of spec/opcode_table.json. -/

namespace Sys2Proof

/-- A command with the buffer numbers its row uses (R81, R84). -/
inductive Instr where
  /-- The empty command (R100). -/
  | nop
  /-- Build the constellation and the decision borders (R104). -/
  | cbuild
  /-- Latch the OFDM frame parameters (R108). -/
  | fbuild
  /-- QAM modulator (R120). -/
  | qmod (rd rs1 : BufIdx)
  /-- QAM demodulator, hard decision (R124). -/
  | qdem (rd rs1 : BufIdx)
  /-- OFDM framer (R144). -/
  | oftx (rd rs1 : BufIdx)
  /-- OFDM deframer (R148). -/
  | ofrx (rd rs1 : BufIdx)
  /-- Channel estimator (R160). -/
  | chest (rd rs1 : BufIdx)
  /-- Zero-forcing equalizer (R164). -/
  | eq (rd rs1 rs2 : BufIdx)
  /-- Preamble cross-correlator (R184). -/
  | xcorr (rd rs1 rs2 rs3 : BufIdx)
  deriving DecidableEq, Repr

end Sys2Proof
end

