-- ==== Sys2Proof/Machine/State.lean ====
section
/-! DEFINITION. The state of CORE (R20), as plain data, beside the host's script and what the host was answered, and
its value after reset (R55). -/

namespace Sys2Proof.Machine

/-- A stream buffer's kind and data (R21). `NONE` has no data, so the pair is one value. -/
inductive Buffer where
  /-- Kind `NONE`: never written since reset. -/
  | none
  /-- Kind `BITS`. -/
  | bits (data : List Bool)
  /-- Kind `CPLX`. -/
  | cplx (data : List Cx)
  deriving DecidableEq, Repr

/-- The staging registers (R36). -/
structure Staging where
  order : Word
  nsc : Word
  ng : Word
  gtype : Word
  estsel : Word
  syncsel : Word
  sflen : Word
  srows : Word
  deriving DecidableEq, Repr

/-- The latched constellation half (R45). `act.order` determines `act.bps`, `act.xT`, `act.yT` and the hidden tables
(R46 to R50), which are computed on use. Entry 14. -/
structure Constellation where
  order : Word
  deriving DecidableEq, Repr

/-- `act.gtype` (R108, R110). -/
inductive GuardType where
  | zeroPad
  | cyclicPrefix
  | cyclicSuffix
  deriving DecidableEq, Repr

/-- The latched frame half (R45). -/
structure Frame where
  nsc : Word
  ng : Word
  gtype : GuardType
  deriving DecidableEq, Repr

/-- The causes of a recorded fault (R203). -/
inductive Cause where
  | invalidOrder
  | misalignedBitLength
  | misalignedSymbolLength
  | dimensionMismatch
  /-- Assigned and raised by no command (R128). -/
  | unsupportedLayout
  | insufficientSamples
  | illegalCommand
  | notConfigured
  | invalidParameter
  | badOperand
  | capacityExceeded
  | divideByZero
  deriving DecidableEq, Repr

/-- What `STATUS.CAUSE`, `FCMD` and `FINFO` hold while `STATUS.FAULT = 1` (R34, R37). -/
structure FaultRecord where
  cause : Cause
  fcmd : Word
  finfo : Word
  deriving DecidableEq, Repr

/-- The whole state of CORE (R20). -/
structure CoreState where
  /-- `s0` .. `s7` (R21). -/
  bufs : Vector Buffer 8
  staging : Staging
  /-- The constellation half; `none` while `act.cvalid = 0` (R45). Entry 13. -/
  constel : Option Constellation
  /-- The frame half; `none` while `act.fvalid = 0` (R45). Entry 13. -/
  frame : Option Frame
  /-- The fault record; `none` while `STATUS.FAULT = 0`, when `CAUSE`, `FCMD` and `FINFO` are 0 (R34, R37). -/
  fault : Option FaultRecord
  /-- `CSEQ` (R33). -/
  cseq : Word
  /-- `SYNCOFF` (R41). -/
  syncoff : Word
  /-- `STATUS.SVALID` (R34). -/
  svalid : Bool
  deriving DecidableEq, Repr

/-- What the outside does to CORE: the host's four transactions (R61 to R63) and the reset input (R230). -/
inductive HostEvent where
  | csrRead (i : Nat)
  | csrWrite (i : Nat) (w : Word)
  | bufRead (b : BufIdx)
  | bufWrite (b : BufIdx) (d : Buffer)
  | resetInput
  deriving DecidableEq, Repr

/-- What CORE gives back for an event (R61 to R63, R73). -/
inductive HostReply where
  /-- A write, or a command, is complete. -/
  | completed
  /-- The value of a register. -/
  | value (w : Word)
  /-- The kind and data of a buffer. -/
  | content (d : Buffer)
  deriving DecidableEq, Repr

/-- CORE, the host's events still to come and what the host was answered so far, oldest first. CORE has no program
counter (R32): the script is the program (R91, R219). DESIGN CHOICE: entries 9 and 11. -/
structure State where
  core : CoreState
  script : List HostEvent
  replies : List HostReply
  deriving DecidableEq, Repr

/-- What stops CORE with a fault: nothing does, so there is no constructor. A fault of the spec is recorded and the
machine goes on (R200, R207); nothing in the spec is a stuck state (93_implementation_defined.md). -/
inductive Fault
  deriving DecidableEq, Repr

/-- What has no meaning in the model. -/
inductive Refusal where
  /-- An arm of exec without a meaning: none is left. Safe: the model stops where CORE goes on. -/
  | notModelled (mnemonic : String)
  /-- Raised by step when the host writes a buffer with kind NONE, which is no transaction (R62, R22). Safe. Entry 15. -/
  | hostWroteKindNone
  /-- Raised by step when the host writes more than `CAP` elements, which is no transaction (R62, R25). Safe. Entry 15. -/
  | hostWroteTooMany (len : Nat)
  /-- Raised by step when the host writes a list of terms that is no number in canonical form, so no element of a
  sequence (R62). Safe. Entry 3. -/
  | hostWroteNoNumber
  deriving DecidableEq, Repr

/-- The staging registers after reset (R55). -/
def Staging.reset : Staging := ⟨0, 0, 0, 0, 0, 0, 0, 0⟩

/-- CORE after reset (R55, R230). -/
def CoreState.reset : CoreState where
  bufs := Vector.replicate 8 .none
  staging := Staging.reset
  constel := none
  frame := none
  fault := none
  cseq := 0
  syncoff := 0
  svalid := false

/-- The machine right after reset (R55): CORE does nothing until the host makes a transaction (R230), and the host has
none to make and was answered nothing (DESIGN CHOICE, entries 9 and 11). -/
def State.reset : State where
  core := CoreState.reset
  script := []
  replies := []

end Sys2Proof.Machine
end

