-- ==== Sys2Proof/Machine/Content.lean ====
section
/-! DEFINITION. The content of a stream buffer: its length (R21), whether its elements are numbers (R9), and which
contents the host may hand over (R62). -/

namespace Sys2Proof.Machine

/-- The number of elements of a buffer's data (R21). -/
def Buffer.len : Buffer → Nat
  | .none => 0
  | .bits d => d.length
  | .cplx d => d.length

/-- Every complex element is a number in canonical form. -/
def Buffer.numbers : Buffer → Bool
  | .none => true
  | .bits _ => true
  | .cplx d => d.all Cx.canonical

/-- Why the content the host hands to `HostBufWrite` is no transaction (R62); `none` where it is one. -/
def hostWriteProblem (d : Buffer) : Option Refusal :=
  if d = .none then some .hostWroteKindNone
  else if Config.fitsCap d.len = false then some (.hostWroteTooMany d.len)
  else if d.numbers = false then some .hostWroteNoNumber
  else none

end Sys2Proof.Machine
end

