-- ==== Sys2Proof/Decode.lean ====
section
/-! DEFINITION. Decoding a command word by match and mask (R80 to R86), total on all words, and the encoder. -/

namespace Sys2Proof

/-- `w[hi:lo]`, the unsigned integer of bits hi down to lo (R6). -/
def slice (w : Word) (hi lo : Nat) : Nat := w.toNat / 2 ^ lo % 2 ^ (hi + 1 - lo)

/-- The 3-bit buffer field whose lowest bit is `lo`, taken as it stands (R83). -/
def bufField (w : Word) (lo : Nat) : BufIdx :=
  ⟨slice w (lo + 2) lo, by
    have h : lo + 2 + 1 - lo = 3 := by omega
    simp only [slice, h]
    exact Nat.mod_lt _ (by decide)⟩

/-- A row of the opcode table (R84): word w is the command exactly when `w AND mask = pattern`. -/
structure OpRow where
  pattern : Word
  mask : Word
  build : Word → Instr

/-- The opcode table, in the order of R84. -/
def opTable : List OpRow :=
  [ ⟨0x00000000#32, 0xFFFFFFFF#32, fun _ => .nop⟩,
    ⟨0x00000001#32, 0xFFFFFFFF#32, fun _ => .cbuild⟩,
    ⟨0x00000002#32, 0xFFFFFFFF#32, fun _ => .fbuild⟩,
    ⟨0x00000010#32, 0xFFFFC0FF#32, fun w => .qmod (bufField w 8) (bufField w 11)⟩,
    ⟨0x00000011#32, 0xFFFFC0FF#32, fun w => .qdem (bufField w 8) (bufField w 11)⟩,
    ⟨0x00000020#32, 0xFFFFC0FF#32, fun w => .oftx (bufField w 8) (bufField w 11)⟩,
    ⟨0x00000021#32, 0xFFFFC0FF#32, fun w => .ofrx (bufField w 8) (bufField w 11)⟩,
    ⟨0x00000030#32, 0xFFFFC0FF#32, fun w => .chest (bufField w 8) (bufField w 11)⟩,
    ⟨0x00000031#32, 0xFFFE00FF#32, fun w => .eq (bufField w 8) (bufField w 11) (bufField w 14)⟩,
    ⟨0x00000040#32, 0xFFF000FF#32,
      fun w => .xcorr (bufField w 8) (bufField w 11) (bufField w 14) (bufField w 17)⟩ ]

/-- Why a word is no command (R86). Every reason leads to the same `IllegalCommand`. -/
inductive Reject where
  /-- Bits 7:0 are no opcode of the table. -/
  | unknownOpcode
  /-- One of bits 31:20 is set. -/
  | reservedBitsSet
  /-- A buffer field the command does not use is not 0. -/
  | unusedFieldSet
  deriving DecidableEq, Repr

/-- The opcodes of the table (R84). -/
def opcodes : List Nat := [0x00, 0x01, 0x02, 0x10, 0x11, 0x20, 0x21, 0x30, 0x31, 0x40]

/-- The reason for a word that matches no row (R86). -/
def rejectReason (w : Word) : Reject :=
  if slice w 7 0 ∉ opcodes then .unknownOpcode
  else if slice w 31 20 ≠ 0 then .reservedBitsSet
  else .unusedFieldSet

/-- Decoding (R85): the row the word matches, with its operand fields; total, and a function of the word alone. -/
def decode (w : Word) : Except Reject Instr :=
  match opTable.find? (fun r => w &&& r.mask == r.pattern) with
  | some r => .ok (r.build w)
  | none => .error (rejectReason w)

/-- The opcode of a command (R84). -/
def Instr.opcode : Instr → Nat
  | .nop => 0x00
  | .cbuild => 0x01
  | .fbuild => 0x02
  | .qmod _ _ => 0x10
  | .qdem _ _ => 0x11
  | .oftx _ _ => 0x20
  | .ofrx _ _ => 0x21
  | .chest _ _ => 0x30
  | .eq _ _ _ => 0x31
  | .xcorr _ _ _ _ => 0x40

/-- The four buffer fields rd, rs1, rs2, rs3 of a command, 0 where the command uses none (R81, R86). -/
def Instr.fields : Instr → BufIdx × BufIdx × BufIdx × BufIdx
  | .nop => (0, 0, 0, 0)
  | .cbuild => (0, 0, 0, 0)
  | .fbuild => (0, 0, 0, 0)
  | .qmod rd rs1 => (rd, rs1, 0, 0)
  | .qdem rd rs1 => (rd, rs1, 0, 0)
  | .oftx rd rs1 => (rd, rs1, 0, 0)
  | .ofrx rd rs1 => (rd, rs1, 0, 0)
  | .chest rd rs1 => (rd, rs1, 0, 0)
  | .eq rd rs1 rs2 => (rd, rs1, rs2, 0)
  | .xcorr rd rs1 rs2 rs3 => (rd, rs1, rs2, rs3)

/-- The encoding of a written command (R92): `opcode + rd*2^8 + rs1*2^11 + rs2*2^14 + rs3*2^17`. -/
def encode (i : Instr) : Word :=
  let f := i.fields
  BitVec.ofNat 32 (i.opcode + f.1.val * 2 ^ 8 + f.2.1.val * 2 ^ 11 + f.2.2.1.val * 2 ^ 14 + f.2.2.2.val * 2 ^ 17)

/-- The word of an instruction whose low `nbits` bits are those of `w`, every bit above them 0. -/
def tableWord (nbits w : Nat) : Word := BitVec.ofNat 32 (w % 2 ^ nbits)

/-- What the decoder reads from a word numbered as spec/opcode_table.json numbers it; a row wider than the one
32-bit word of R80 is no command. -/
def decodeTableWord (nbits w : Nat) : Option Instr :=
  if nbits ≤ 32 then
    match decode (tableWord nbits w) with
    | .ok i => some i
    | .error _ => none
  else none

end Sys2Proof
end

