-- ==== Sys2Proof/Machine/Csr.lean ====
section
/-! DEFINITION. The map of the control-register space (R30): 36 registers at their indices, all others reserved. -/

namespace Sys2Proof.Machine

/-- The registers of R30. -/
inductive Csr where
  | cmd
  | status
  | ctrl
  | cseq
  | fcmd
  | finfo
  | syncoff
  | order
  | nsc
  | ng
  | gtype
  | estsel
  | syncsel
  | sflen
  | srows
  | aorder
  | abps
  | ansc
  | ang
  | agtype
  | bkind (b : BufIdx)
  | blen (b : BufIdx)
  deriving DecidableEq, Repr

/-- The index of a register (R30). -/
def Csr.index : Csr → Nat
  | .cmd => 0
  | .status => 1
  | .ctrl => 2
  | .cseq => 3
  | .fcmd => 4
  | .finfo => 5
  | .syncoff => 6
  | .order => 8
  | .nsc => 9
  | .ng => 10
  | .gtype => 11
  | .estsel => 12
  | .syncsel => 13
  | .sflen => 14
  | .srows => 15
  | .aorder => 16
  | .abps => 17
  | .ansc => 18
  | .ang => 19
  | .agtype => 20
  | .bkind b => 32 + 2 * b.val
  | .blen b => 33 + 2 * b.val

/-- The register at an index; `none` for a reserved index and for one above 65535 (R30, R40). -/
def Csr.ofIndex (i : Nat) : Option Csr :=
  match i with
  | 0 => some .cmd
  | 1 => some .status
  | 2 => some .ctrl
  | 3 => some .cseq
  | 4 => some .fcmd
  | 5 => some .finfo
  | 6 => some .syncoff
  | 8 => some .order
  | 9 => some .nsc
  | 10 => some .ng
  | 11 => some .gtype
  | 12 => some .estsel
  | 13 => some .syncsel
  | 14 => some .sflen
  | 15 => some .srows
  | 16 => some .aorder
  | 17 => some .abps
  | 18 => some .ansc
  | 19 => some .ang
  | 20 => some .agtype
  | n =>
    if h : 32 ≤ n ∧ n < 48 then
      let b : BufIdx := ⟨(n - 32) / 2, by omega⟩
      some (if n % 2 = 0 then .bkind b else .blen b)
    else none

end Sys2Proof.Machine
end

