-- ==== Sys2Proof/Machine/Flags.lean ====
section
/-! DEFINITION. The codes a register shows and the `STATUS` word (R34, R203), the only flags CORE has. -/

namespace Sys2Proof.Machine

/-- The cause code (R203). -/
def Cause.code : Cause → Nat
  | .invalidOrder => 1
  | .misalignedBitLength => 2
  | .misalignedSymbolLength => 3
  | .dimensionMismatch => 4
  | .unsupportedLayout => 5
  | .insufficientSamples => 6
  | .illegalCommand => 16
  | .notConfigured => 17
  | .invalidParameter => 18
  | .badOperand => 19
  | .capacityExceeded => 20
  | .divideByZero => 21

/-- The code of a guard type (R110). -/
def GuardType.code : GuardType → Nat
  | .zeroPad => 0
  | .cyclicPrefix => 1
  | .cyclicSuffix => 2

/-- The kind code of a buffer (R21). -/
def Buffer.kindCode : Buffer → Nat
  | .none => 0
  | .bits _ => 1
  | .cplx _ => 2

/-- `STATUS.FAULT` (R34). -/
def CoreState.faultFlag (c : CoreState) : Bool := c.fault.isSome

/-- `STATUS.CAUSE`, 0 while no fault is recorded (R34). -/
def CoreState.causeCode (c : CoreState) : Nat :=
  match c.fault with
  | some r => r.cause.code
  | none => 0

/-- The word `STATUS` reads as (R34): FAULT, CVALID, FVALID, SVALID in bits 0 to 3, CAUSE in bits 15:8, 0 elsewhere. -/
def CoreState.statusWord (c : CoreState) : Word :=
  BitVec.ofNat 32 (c.faultFlag.toNat + 2 * c.constel.isSome.toNat + 4 * c.frame.isSome.toNat
    + 8 * c.svalid.toNat + 256 * c.causeCode)

end Sys2Proof.Machine
end

