-- ==== Sys2Proof/Machine/Ops.lean ====
section
/-! DEFINITION. The named operations over CORE: fault entry, its record and its clearing (R200 to R210), normal
completion (R206), reset (R230, R231), the control registers (R30 to R41), and how a command is carried out (R205). -/

namespace Sys2Proof.Machine

/-- A raised fault: its cause and the value for `FINFO` (R10 `raise F(info)`). -/
structure Raise where
  cause : Cause
  info : Nat
  deriving DecidableEq, Repr

/-- The checks and the effect of one command, without its completion: the state its writes leave, or the fault
raised before any write (R10, R11). -/
abbrev Rule := CoreState → Except Raise CoreState

/-! Faults -/

/-- Fault entry (R207): FAULT, CAUSE, FCMD and FINFO, and nothing else; FINFO is truncated to 32 bits (R37). -/
def CoreState.raise (c : CoreState) (w : Word) (r : Raise) : CoreState :=
  { c with fault := some ⟨r.cause, w, BitVec.ofNat 32 r.info⟩ }

/-- Clearing a fault, `CLRFAULT` (R209). -/
def CoreState.clearFault (c : CoreState) : CoreState := { c with fault := none }

/-- Normal completion (R206, R33): `CSEQ` advances modulo 2^32. -/
def CoreState.done (c : CoreState) : CoreState := { c with cseq := c.cseq + 1 }

/-- A command's outcome on CORE: refused while a fault is recorded (R208), completed (R206) or faulted (R207). -/
def CoreState.carryOut (c : CoreState) (w : Word) (rule : Rule) : CoreState :=
  match c.fault with
  | some _ => c
  | none =>
    match rule c with
    | .ok c' => c'.done
    | .error r => c.raise w r

/-- A command's outcome on the machine: always a next state (R200). -/
def State.carryOut (s : State) (w : Word) (rule : Rule) : Host.Outcome State Fault Refusal :=
  .next { s with core := s.core.carryOut w rule }

/-- A check of a rule: the fault `r` unless `p` (R205). -/
def require (p : Prop) [Decidable p] (r : Raise) : Except Raise Unit := if p then .ok () else .error r

/-! Control registers -/

/-- The latched order's number of bits a symbol, `log2(order)` (R46). -/
def bpsOf (order : Nat) : Nat := Nat.log2 order

/-- The value a register reads as (R31 to R41). -/
def CoreState.readCsr (c : CoreState) : Csr → Word
  | .cmd => 0
  | .status => c.statusWord
  | .ctrl => 0
  | .cseq => c.cseq
  | .fcmd => match c.fault with
    | some r => r.fcmd
    | none => 0
  | .finfo => match c.fault with
    | some r => r.finfo
    | none => 0
  | .syncoff => c.syncoff
  | .order => c.staging.order
  | .nsc => c.staging.nsc
  | .ng => c.staging.ng
  | .gtype => c.staging.gtype
  | .estsel => c.staging.estsel
  | .syncsel => c.staging.syncsel
  | .sflen => c.staging.sflen
  | .srows => c.staging.srows
  | .aorder => match c.constel with
    | some k => k.order
    | none => 0
  | .abps => match c.constel with
    | some k => BitVec.ofNat 32 (bpsOf k.order.toNat)
    | none => 0
  | .ansc => match c.frame with
    | some f => f.nsc
    | none => 0
  | .ang => match c.frame with
    | some f => f.ng
    | none => 0
  | .agtype => match c.frame with
    | some f => BitVec.ofNat 32 f.gtype.code
    | none => 0
  | .bkind b => BitVec.ofNat 32 c.bufs[b].kindCode
  | .blen b => BitVec.ofNat 32 (min c.bufs[b].len (2 ^ 32 - 1))

/-- `HostCsrRead(i)` (R61): 0 for a reserved index and above 65535 (R40). -/
def CoreState.readIndex (c : CoreState) (i : Nat) : Word :=
  match Csr.ofIndex i with
  | some r => c.readCsr r
  | none => 0

/-- A write to `CTRL` (R35): bit 1 resets and wins, else bit 0 clears the fault, all other bits are ignored. -/
def CoreState.writeCtrl (c : CoreState) (w : Word) : CoreState :=
  if w.getLsbD 1 then CoreState.reset
  else if w.getLsbD 0 then c.clearFault
  else c

/-- A write to a register other than `CMD` (R35, R36); to a read-only one it is ignored (R40). -/
def CoreState.writeCsr (c : CoreState) (w : Word) : Csr → CoreState
  | .cmd => c
  | .status => c
  | .ctrl => c.writeCtrl w
  | .cseq => c
  | .fcmd => c
  | .finfo => c
  | .syncoff => c
  | .order => { c with staging := { c.staging with order := w } }
  | .nsc => { c with staging := { c.staging with nsc := w } }
  | .ng => { c with staging := { c.staging with ng := w } }
  | .gtype => { c with staging := { c.staging with gtype := w } }
  | .estsel => { c with staging := { c.staging with estsel := w } }
  | .syncsel => { c with staging := { c.staging with syncsel := w } }
  | .sflen => { c with staging := { c.staging with sflen := w } }
  | .srows => { c with staging := { c.staging with srows := w } }
  | .aorder => c
  | .abps => c
  | .ansc => c
  | .ang => c
  | .agtype => c
  | .bkind _ => c
  | .blen _ => c

/-- `HostCsrWrite(i, w)` for an index other than that of `CMD` (R61): ignored at a reserved index (R40). -/
def CoreState.writeIndex (c : CoreState) (i : Nat) (w : Word) : CoreState :=
  match Csr.ofIndex i with
  | some r => c.writeCsr w r
  | none => c

/-! Buffers -/

/-- `s[b] <- (kind, data)`: the whole buffer is replaced (R10, R22). -/
def CoreState.writeBuf (c : CoreState) (b : BufIdx) (d : Buffer) : CoreState :=
  { c with bufs := c.bufs.set b d }

/-! The host port -/

/-- The event is taken off the script and answered. -/
def State.answer (s : State) (r : HostReply) : State :=
  { s with script := s.script.tail, replies := s.replies ++ [r] }

/-! Carriage over bytes and words (R65), which no rule of the spec sees -/

/-- Byte k of a 32-bit word on a byte-carrying platform: bits 8k+7 .. 8k (R65). -/
def wordByte (w : Word) (k : Nat) : BitVec 8 := BitVec.ofNat 8 (slice w (8 * k + 7) (8 * k))

/-- The four bytes of a 32-bit word, the least significant first (R65). -/
def wordBytes (w : Word) : List (BitVec 8) := (List.range 4).map (wordByte w)

/-- A bit sequence in 32-bit words: bit i is bit `i mod 32` of word `i div 32`, unused high bits 0 (R65). -/
def packBits (bs : List Bool) : List Word :=
  (List.range ((bs.length + 31) / 32)).map fun j =>
    BitVec.ofNat 32 ((List.range 32).map fun i => (bs.getD (32 * j + i) false).toNat * 2 ^ i).sum

/-- A complex element as it is carried: the real part first, the imaginary part second, each in the format of a scalar
(R65). -/
def carryComplex {α : Type} (scalar : Cx → List α) (z : Cx) : List α := scalar z.re ++ scalar z.im

/-- The content of a buffer over bytes (R65): bits packed in words, complex elements in the format `NUM` gives. -/
def Buffer.bytes : Buffer → List (BitVec 8)
  | .none => []
  | .bits d => (packBits d).flatMap wordBytes
  | .cplx d => d.flatMap (carryComplex Config.scalarBytes)

end Sys2Proof.Machine
end

