-- ==== Sys2Proof/Machine/Operands.lean ====
section
/-! DEFINITION. The operands of a command: source buffers with the kind required (R23, R24), the latched halves (R205
step 3) and pieces of a sequence (R7). -/

namespace Sys2Proof.Machine

/-- The data of source field `field` (1 rs1, 2 rs2, 3 rs3), which must be of kind `BITS` (R24, R205). -/
def CoreState.sourceBits (c : CoreState) (field : Nat) (b : BufIdx) : Except Raise (List Bool) :=
  match c.bufs[b] with
  | .bits d => .ok d
  | .none => .error ⟨.badOperand, field⟩
  | .cplx _ => .error ⟨.badOperand, field⟩

/-- The data of source field `field`, which must be of kind `CPLX` (R24, R205). -/
def CoreState.sourceCplx (c : CoreState) (field : Nat) (b : BufIdx) : Except Raise (List Cx) :=
  match c.bufs[b] with
  | .cplx d => .ok d
  | .none => .error ⟨.badOperand, field⟩
  | .bits _ => .error ⟨.badOperand, field⟩

/-- `act.order` of the latched constellation, else `NotConfigured(1)` (R203, R205). -/
def CoreState.needOrder (c : CoreState) : Except Raise Nat :=
  match c.constel with
  | some k => .ok k.order.toNat
  | none => .error ⟨.notConfigured, 1⟩

/-- The latched frame parameters, else `NotConfigured(2)` (R203, R205). -/
def CoreState.needFrame (c : CoreState) : Except Raise Frame :=
  match c.frame with
  | some f => .ok f
  | none => .error ⟨.notConfigured, 2⟩

/-- The n elements of a sequence from index i on: `a[i : i+n]` (R7). -/
def piece {α : Type} (a : List α) (i n : Nat) : List α := (a.drop i).take n

/-- Element i of a complex sequence; 0 outside, where no rule looks. -/
def elemAt (a : List Cx) (i : Nat) : Cx := a.getD i Cx.zero

end Sys2Proof.Machine
end

