-- ==== Sys2Proof/Machine/Configure.lean ====
section
/-! DEFINITION. `NOP`, `CBUILD` and `FBUILD` (40_constellation_config.md). -/

namespace Sys2Proof.Machine

/-- o = 2^k for a natural k (R104). -/
def isPowerOfTwo (o : Nat) : Bool := decide (2 ^ Nat.log2 o = o)

/-- `NOP` (R100). -/
def nopRule : Rule := fun c => .ok c

/-- `CBUILD` (R104). -/
def cbuildRule : Rule := fun c => do
  let o := c.staging.order.toNat
  require (2 ≤ o ∧ isPowerOfTwo o = true) ⟨.invalidOrder, o⟩
  require (Config.fitsOrder o = true) ⟨.capacityExceeded, o⟩
  pure { c with constel := some ⟨c.staging.order⟩ }

/-- The guard type with a code (R110); 0 to 2 are the codes in use. -/
def guardOfCode : Nat → GuardType
  | 0 => .zeroPad
  | 1 => .cyclicPrefix
  | _ => .cyclicSuffix

/-- `FBUILD` (R108): the checks in the order written. -/
def fbuildRule : Rule := fun c => do
  let n := c.staging.nsc.toNat
  let g := c.staging.ng.toNat
  let t := c.staging.gtype.toNat
  require (n ≠ 0) ⟨.invalidParameter, 9⟩
  require (t ≤ 2) ⟨.invalidParameter, 11⟩
  require (¬ ((t = 1 ∨ t = 2) ∧ n < g)) ⟨.invalidParameter, 10⟩
  pure { c with frame := some ⟨c.staging.nsc, c.staging.ng, guardOfCode t⟩ }

/-- `NOP` (R100). -/
def execNop (s : State) : Host.Outcome State Fault Refusal :=
  s.carryOut (encode .nop) nopRule

/-- `CBUILD` (R104). -/
def execCbuild (s : State) : Host.Outcome State Fault Refusal :=
  s.carryOut (encode .cbuild) cbuildRule

/-- `FBUILD` (R108). -/
def execFbuild (s : State) : Host.Outcome State Fault Refusal :=
  s.carryOut (encode .fbuild) fbuildRule

end Sys2Proof.Machine
end

