-- ==== Sys2Proof/Machine/Correlate.lean ====
section
/-! DEFINITION. The cross-correlation, its peak, and `XCORR` (44_correlator.md). -/

namespace Sys2Proof.Machine

/-- `rxz(i)`: the stream, 0 outside it (R181). -/
def streamAt (rx : List Cx) (i : Int) : Cx := if 0 ≤ i then elemAt rx i.toNat else Cx.zero

/-- `c[k] = Σ_m rxz(k - (M - 1) + m) * conj(ref[m])` (R181). -/
def correlationAt (rx ref : List Cx) (k : Nat) : Cx :=
  Cx.sum ((List.range ref.length).map fun (m : Nat) =>
    Cx.mul (streamAt rx ((k : Int) - ((ref.length : Int) - 1) + (m : Int))) (Cx.conj (elemAt ref m)))

/-- The correlation sequence, of `Lr + M - 1` terms (R181). -/
def correlation (rx ref : List Cx) : List Cx :=
  (List.range (rx.length + ref.length - 1)).map (correlationAt rx ref)

/-- `argmax_abs(c, W)`: the least index below W whose `abs2` no other below W exceeds (R187). Entry 20. -/
def argmaxAbs (c : List Cx) (width : Nat) : Nat :=
  let mags := (c.take width).map Cx.abs2
  (mags.findIdx? fun m => mags.all fun n => Cx.le n m).getD 0

/-- The peak index and the offset of the strategy that `SYNCSEL` selects (R184, R185, R186). -/
def searchPeak (g : Staging) (c : List Cx) (refLen : Nat) : Except Raise (Nat × Int) :=
  if g.syncsel.toNat = 0 then
    let kmax := argmaxAbs c c.length
    .ok (kmax, (kmax : Int) - (refLen : Int))
  else do
    let f := g.sflen.toNat
    let r := g.srows.toNat
    require (f ≠ 0) ⟨.invalidParameter, 14⟩
    require (r ≠ 0 ∧ r * f ≤ c.length) ⟨.invalidParameter, 15⟩
    let kmax := argmaxAbs c (r * f)
    pure (kmax, (kmax : Int))

/-- `XCORR rd, rs1, rs2, rs3` (R184): the checks in the order written. -/
def xcorrRule (rd rs1 rs2 rs3 : BufIdx) : Rule := fun c => do
  let rx ← c.sourceCplx 1 rs1
  let ref ← c.sourceCplx 2 rs2
  let ev ← c.sourceCplx 3 rs3
  require (c.staging.syncsel.toNat ≤ 1) ⟨.invalidParameter, 13⟩
  require (ev.length = 1) ⟨.badOperand, 3⟩
  require (ref.length ≠ 0) ⟨.badOperand, 2⟩
  require (ref.length ≤ rx.length) ⟨.insufficientSamples, rx.length⟩
  let cs := correlation rx ref
  let pk ← searchPeak c.staging cs ref.length
  require (-(2 ^ 31) ≤ pk.2 ∧ pk.2 ≤ 2 ^ 31 - 1) ⟨.capacityExceeded, pk.1⟩
  require (elemAt cs pk.1 ≠ Cx.zero) ⟨.divideByZero, pk.1⟩
  pure { c.writeBuf rd (.cplx [Cx.div (elemAt ev 0) (elemAt cs pk.1)]) with
    syncoff := BitVec.ofInt 32 pk.2
    svalid := true }

/-- `XCORR rd, rs1, rs2, rs3` (R184). -/
def execXcorr (rd rs1 rs2 rs3 : BufIdx) (s : State) : Host.Outcome State Fault Refusal :=
  s.carryOut (encode (.xcorr rd rs1 rs2 rs3)) (xcorrRule rd rs1 rs2 rs3)

end Sys2Proof.Machine
end

