-- ==== Sys2Proof/Machine/Ofdm.lean ====
section
/-! DEFINITION. The block transforms, the guard interval, and `OFTX` and `OFRX` (42_ofdm.md). -/

namespace Sys2Proof.Machine

/-- `act.nsc` as a number: N. -/
def Frame.size (f : Frame) : Nat := f.nsc.toNat

/-- `act.ng` as a number: G. -/
def Frame.guardLen (f : Frame) : Nat := f.ng.toNat

/-- The block length T = N + G. -/
def Frame.block (f : Frame) : Nat := f.size + f.guardLen

/-- Sample n of `IDFT_N`: `(1/N) * Σ_k X[k] * cis(+2*pi*k*n/N)` (R141). -/
def idftAt (size : Nat) (xs : List Cx) (n : Nat) : Cx :=
  Cx.scale (1 / (size : Rat))
    (Cx.sum ((List.range size).map fun (k : Nat) => Cx.mul (elemAt xs k) (Cx.cis ((k * n : Nat) / (size : Rat)))))

/-- Bin k of `DFT_N`: `Σ_n x[n] * cis(-2*pi*k*n/N)` (R142). -/
def dftAt (size : Nat) (xs : List Cx) (k : Nat) : Cx :=
  Cx.sum ((List.range size).map fun (n : Nat) => Cx.mul (elemAt xs n) (Cx.cis (-((k * n : Nat) / (size : Rat)))))

/-- `IDFT_N` of a block (R141), bins and samples in natural order (R143). -/
def idft (size : Nat) (xs : List Cx) : List Cx := (List.range size).map (idftAt size xs)

/-- `DFT_N` of a block (R142), bins and samples in natural order (R143). -/
def dft (size : Nat) (xs : List Cx) : List Cx := (List.range size).map (dftAt size xs)

/-- `guard_insert(x)` (R145). -/
def guardInsert (f : Frame) (x : List Cx) : List Cx :=
  match f.gtype with
  | .zeroPad => List.replicate f.guardLen Cx.zero ++ x
  | .cyclicPrefix => x.drop (f.size - f.guardLen) ++ x
  | .cyclicSuffix => x ++ x.take f.guardLen

/-- `guard_remove(y)` (R149). -/
def guardRemove (f : Frame) (y : List Cx) : List Cx :=
  match f.gtype with
  | .zeroPad => y.drop f.guardLen
  | .cyclicPrefix => y.drop f.guardLen
  | .cyclicSuffix => y.take f.size

/-- All the frames of a symbol sequence (R144). -/
def framed (f : Frame) (xs : List Cx) : List Cx :=
  (List.range (xs.length / f.size)).flatMap fun (q : Nat) => guardInsert f (idft f.size (piece xs (q * f.size) f.size))

/-- All the blocks of a sample sequence, a trailing partial block left out (R148). -/
def deframed (f : Frame) (ys : List Cx) : List Cx :=
  (List.range (ys.length / f.block)).flatMap fun (q : Nat) => dft f.size (guardRemove f (piece ys (q * f.block) f.block))

/-- `OFTX rd, rs1` (R144). -/
def oftxRule (rd rs1 : BufIdx) : Rule := fun c => do
  let f ← c.needFrame
  let xs ← c.sourceCplx 1 rs1
  require (xs.length % f.size = 0) ⟨.misalignedSymbolLength, xs.length⟩
  require (Config.fitsCap (xs.length / f.size * f.block) = true)
    ⟨.capacityExceeded, xs.length / f.size * f.block⟩
  pure (c.writeBuf rd (.cplx (framed f xs)))

/-- `OFRX rd, rs1` (R148). -/
def ofrxRule (rd rs1 : BufIdx) : Rule := fun c => do
  let f ← c.needFrame
  let ys ← c.sourceCplx 1 rs1
  pure (c.writeBuf rd (.cplx (deframed f ys)))

/-- `OFTX rd, rs1` (R144). -/
def execOftx (rd rs1 : BufIdx) (s : State) : Host.Outcome State Fault Refusal :=
  s.carryOut (encode (.oftx rd rs1)) (oftxRule rd rs1)

/-- `OFRX rd, rs1` (R148). -/
def execOfrx (rd rs1 : BufIdx) (s : State) : Host.Outcome State Fault Refusal :=
  s.carryOut (encode (.ofrx rd rs1)) (ofrxRule rd rs1)

end Sys2Proof.Machine
end

