-- ==== Sys2Proof/Machine/Equalize.lean ====
section
/-! DEFINITION. `CHEST` and `EQ` (43_estimate_equalize.md). -/

namespace Sys2Proof.Machine

/-- `CHEST rd, rs1` (R160, R161): rs1 is checked for its kind and not read further. -/
def chestRule (rd rs1 : BufIdx) : Rule := fun c => do
  let _ ← c.sourceCplx 1 rs1
  let e := c.staging.estsel.toNat
  require (e ≤ 1) ⟨.invalidParameter, 12⟩
  if e = 0 then do
    let f ← c.needFrame
    require (Config.fitsCap f.size = true) ⟨.capacityExceeded, f.size⟩
    pure (c.writeBuf rd (.cplx (List.replicate f.size Cx.one)))
  else
    pure (c.writeBuf rd (.cplx [Cx.one]))

/-- `DivideByZero(least such k)` when there is a symbol to divide and `g[k] = 0` for some k (R164, R167). -/
def requireGain (z g : List Cx) : Except Raise Unit :=
  match g.findIdx? (fun x => x = Cx.zero) with
  | some k => require (z.length = 0) ⟨.divideByZero, k⟩
  | none => .ok ()

/-- `z[i] / h(i)`, the gain taken at `i mod n` (R164). -/
def equalized (n : Nat) (z g : List Cx) : List Cx :=
  (List.range z.length).map fun (i : Nat) => Cx.div (elemAt z i) (elemAt g (i % n))

/-- `EQ rd, rs1, rs2` (R164): a gain of one element is a scalar, any other a vector (R165). -/
def eqRule (rd rs1 rs2 : BufIdx) : Rule := fun c => do
  let z ← c.sourceCplx 1 rs1
  let g ← c.sourceCplx 2 rs2
  if g.length = 1 then do
    requireGain z g
    pure (c.writeBuf rd (.cplx (equalized 1 z g)))
  else do
    let f ← c.needFrame
    require (g.length = f.size) ⟨.dimensionMismatch, g.length⟩
    require (z.length % f.size = 0) ⟨.dimensionMismatch, z.length⟩
    requireGain z g
    pure (c.writeBuf rd (.cplx (equalized f.size z g)))

/-- `CHEST rd, rs1` (R160). -/
def execChest (rd rs1 : BufIdx) (s : State) : Host.Outcome State Fault Refusal :=
  s.carryOut (encode (.chest rd rs1)) (chestRule rd rs1)

/-- `EQ rd, rs1, rs2` (R164). -/
def execEq (rd rs1 rs2 : BufIdx) (s : State) : Host.Outcome State Fault Refusal :=
  s.carryOut (encode (.eq rd rs1 rs2)) (eqRule rd rs1 rs2)

end Sys2Proof.Machine
end

