-- ==== Sys2Proof/Machine/Qam.lean ====
section
/-! DEFINITION. The constellation and its tables (R46 to R49), computed from `act.order` (R50), and `QMOD` and `QDEM`
(41_qam.md). -/

namespace Sys2Proof.Machine

/-- `yT = 2^floor(bps/2)` (R46). -/
def yTicks (order : Nat) : Nat := 2 ^ (bpsOf order / 2)

/-- `xT = order / yT` (R46). -/
def xTicks (order : Nat) : Nat := order / yTicks order

/-- `coord(n, i)`: evenly spaced over [-1, 1], ascending; 0 on a single tick (R47). -/
def coord (n i : Nat) : Rat := if n = 1 then 0 else -1 + 2 * (i : Rat) / ((n : Rat) - 1)

/-- `XC[c]` (R47). -/
def xCoord (order c : Nat) : Rat := coord (xTicks order) c

/-- `YC[r]` (R47). -/
def yCoord (order r : Nat) : Rat := coord (yTicks order) r

/-- `CT[v] = XC[v mod xT] + YC[v div xT]*j` (R47). -/
def point (order v : Nat) : Cx := Cx.ofParts (xCoord order (v % xTicks order)) (yCoord order (v / xTicks order))

/-- `VG[r][c] = r*xT + c` (R48). -/
def gridValue (order r c : Nat) : Nat := r * xTicks order + c

/-- The borders of an axis with n ticks (R49): `none` is -infinity; border k is the midpoint of ticks k-1 and k. -/
def borders (n : Nat) : List (Option Rat) :=
  (List.range n).map fun (k : Nat) => if k = 0 then none else some ((coord n (k - 1) + coord n k) / 2)

/-- `B ≤ x` for a border B and a real x; -infinity is below every real (R49). -/
def borderLe (b : Option Rat) (x : Cx) : Bool :=
  match b with
  | none => true
  | some q => Cx.le (Cx.ofRat q) x

/-- `region(B, x)`: the greatest k with `B[k] ≤ x` (R125). -/
def region (bs : List (Option Rat)) (x : Cx) : Nat :=
  ((List.range bs.length).filter fun k => borderLe (bs.getD k none) x).getLastD 0

/-- `val(i)`: group i of the bits, its first bit the least significant (R120, R121). -/
def groupValue (p : Nat) (b : List Bool) (i : Nat) : Nat :=
  ((List.range p).map fun (j : Nat) => (b.getD (i * p + j) false).toNat * 2 ^ j).sum

/-- The symbols of a bit sequence (R120). -/
def modulate (order : Nat) (b : List Bool) : List Cx :=
  (List.range (b.length / bpsOf order)).map fun (i : Nat) => point order (groupValue (bpsOf order) b i)

/-- The value decided for one symbol (R124). -/
def decideValue (order : Nat) (z : Cx) : Nat :=
  gridValue order (region (borders (yTicks order)) z.im) (region (borders (xTicks order)) z.re)

/-- The p bits of a value, least significant first (R124). -/
def unpackValue (p v : Nat) : List Bool := (List.range p).map fun (j : Nat) => decide (v / 2 ^ j % 2 = 1)

/-- The bits of a symbol sequence (R124). -/
def demodulate (order : Nat) (zs : List Cx) : List Bool :=
  zs.flatMap fun z => unpackValue (bpsOf order) (decideValue order z)

/-- `QMOD rd, rs1` (R120). -/
def qmodRule (rd rs1 : BufIdx) : Rule := fun c => do
  let order ← c.needOrder
  let b ← c.sourceBits 1 rs1
  require (b.length % bpsOf order = 0) ⟨.misalignedBitLength, b.length⟩
  pure (c.writeBuf rd (.cplx (modulate order b)))

/-- `QDEM rd, rs1` (R124). -/
def qdemRule (rd rs1 : BufIdx) : Rule := fun c => do
  let order ← c.needOrder
  let z ← c.sourceCplx 1 rs1
  require (Config.fitsCap (z.length * bpsOf order) = true) ⟨.capacityExceeded, z.length * bpsOf order⟩
  pure (c.writeBuf rd (.bits (demodulate order z)))

/-- `QMOD rd, rs1` (R120). -/
def execQmod (rd rs1 : BufIdx) (s : State) : Host.Outcome State Fault Refusal :=
  s.carryOut (encode (.qmod rd rs1)) (qmodRule rd rs1)

/-- `QDEM rd, rs1` (R124). -/
def execQdem (rd rs1 : BufIdx) (s : State) : Host.Outcome State Fault Refusal :=
  s.carryOut (encode (.qdem rd rs1)) (qdemRule rd rs1)

end Sys2Proof.Machine
end

