-- ==== Sys2Proof/Machine/Dispatch.lean ====
section
/-! DEFINITION. One arm per command (R84). -/

namespace Sys2Proof.Machine

/-- The meaning of a decoded command. -/
def exec (i : Instr) (s : State) : Host.Outcome State Fault Refusal :=
  match i with
  | .nop => Sys2Proof.Machine.execNop s
  | .cbuild => Sys2Proof.Machine.execCbuild s
  | .fbuild => Sys2Proof.Machine.execFbuild s
  | .qmod rd rs1 => Sys2Proof.Machine.execQmod rd rs1 s
  | .qdem rd rs1 => Sys2Proof.Machine.execQdem rd rs1 s
  | .oftx rd rs1 => Sys2Proof.Machine.execOftx rd rs1 s
  | .ofrx rd rs1 => Sys2Proof.Machine.execOfrx rd rs1 s
  | .chest rd rs1 => Sys2Proof.Machine.execChest rd rs1 s
  | .eq rd rs1 rs2 => Sys2Proof.Machine.execEq rd rs1 rs2 s
  | .xcorr rd rs1 rs2 rs3 => Sys2Proof.Machine.execXcorr rd rs1 rs2 rs3 s

end Sys2Proof.Machine
end

