-- ==== Sys2Proof/Machine/Port.lean ====
section
/-! DEFINITION. What each event at the host port does (R61 to R63, R70, R73, R205, R230).
DESIGN CHOICE: the reset input is an event (entry 12). UNVERIFIED: one host, and every command ends (entry 19). -/

namespace Sys2Proof.Machine

/-- A word no row matches: `IllegalCommand` with `FINFO = w` (R86, R205). -/
def issueIllegal (w : Word) (s : State) : Host.Outcome State Fault Refusal :=
  s.carryOut w fun _ => .error ⟨.illegalCommand, w.toNat⟩

/-- A word written to `CMD` (R31, R205): refused while a fault is recorded (R208), else decoded and executed. -/
def issue (w : Word) (s : State) : Host.Outcome State Fault Refusal :=
  if s.core.faultFlag then .next s
  else
    match decode w with
    | .ok i => exec i s
    | .error _ => issueIllegal w s

/-- The effect of a `HostBufWrite` (R62); what is no transaction is refused. -/
def hostBufWrite (b : BufIdx) (d : Buffer) (s : State) : Host.Outcome State Fault Refusal :=
  match hostWriteProblem d with
  | some r => .refused r
  | none => .next { s with core := s.core.writeBuf b d }

/-- One event, taken off the script and answered (R70: it completes before the next begins). -/
def perform (e : HostEvent) (s : State) : Host.Outcome State Fault Refusal :=
  match e with
  | .csrRead i => .next (s.answer (.value (s.core.readIndex i)))
  | .csrWrite i w =>
    let s := s.answer .completed
    if i = Csr.cmd.index then issue w s else .next { s with core := s.core.writeIndex i w }
  | .bufRead b => .next (s.answer (.content s.core.bufs[b]))
  | .bufWrite b d => hostBufWrite b d (s.answer .completed)
  | .resetInput => .next { s.answer .completed with core := CoreState.reset }

end Sys2Proof.Machine
end

