-- ==== Sys2Proof/Machine/Step.lean ====
section
/-! DEFINITION. One step: the host's next event. CORE fetches nothing (R32, R72); with no event left it does nothing
(R230; DEDUCED, entry 10). -/

namespace Sys2Proof.Machine

/-- The host's next event, or nothing when it has none. -/
def step (s : State) : Host.Outcome State Fault Refusal :=
  match s.script with
  | [] => .next s
  | e :: _ => perform e s

/-- The word is the host's next write to `CMD`, which is where CORE takes its next command from (R31).
DESIGN CHOICE: entry 9. -/
def State.withFetchWord (s : State) (nbits w : Nat) : State :=
  { s with script := .csrWrite Csr.cmd.index (tableWord nbits w) :: s.script }

end Sys2Proof.Machine
end

