-- ==== Sys2Proof/Reference.lean ====
section
/-! DEFINITION. The complex number an element stands for (R9), the number format `NUM` and what it means for a CORE of
some format to conform to a reference value (R12). Statements use it; the machine does not. -/

namespace Sys2Proof.Machine

/-- `cis(2*pi*r)` (R9). -/
noncomputable def turnPoint (r : ℚ) : ℂ := Complex.exp (2 * Real.pi * Complex.I * (r : ℂ))

/-- The sum a list of terms stands for. -/
noncomputable def termsValue (ts : List Term) : ℂ := (ts.map fun t => (t.coeff : ℂ) * turnPoint t.turn).sum

/-- The complex number an element stands for. -/
noncomputable def Cx.value (z : Cx) : ℂ := termsValue z.terms

/-- `cis(t) = cos(t) + sin(t)*j` for a real t (R9). -/
noncomputable def cisValue (t : ℝ) : ℂ := (Real.cos t : ℂ) + (Real.sin t : ℂ) * Complex.I

/-- `abs2(z) = re*re + im*im` (R9). -/
noncomputable def abs2Value (z : ℂ) : ℝ := z.re * z.re + z.im * z.im

/-- A number format `NUM`: the representable real scalars `S`, the rounding `rnd` and the bound `tol` (R12). -/
structure NumFormat where
  representable : Set ℝ
  rnd : ℝ → ℝ
  tol : ℝ

/-- What R12 asks of a number format. -/
structure NumFormat.Valid (f : NumFormat) : Prop where
  zero_mem : 0 ∈ f.representable
  one_mem : 1 ∈ f.representable
  neg_one_mem : -1 ∈ f.representable
  rnd_mem : ∀ x, f.rnd x ∈ f.representable
  rnd_of_mem : ∀ x ∈ f.representable, f.rnd x = x
  tol_nonneg : 0 ≤ f.tol

/-- A complex number whose two parts are representable: what an element of a `CPLX` buffer can be (R12). -/
def NumFormat.Holds (f : NumFormat) (z : ℂ) : Prop := z.re ∈ f.representable ∧ z.im ∈ f.representable

/-- A delivered value of the format lies within `tol * max(1, |reference|)` of its reference value, in each of its two
parts (R12). -/
def NumFormat.Conforms (f : NumFormat) (reference delivered : ℂ) : Prop :=
  f.Holds delivered ∧ |delivered.re - reference.re| ≤ f.tol * max 1 ‖reference‖ ∧
    |delivered.im - reference.im| ≤ f.tol * max 1 ‖reference‖

open Classical in
/-- The format of the model: the real numbers that an element can stand for, held exactly. `rnd` is the identity on them,
and no command rounds, so what it gives elsewhere is looked at by nothing. DESIGN CHOICE: entries 1 and 2. -/
noncomputable def elementFormat : NumFormat where
  representable := {x | ∃ z : Cx, z.canonical = true ∧ z.value = (x : ℂ)}
  rnd := fun x => if ∃ z : Cx, z.canonical = true ∧ z.value = (x : ℂ) then x else 0
  tol := 0

end Sys2Proof.Machine
end

