-- ==== Sys2Proof/Formulas.lean ====
section
/-! DEFINITION. The formulas of the spec over the complex numbers themselves (R9), for statements to hold the machine's
exact arithmetic against. The machine does not use them. -/

namespace Sys2Proof.Machine

/-- The complex number at index i of a sequence of elements (R7). -/
noncomputable def valueAt (a : List Cx) (i : Nat) : ℂ := (elemAt a i).value

/-- The complex sequence that a sequence of elements stands for (R7, R9). -/
noncomputable def numbersOf (a : List Cx) : List ℂ := a.map Cx.value

/-- Element i of a complex sequence; 0 outside, where no rule looks (R7). -/
noncomputable def numberAt (a : List ℂ) (i : Nat) : ℂ := a.getD i 0

/-! The constellation of order `2^k` (R46 to R49, R125) -/

/-- `yT` of the order `2^k` (R46). -/
def rowsOf (k : Nat) : Nat := 2 ^ (k / 2)

/-- `xT` of the order `2^k` (R46). -/
def columnsOf (k : Nat) : Nat := 2 ^ k / rowsOf k

/-- `coord(n, i)` (R47). -/
noncomputable def axisCoord (n i : Nat) : ℝ := if n = 1 then 0 else -1 + 2 * (i : ℝ) / ((n : ℝ) - 1)

/-- Border k of an axis with n ticks, for k from 1 (R49). -/
noncomputable def axisBorder (n k : Nat) : ℝ := (axisCoord n (k - 1) + axisCoord n k) / 2

/-- `CT[v]` of the order `2^k` (R47). -/
noncomputable def symbolPoint (k v : Nat) : ℂ :=
  (axisCoord (columnsOf k) (v % columnsOf k) : ℂ) + (axisCoord (rowsOf k) (v / columnsOf k) : ℂ) * Complex.I

open Classical in
/-- `region` on an axis of n ticks, as the number of its borders that are at most x (R125). -/
noncomputable def bordersBelow (n : Nat) (x : ℝ) : Nat :=
  ((Finset.range n).filter fun k => 1 ≤ k ∧ axisBorder n k ≤ x).card

/-- The value decided for a symbol under the order `2^k`: `r*xT + c` (R124). -/
noncomputable def decided (k : Nat) (z : ℂ) : Nat :=
  bordersBelow (rowsOf k) z.im * columnsOf k + bordersBelow (columnsOf k) z.re

/-- The value of group i of a bit sequence, `p` bits a group, its first bit the least significant (R120, R121). -/
def bitGroup (p : Nat) (b : List Bool) (i : Nat) : Nat :=
  ∑ j ∈ Finset.range p, (b.getD (i * p + j) false).toNat * 2 ^ j

/-! The transforms (R141, R142) and the guard (R145) -/

/-- `IDFT_N` (R141). -/
noncomputable def inverseTransform (size : Nat) (x : Nat → ℂ) (n : Nat) : ℂ :=
  1 / (size : ℂ) * ∑ k ∈ Finset.range size, x k * Complex.exp (2 * Real.pi * Complex.I * ((k : ℂ) * n / size))

/-- `DFT_N` (R142). -/
noncomputable def forwardTransform (size : Nat) (x : Nat → ℂ) (k : Nat) : ℂ :=
  ∑ n ∈ Finset.range size, x n * Complex.exp (-(2 * Real.pi * Complex.I * ((k : ℂ) * n / size)))

/-- Sample n of the frame made from the block x of `size` samples (R145). -/
noncomputable def frameSample (t : GuardType) (size guard : Nat) (x : Nat → ℂ) (n : Nat) : ℂ :=
  match t with
  | .zeroPad => if n < guard then 0 else x (n - guard)
  | .cyclicPrefix => if n < guard then x (size - guard + n) else x (n - guard)
  | .cyclicSuffix => if n < size then x n else x (n - size)

/-- How many samples guard removal drops before the block (R149). -/
def guardBefore (t : GuardType) (guard : Nat) : Nat :=
  match t with
  | .zeroPad => guard
  | .cyclicPrefix => guard
  | .cyclicSuffix => 0

/-! The correlation (R181, R183) -/

/-- `rxz(i)`: the stream, 0 outside it (R181). -/
noncomputable def streamValue (rx : List ℂ) (i : Int) : ℂ :=
  if 0 ≤ i ∧ i < rx.length then numberAt rx i.toNat else 0

/-- `c[k]` (R181). -/
noncomputable def correlationValue (rx ref : List ℂ) (k : Nat) : ℂ :=
  ∑ m ∈ Finset.range ref.length,
    streamValue rx ((k : Int) - ((ref.length : Int) - 1) + (m : Int)) * (starRingEnd ℂ) (numberAt ref m)

/-- `y[k]`, the output of the matched filter `h[n] = conj(ref[M-1-n])` (R183). -/
noncomputable def filterOutput (rx ref : List ℂ) (k : Nat) : ℂ :=
  ∑ n ∈ Finset.range ref.length,
    streamValue rx ((k : Int) - (n : Int)) * (starRingEnd ℂ) (numberAt ref (ref.length - 1 - n))

/-- k is `argmax_abs(c, W)` for the sequence of values c: the least index below W of greatest squared magnitude (R187). -/
def IsPeak (c : Nat → ℂ) (width k : Nat) : Prop :=
  k < width ∧ (∀ i, i < width → Complex.normSq (c i) ≤ Complex.normSq (c k)) ∧
    ∀ i, i < k → Complex.normSq (c i) < Complex.normSq (c k)

end Sys2Proof.Machine
end

