-- ==== Sys2Proof/Machine/Script.lean ====
section
/-! DEFINITION. The lines of a host script (R92) and the pseudo-instruction `RXCHAIN` (R93, R168). -/

namespace Sys2Proof.Machine

/-- `csrw NAME, value` (R92). -/
def scriptCsrw (r : Csr) (w : Word) : HostEvent := .csrWrite r.index w

/-- `csrr NAME` (R92). -/
def scriptCsrr (r : Csr) : HostEvent := .csrRead r.index

/-- `MNEMONIC operands`: the encoding written to `CMD` (R92). -/
def scriptCommand (i : Instr) : HostEvent := .csrWrite Csr.cmd.index (encode i)

/-- `bufw sN, kind, data` (R92). -/
def scriptBufw (b : BufIdx) (d : Buffer) : HostEvent := .bufWrite b d

/-- `bufr sN` (R92). -/
def scriptBufr (b : BufIdx) : HostEvent := .bufRead b

/-- `clrfault` (R92). -/
def scriptClrfault : HostEvent := .csrWrite Csr.ctrl.index 1

/-- `srst` (R92). -/
def scriptSrst : HostEvent := .csrWrite Csr.ctrl.index 2

/-- `RXCHAIN rd, rs1, rt1, rt2`: three commands in this order (R168). -/
def rxChain (rd rs1 rt1 rt2 : BufIdx) : List Instr := [.ofrx rt1 rs1, .chest rt2 rt1, .eq rd rt1 rt2]

/-- The script of a list of commands. -/
def scriptOf (is : List Instr) : List HostEvent := is.map scriptCommand

end Sys2Proof.Machine
end

