-- ==== Sys2Proof/WellFormed.lean ====
section
/-! DEFINITION. What is well formed. A command cannot be ill formed: each field of `Instr` is a buffer number 0 .. 7 by
its type (R81, R83). What a host may hand over can be: a buffer write has three checks (R62), and the scratch buffers of
`RXCHAIN` one (R168). -/

namespace Sys2Proof

open Sys2Proof.Machine

/-- An event that is a transaction of R61 to R63, or the reset input. -/
def Machine.HostEvent.wellFormed : HostEvent → Bool
  | .csrRead _ => true
  | .csrWrite _ _ => true
  | .bufRead _ => true
  | .bufWrite _ d => (hostWriteProblem d).isNone
  | .resetInput => true

/-- The two scratch buffers of `RXCHAIN` differ (R168). -/
def rxChainWellFormed (rt1 rt2 : BufIdx) : Bool := decide (rt1 ≠ rt2)

end Sys2Proof
end

