-- ==== Sys2Proof/Safety.lean ====
section
/-! DEFINITION. The words statements about CORE use: a completed and a faulted command (R206, R207), what a command may
write (R23) and raise (R204), the end of a run (R219), and the invariant of the state. -/

namespace Sys2Proof.Machine

/-- The state after a command that completed with core `c`: its writes, and `CSEQ` one further (R206). -/
def State.completed (s : State) (c : CoreState) : State := { s with core := { c with cseq := s.core.cseq + 1 } }

/-- The state after the fault of command word `w`: the state before it plus the record (R207). -/
def State.faulted (s : State) (w : Word) (cause : Cause) (info : Word) : State :=
  { s with core := { s.core with fault := some ⟨cause, w, info⟩ } }

/-- The buffer a command writes, where it writes one (R23). -/
def destination : Instr → Option BufIdx
  | .nop => none
  | .cbuild => none
  | .fbuild => none
  | .qmod rd _ => some rd
  | .qdem rd _ => some rd
  | .oftx rd _ => some rd
  | .ofrx rd _ => some rd
  | .chest rd _ => some rd
  | .eq rd _ _ => some rd
  | .xcorr rd _ _ _ => some rd

/-- The causes a command can record (R204). -/
def mayRaise : Instr → List Cause
  | .nop => []
  | .cbuild => [.invalidOrder, .capacityExceeded]
  | .fbuild => [.invalidParameter]
  | .qmod _ _ => [.misalignedBitLength, .notConfigured, .badOperand]
  | .qdem _ _ => [.notConfigured, .badOperand, .capacityExceeded]
  | .oftx _ _ => [.misalignedSymbolLength, .notConfigured, .badOperand, .capacityExceeded]
  | .ofrx _ _ => [.notConfigured, .badOperand]
  | .chest _ _ => [.notConfigured, .invalidParameter, .badOperand, .capacityExceeded]
  | .eq _ _ _ => [.dimensionMismatch, .notConfigured, .badOperand, .divideByZero]
  | .xcorr _ _ _ _ => [.insufficientSamples, .invalidParameter, .badOperand, .capacityExceeded, .divideByZero]

/-- The two sets of staging registers hold the same in every register the command reads (R36). -/
def sameStagingFor : Instr → Staging → Staging → Prop
  | .nop => fun _ _ => True
  | .cbuild => fun g h => g.order = h.order
  | .fbuild => fun g h => g.nsc = h.nsc ∧ g.ng = h.ng ∧ g.gtype = h.gtype
  | .qmod _ _ => fun _ _ => True
  | .qdem _ _ => fun _ _ => True
  | .oftx _ _ => fun _ _ => True
  | .ofrx _ _ => fun _ _ => True
  | .chest _ _ => fun g h => g.estsel = h.estsel
  | .eq _ _ _ => fun _ _ => True
  | .xcorr _ _ _ _ => fun g h => g.syncsel = h.syncsel ∧ g.sflen = h.sflen ∧ g.srows = h.srows

/-- What holds of CORE in every state it can be in: buffers hold at most `CAP` elements (R21), each complex one a number
(R9); a latched order is a power of two of at least 2 within `ORDER_MAX` (R46, R104); a latched frame has a block of at
least one sample and a cyclic guard no longer than the block (R109); `SYNCOFF` is 0 until an `XCORR` completes (R41, R55);
`UnsupportedLayout` is never recorded (R128). -/
structure CoreState.Inv (c : CoreState) : Prop where
  lengths : ∀ b : BufIdx, Config.fitsCap c.bufs[b].len = true
  numbers : ∀ b : BufIdx, c.bufs[b].numbers = true
  order : ∀ k, c.constel = some k → ∃ n, 1 ≤ n ∧ k.order.toNat = 2 ^ n ∧ Config.fitsOrder (2 ^ n) = true
  frame : ∀ f, c.frame = some f → f.nsc ≠ 0 ∧ (f.gtype ≠ .zeroPad → f.ng.toNat ≤ f.nsc.toNat)
  offset : c.svalid = false → c.syncoff = 0
  causes : ∀ r, c.fault = some r → r.cause ≠ .unsupportedLayout

/-- A run is over when the host has made its last transaction (R219). -/
def State.ended (s : State) : Prop := s.script = []

/-- A run that is over ended clean when no fault is recorded (R219). -/
def State.endedClean (s : State) : Prop := s.ended ∧ s.core.fault = none

/-- The run of a whole host script: one step for each of its events (R219). -/
def runScript (s : State) : Host.Outcome State Fault Refusal := Sys2Proof.core.run s.script.length s

end Sys2Proof.Machine
end

