-- ==== Sys2Proof/Certificates/Slice0/Obligations.lean ====
section
/-! DEFINITION. The statements for the provers. -/

section

open Sys2Proof Sys2Proof.Machine

/-! ## Encoding and decoding -/

/-- R92, R85. Decoding the encoding of a command gives the command back, whatever buffers it names. -/
def Obligations.DecodeOfEncode : Prop := ∀ i : Instr, decode (encode i) = .ok i

/-- R84, R85. A word that decodes to a command is that command's encoding: no two words are one command. -/
def Obligations.EncodeOfDecode : Prop := ∀ (w : Word) (i : Instr), decode w = .ok i → encode i = w

/-- R84, R92. Words written out from the encoding table. -/
def Obligations.SampleWordsDecode : Prop :=
  decode 0x00000000#32 = .ok .nop ∧ decode 0x00000001#32 = .ok .cbuild ∧ decode 0x00000002#32 = .ok .fbuild ∧
  decode 0x00000110#32 = .ok (.qmod 1 0) ∧ decode 0x00000A11#32 = .ok (.qdem 2 1) ∧
  decode 0x00000920#32 = .ok (.oftx 1 1) ∧ decode 0x00003F21#32 = .ok (.ofrx 7 7) ∧
  decode 0x00001C30#32 = .ok (.chest 4 3) ∧ decode 0x00011D31#32 = .ok (.eq 5 3 4) ∧
  decode 0x00068840#32 = .ok (.xcorr 0 1 2 3)

/-- R84. Each of the ten commands is exactly the words with `(w AND mask) = match`. -/
def Obligations.CommandsByMatchAndMask : Prop :=
  ∀ w : Word,
    (decode w = .ok .nop ↔ w &&& 0xFFFFFFFF#32 = 0x00000000#32) ∧
    (decode w = .ok .cbuild ↔ w &&& 0xFFFFFFFF#32 = 0x00000001#32) ∧
    (decode w = .ok .fbuild ↔ w &&& 0xFFFFFFFF#32 = 0x00000002#32) ∧
    ((∃ rd rs1, decode w = .ok (.qmod rd rs1)) ↔ w &&& 0xFFFFC0FF#32 = 0x00000010#32) ∧
    ((∃ rd rs1, decode w = .ok (.qdem rd rs1)) ↔ w &&& 0xFFFFC0FF#32 = 0x00000011#32) ∧
    ((∃ rd rs1, decode w = .ok (.oftx rd rs1)) ↔ w &&& 0xFFFFC0FF#32 = 0x00000020#32) ∧
    ((∃ rd rs1, decode w = .ok (.ofrx rd rs1)) ↔ w &&& 0xFFFFC0FF#32 = 0x00000021#32) ∧
    ((∃ rd rs1, decode w = .ok (.chest rd rs1)) ↔ w &&& 0xFFFFC0FF#32 = 0x00000030#32) ∧
    ((∃ rd rs1 rs2, decode w = .ok (.eq rd rs1 rs2)) ↔ w &&& 0xFFFE00FF#32 = 0x00000031#32) ∧
    ((∃ rd rs1 rs2 rs3, decode w = .ok (.xcorr rd rs1 rs2 rs3)) ↔ w &&& 0xFFF000FF#32 = 0x00000040#32)

/-- R83. The buffer numbers of a decoded command are its 3-bit fields as they stand. -/
def Obligations.OperandFields : Prop :=
  ∀ (w : Word) (rd rs1 rs2 rs3 : BufIdx),
    ((decode w = .ok (.qmod rd rs1) ∨ decode w = .ok (.qdem rd rs1) ∨ decode w = .ok (.oftx rd rs1) ∨
        decode w = .ok (.ofrx rd rs1) ∨ decode w = .ok (.chest rd rs1)) →
      rd.val = slice w 10 8 ∧ rs1.val = slice w 13 11) ∧
    (decode w = .ok (.eq rd rs1 rs2) →
      rd.val = slice w 10 8 ∧ rs1.val = slice w 13 11 ∧ rs2.val = slice w 16 14) ∧
    (decode w = .ok (.xcorr rd rs1 rs2 rs3) →
      rd.val = slice w 10 8 ∧ rs1.val = slice w 13 11 ∧ rs2.val = slice w 16 14 ∧ rs3.val = slice w 19 17)

/-- R86. Which words are illegal, and that such a word, written to `CMD` while no fault is recorded, records
`IllegalCommand` with the word in `FINFO` and changes nothing else of CORE. -/
def Obligations.IllegalWords : Prop :=
  (∀ w : Word, (∀ i, decode w ≠ .ok i) ↔
    slice w 7 0 ∉ [0x00, 0x01, 0x02, 0x10, 0x11, 0x20, 0x21, 0x30, 0x31, 0x40] ∨ slice w 31 20 ≠ 0 ∨
    (slice w 7 0 ∈ [0x00, 0x01, 0x02] ∧ slice w 19 8 ≠ 0) ∨
    (slice w 7 0 ∈ [0x10, 0x11, 0x20, 0x21, 0x30] ∧ slice w 19 14 ≠ 0) ∨
    (slice w 7 0 = 0x31 ∧ slice w 19 17 ≠ 0)) ∧
  (∀ (s : State) (w : Word) (rest : List HostEvent), s.core.fault = none → s.script = .csrWrite 0 w :: rest →
    (∀ i, decode w ≠ .ok i) →
    step s = .next { core := { s.core with fault := some ⟨.illegalCommand, w, w⟩ }, script := rest,
                     replies := s.replies ++ [.completed] })

/-! ## Numbers -/

/-- R9, R12. Elements compute as the complex numbers they stand for: parts, sum, product, conjugate, squared magnitude,
quotient and `cis`; one canonical element for a number, ordered as the reals are; every complex number with rational parts
is an element, so elements lie as near as wanted to any complex number. The model's format is a format of R12 with
tolerance 0. Which numbers are elements is the model's choice: log entries 1 to 3. -/
def Obligations.ElementsAreComplexNumbers : Prop :=
  (∀ x y : Cx, (Cx.add x y).value = x.value + y.value ∧ (Cx.mul x y).value = x.value * y.value ∧
    x.conj.value = (x.value.re : ℂ) - (x.value.im : ℂ) * Complex.I ∧ x.re.value = (x.value.re : ℂ) ∧
    x.im.value = (x.value.im : ℂ) ∧ x.abs2.value = (abs2Value x.value : ℂ) ∧
    (y.value ≠ 0 → (Cx.div x y).value = x.value / y.value)) ∧
  (∀ r : ℚ, (Cx.cis r).canonical = true ∧ (Cx.cis r).value = cisValue (2 * Real.pi * r)) ∧
  (∀ x y : ℚ, (Cx.ofParts x y).canonical = true ∧ (Cx.ofParts x y).value = (x : ℂ) + (y : ℂ) * Complex.I) ∧
  (∀ x y : Cx, x.canonical = true → y.canonical = true →
    (Cx.add x y).canonical = true ∧ (Cx.mul x y).canonical = true ∧ x.conj.canonical = true ∧
    x.re.canonical = true ∧ x.im.canonical = true ∧ x.abs2.canonical = true ∧ (Cx.div x y).canonical = true ∧
    (x = y ↔ x.value = y.value) ∧
    ∀ r s : ℝ, x.value = (r : ℂ) → y.value = (s : ℂ) → (Cx.le x y = true ↔ r ≤ s)) ∧
  (∀ (z : ℂ) (ε : ℝ), 0 < ε → ∃ x : Cx, x.canonical = true ∧ ‖x.value - z‖ < ε) ∧
  elementFormat.Valid ∧ ∀ x : Cx, x.canonical = true → elementFormat.Conforms x.value x.value

/-! ## The step and the host port -/

/-- R31, R205. A word the host writes to `CMD` while no fault is recorded is decoded and executed: the step is `exec` of
the command at the state with the event taken off the script and its completion among the replies.
The script and the replies are the model's: log entries 9 and 11. -/
def Obligations.StepRunsDecodedCommand : Prop :=
  ∀ (s : State) (w : Word) (i : Instr) (rest : List HostEvent), s.core.fault = none →
    s.script = .csrWrite 0 w :: rest → decode w = .ok i →
    step s = exec i { core := s.core, script := rest, replies := s.replies ++ [.completed] }

/-- R61, R63, R67. Reads answer and change nothing of CORE, and the same read again gives the same answer.
The replies are the model's: log entry 11. -/
def Obligations.ReadsHaveNoSideEffect : Prop :=
  ∀ (s : State) (e : HostEvent) (rest : List HostEvent), s.script = e :: e :: rest →
    ((∃ i, e = .csrRead i) ∨ ∃ b, e = .bufRead b) →
    ∃ (r : HostReply) (t u : State), step s = .next t ∧ step t = .next u ∧ t.core = s.core ∧ u.core = s.core ∧
      t.replies = s.replies ++ [r] ∧ u.replies = s.replies ++ [r, r] ∧
      (∀ i, e = .csrRead i → r = .value (s.core.readIndex i)) ∧ ∀ b, e = .bufRead b → r = .content s.core.bufs[b]

/-- R208. While a fault is recorded every command word is refused and changes nothing of CORE, and the write completes;
register reads and writes other than to `CMD`, and buffer transactions, are not refused. -/
def Obligations.PendingFaultRefusesCommands : Prop :=
  ∀ (s : State) (r : FaultRecord) (rest : List HostEvent), s.core.fault = some r →
    (∀ i, exec i s = .next s) ∧
    (∀ w, s.script = .csrWrite 0 w :: rest →
      step s = .next { core := s.core, script := rest, replies := s.replies ++ [.completed] }) ∧
    (∀ i, s.script = .csrRead i :: rest → step s = .next
      { core := s.core, script := rest, replies := s.replies ++ [.value (s.core.readIndex i)] }) ∧
    (∀ b, s.script = .bufRead b :: rest → step s = .next
      { core := s.core, script := rest, replies := s.replies ++ [.content s.core.bufs[b]] }) ∧
    (∀ i w, 8 ≤ i → i ≤ 15 → s.script = .csrWrite i w :: rest →
      ∃ t, step s = .next t ∧ t.core.readIndex i = w ∧ t.core.fault = some r) ∧
    (∀ w, s.script = .csrWrite 2 w :: rest → ∃ t, step s = .next t ∧
      (w.getLsbD 1 = true → t.core = CoreState.reset) ∧
      (w.getLsbD 1 = false → w.getLsbD 0 = true → t.core = { s.core with fault := none }) ∧
      (w.getLsbD 1 = false → w.getLsbD 0 = false → t.core = s.core)) ∧
    (∀ b d, hostWriteProblem d = none → s.script = .bufWrite b d :: rest →
      ∃ t, step s = .next t ∧ t.core.bufs[b] = d ∧ t.core.fault = some r)

/-- R207. After a fault the state of CORE is the state before the command plus the record: `FAULT` set, `CAUSE` the code of
the cause, `FCMD` the command word. -/
def Obligations.FaultIsPrecise : Prop :=
  ∀ (s t : State) (w : Word) (rest : List HostEvent) (r : FaultRecord), s.core.fault = none →
    s.script = .csrWrite 0 w :: rest → step s = .next t → t.core.fault = some r →
    r.fcmd = w ∧
    t = { core := { s.core with fault := some r }, script := rest, replies := s.replies ++ [.completed] } ∧
    slice (t.core.readIndex 1) 0 0 = 1 ∧ slice (t.core.readIndex 1) 15 8 = r.cause.code ∧
    t.core.readIndex 4 = w ∧ t.core.readIndex 5 = r.finfo

/-- R33, R206. `CSEQ` counts the commands that complete normally, modulo 2^32, and nothing else but reset changes it. -/
def Obligations.CseqCountsCompletions : Prop :=
  ∀ (s t : State) (e : HostEvent) (rest : List HostEvent), s.script = e :: rest → step s = .next t →
    t.core.readIndex 3 = t.core.cseq ∧
    (∀ w, e = .csrWrite 0 w → s.core.fault = none → t.core.fault = none → t.core.cseq = s.core.cseq + 1) ∧
    (∀ w, e = .csrWrite 0 w → s.core.fault ≠ none → t.core.cseq = s.core.cseq) ∧
    (∀ w, e = .csrWrite 0 w → t.core.fault ≠ none → t.core.cseq = s.core.cseq) ∧
    (∀ i w, e = .csrWrite i w → i ≠ 0 → (i = 2 → w.getLsbD 1 = false) → t.core.cseq = s.core.cseq) ∧
    (∀ i, e = .csrRead i → t.core.cseq = s.core.cseq) ∧
    (∀ b, e = .bufRead b → t.core.cseq = s.core.cseq) ∧
    (∀ b d, e = .bufWrite b d → t.core.cseq = s.core.cseq) ∧
    ((e = .resetInput ∨ ∃ w, e = .csrWrite 2 w ∧ w.getLsbD 1 = true) → t.core.cseq = 0)

/-- R200, R219. Every command ends in a next state of CORE, whatever the state; the script and the replies are not its
affair. -/
def Obligations.EveryCommandTerminates : Prop :=
  ∀ (i : Instr) (s : State), ∃ c, exec i s = .next { s with core := c }

/-- R219. A host script of transactions runs to its end, one step and one reply an event.
The replies are the model's (log entry 11), as are the script (entry 9) and the reset input among its
events (entry 12); that a refused write completes is log entry 19. -/
def Obligations.ScriptsRunToTheirEnd : Prop :=
  ∀ s : State, (∀ e ∈ s.script, e.wellFormed = true) →
    ∃ t, runScript s = .next t ∧ t.ended ∧ t.replies.length = s.replies.length + s.script.length

/-- R204. A command records only a cause its column of the table allows. -/
def Obligations.FaultTable : Prop :=
  ∀ (i : Instr) (s t : State) (r : FaultRecord), s.core.fault = none → exec i s = .next t → t.core.fault = some r →
    r.cause ∈ mayRaise i

/-! ## Frames -/

/-- R100, R104, R108, R69. `NOP`, `CBUILD` and `FBUILD` leave every buffer, every staging register, `SYNCOFF` and `SVALID`,
and each latched half but the one they build. -/
def Obligations.FrameOfConfigurationCommands : Prop :=
  ∀ (i : Instr) (s t : State), (i = .nop ∨ i = .cbuild ∨ i = .fbuild) → exec i s = .next t →
    (∀ b : BufIdx, t.core.bufs[b] = s.core.bufs[b]) ∧ t.core.staging = s.core.staging ∧
    t.core.syncoff = s.core.syncoff ∧ t.core.svalid = s.core.svalid ∧
    (i ≠ .cbuild → t.core.constel = s.core.constel) ∧ (i ≠ .fbuild → t.core.frame = s.core.frame) ∧
    (t.core.fault = s.core.fault ∨ (t.core.constel = s.core.constel ∧ t.core.frame = s.core.frame ∧
      t.core.cseq = s.core.cseq)) ∧
    t.script = s.script ∧ t.replies = s.replies

/-- R23, R69. `QMOD`, `QDEM`, `OFTX`, `OFRX`, `CHEST` and `EQ` leave every buffer but `rd`, every staging register, both
latched halves, `SYNCOFF` and `SVALID`; what they record as a fault leaves `rd` and `CSEQ` too. -/
def Obligations.FrameOfBufferCommands : Prop :=
  ∀ (i : Instr) (rd rs1 rs2 : BufIdx) (s t : State),
    (i = .qmod rd rs1 ∨ i = .qdem rd rs1 ∨ i = .oftx rd rs1 ∨ i = .ofrx rd rs1 ∨ i = .chest rd rs1 ∨ i = .eq rd rs1 rs2) →
    exec i s = .next t →
    (∀ b : BufIdx, b ≠ rd → t.core.bufs[b] = s.core.bufs[b]) ∧ t.core.staging = s.core.staging ∧
    t.core.constel = s.core.constel ∧ t.core.frame = s.core.frame ∧
    t.core.syncoff = s.core.syncoff ∧ t.core.svalid = s.core.svalid ∧
    (t.core.fault = s.core.fault ∨ (t.core.bufs[rd] = s.core.bufs[rd] ∧ t.core.cseq = s.core.cseq)) ∧
    t.script = s.script ∧ t.replies = s.replies

/-- R23, R69, R184. `XCORR` leaves every buffer but `rd`, every staging register and both latched halves; on a fault it
leaves `rd`, `SYNCOFF`, `SVALID` and `CSEQ` too. -/
def Obligations.FrameOfXcorr : Prop :=
  ∀ (rd rs1 rs2 rs3 : BufIdx) (s t : State), exec (.xcorr rd rs1 rs2 rs3) s = .next t →
    (∀ b : BufIdx, b ≠ rd → t.core.bufs[b] = s.core.bufs[b]) ∧ t.core.staging = s.core.staging ∧
    t.core.constel = s.core.constel ∧ t.core.frame = s.core.frame ∧
    (t.core.fault = s.core.fault ∨ (t.core.bufs[rd] = s.core.bufs[rd] ∧ t.core.syncoff = s.core.syncoff ∧
      t.core.svalid = s.core.svalid ∧ t.core.cseq = s.core.cseq)) ∧
    t.script = s.script ∧ t.replies = s.replies

/-- R36. A command's effect does not depend on a staging register it does not read. -/
def Obligations.CommandsReadOnlyTheirStagingRegisters : Prop :=
  ∀ (i : Instr) (s t : State) (g : Staging), sameStagingFor i s.core.staging g → exec i s = .next t →
    exec i { s with core := { s.core with staging := g } } = .next { t with core := { t.core with staging := g } }

/-! ## NOP, CBUILD, FBUILD -/

/-- R100. `NOP`: `CSEQ` advances and nothing else changes; it is refused while a fault is recorded; any bit of 31:8 makes
the word illegal. -/
def Obligations.NopCommand : Prop :=
  (∀ s : State, s.core.fault = none →
    exec .nop s = .next { s with core := { s.core with cseq := s.core.cseq + 1 } }) ∧
  (∀ s : State, s.core.fault ≠ none → exec .nop s = .next s) ∧
  encode .nop = 0x00000000#32 ∧
  ∀ w : Word, slice w 7 0 = 0 → slice w 31 8 ≠ 0 → ∀ i, decode w ≠ .ok i

/-- R104. `CBUILD` latches `ORDER` when it is a power of two of at least 2 within `ORDER_MAX`, after which `AORDER` reads the
order, `ABPS` its logarithm and `STATUS` bit 1 is set; otherwise it faults.
The tables are computed on use: log entry 14. -/
def Obligations.CbuildCommand : Prop :=
  ∀ s : State, s.core.fault = none →
    encode .cbuild = 0x00000001#32 ∧
    (∀ k, 1 ≤ k → s.core.staging.order.toNat = 2 ^ k → (k ≤ 6 ∨ Config.fitsOrder (2 ^ k) = true) →
      exec .cbuild s = .next (s.completed { s.core with constel := some ⟨s.core.staging.order⟩ }) ∧
      CoreState.readIndex { s.core with constel := some ⟨s.core.staging.order⟩ } 16 = BitVec.ofNat 32 (2 ^ k) ∧
      CoreState.readIndex { s.core with constel := some ⟨s.core.staging.order⟩ } 17 = BitVec.ofNat 32 k ∧
      (CoreState.readIndex { s.core with constel := some ⟨s.core.staging.order⟩ } 1).getLsbD 1 = true) ∧
    ((s.core.staging.order.toNat < 2 ∨ ∀ k, s.core.staging.order.toNat ≠ 2 ^ k) →
      exec .cbuild s = .next (s.faulted (encode .cbuild) .invalidOrder s.core.staging.order)) ∧
    (∀ k, 1 ≤ k → s.core.staging.order.toNat = 2 ^ k → Config.fitsOrder (2 ^ k) = false →
      exec .cbuild s = .next (s.faulted (encode .cbuild) .capacityExceeded s.core.staging.order))

/-- R108. `FBUILD` latches `NSC`, `NG` and `GTYPE`, after which `ANSC`, `ANG` and `AGTYPE` read them and `STATUS` bit 2 is
set; the first of its three checks that fails gives the fault. -/
def Obligations.FbuildCommand : Prop :=
  ∀ s : State, s.core.fault = none →
    encode .fbuild = 0x00000002#32 ∧
    (s.core.staging.nsc.toNat ≠ 0 → s.core.staging.gtype.toNat ≤ 2 →
      (s.core.staging.gtype.toNat = 0 ∨ s.core.staging.ng.toNat ≤ s.core.staging.nsc.toNat) →
      ∃ f : Frame, exec .fbuild s = .next (s.completed { s.core with frame := some f }) ∧
        f.nsc = s.core.staging.nsc ∧ f.ng = s.core.staging.ng ∧
        (s.core.staging.gtype = 0 → f.gtype = .zeroPad) ∧ (s.core.staging.gtype = 1 → f.gtype = .cyclicPrefix) ∧
        (s.core.staging.gtype = 2 → f.gtype = .cyclicSuffix) ∧
        CoreState.readIndex { s.core with frame := some f } 18 = s.core.staging.nsc ∧
        CoreState.readIndex { s.core with frame := some f } 19 = s.core.staging.ng ∧
        CoreState.readIndex { s.core with frame := some f } 20 = s.core.staging.gtype ∧
        (CoreState.readIndex { s.core with frame := some f } 1).getLsbD 2 = true) ∧
    (s.core.staging.nsc.toNat = 0 → exec .fbuild s = .next (s.faulted (encode .fbuild) .invalidParameter 9)) ∧
    (s.core.staging.nsc.toNat ≠ 0 → 2 < s.core.staging.gtype.toNat →
      exec .fbuild s = .next (s.faulted (encode .fbuild) .invalidParameter 11)) ∧
    (s.core.staging.nsc.toNat ≠ 0 → (s.core.staging.gtype.toNat = 1 ∨ s.core.staging.gtype.toNat = 2) →
      s.core.staging.nsc.toNat < s.core.staging.ng.toNat →
      exec .fbuild s = .next (s.faulted (encode .fbuild) .invalidParameter 10))

/-! ## The constellation -/

/-- R46, R48, with the inferences the spec marks there. The grid of the order `2^k`: its dimensions, and the value grid as
the inverse of the table. -/
def Obligations.ConstellationGrid : Prop :=
  ∀ k, 1 ≤ k →
    bpsOf (2 ^ k) = k ∧ yTicks (2 ^ k) = 2 ^ (k / 2) ∧ xTicks (2 ^ k) = 2 ^ ((k + 1) / 2) ∧
    xTicks (2 ^ k) * yTicks (2 ^ k) = 2 ^ k ∧ 2 ≤ xTicks (2 ^ k) ∧ (yTicks (2 ^ k) = 1 ↔ k = 1) ∧
    ∀ r c, r < yTicks (2 ^ k) → c < xTicks (2 ^ k) →
      gridValue (2 ^ k) r c = r * xTicks (2 ^ k) + c ∧ gridValue (2 ^ k) r c < 2 ^ k ∧
      (point (2 ^ k) (gridValue (2 ^ k) r c)).value
        = (axisCoord (xTicks (2 ^ k)) c : ℂ) + (axisCoord (yTicks (2 ^ k)) r : ℂ) * Complex.I

/-- R47. The points of the order `2^k`: evenly spaced ascending coordinates from -1 to 1 (0 alone on a single row), the
real axis fastest, and one point for each value. -/
def Obligations.ConstellationPoints : Prop :=
  ∀ k, 1 ≤ k →
    (∀ v, v < 2 ^ k → (point (2 ^ k) v).value = symbolPoint k v) ∧
    (∀ u v, u < 2 ^ k → v < 2 ^ k → point (2 ^ k) u = point (2 ^ k) v → u = v) ∧
    (∀ n i j, 2 ≤ n → i < j → j < n → axisCoord n i < axisCoord n j) ∧
    (∀ n, 2 ≤ n → axisCoord n 0 = -1 ∧ axisCoord n (n - 1) = 1) ∧ axisCoord 1 0 = 0 ∧
    (point 2 0).value = -1 ∧ (point 2 1).value = 1

/-- R49, with the closed form the spec derives. The borders of an axis with n ticks: minus infinity, then the midpoints,
ascending. -/
def Obligations.DecisionBorders : Prop :=
  ∀ n, 1 ≤ n →
    (borders n).length = n ∧ (borders n)[0]? = some none ∧
    ∀ k, 1 ≤ k → k < n → ∃ q : ℚ, (borders n)[k]? = some (some q) ∧ (q : ℝ) = axisBorder n k ∧
      axisBorder n k = -1 + (2 * (k : ℝ) - 1) / ((n : ℝ) - 1) ∧
      axisCoord n (k - 1) < axisBorder n k ∧ axisBorder n k < axisCoord n k

/-- R125. The floor search on an axis of n ticks answers the greatest k whose border is at most the real number x; that is
the number of borders from 1 on that are at most x; 0 on a single tick. -/
def Obligations.FloorSearch : Prop :=
  ∀ (n : ℕ) (z : Cx) (x : ℝ), 1 ≤ n → z.canonical = true → z.value = (x : ℂ) →
    IsGreatest {k | k < n ∧ (k = 0 ∨ axisBorder n k ≤ x)} (region (borders n) z) ∧
    region (borders n) z = bordersBelow n x ∧ (n = 1 → region (borders n) z = 0)

/-- The spec's inference (5) in R126. The value decided for a symbol is that of the nearest point, a tie going to the
greater coordinate. -/
def Obligations.DecisionIsNearestPoint : Prop :=
  ∀ (k : ℕ) (z : Cx), 1 ≤ k → z.canonical = true →
    decideValue (2 ^ k) z < 2 ^ k ∧ decideValue (2 ^ k) z = decided k z.value ∧
    ∀ u, u < 2 ^ k →
      ‖z.value - symbolPoint k (decideValue (2 ^ k) z)‖ ≤ ‖z.value - symbolPoint k u‖ ∧
      (‖z.value - symbolPoint k (decideValue (2 ^ k) z)‖ = ‖z.value - symbolPoint k u‖ →
        u % columnsOf k ≤ decideValue (2 ^ k) z % columnsOf k ∧
        u / columnsOf k ≤ decideValue (2 ^ k) z / columnsOf k)

/-! ## QMOD and QDEM -/

/-- R120, R205. `QMOD`: symbol i is the point of the value of group i; the faults in their order. -/
def Obligations.QmodCommand : Prop :=
  ∀ (rd rs1 : BufIdx) (s : State), s.core.fault = none →
    (encode (.qmod rd rs1)).toNat = 0x10 + rd.val * 0x100 + rs1.val * 0x800 ∧
    (∀ (o : Word) (k : ℕ) (b : List Bool), s.core.constel = some ⟨o⟩ → 1 ≤ k → o.toNat = 2 ^ k →
      s.core.bufs[rs1] = .bits b → b.length % k = 0 →
      ∃ zs, exec (.qmod rd rs1) s = .next (s.completed (s.core.writeBuf rd (.cplx zs))) ∧
        zs.length = b.length / k ∧ ∀ i, i < b.length / k → valueAt zs i = symbolPoint k (bitGroup k b i)) ∧
    (s.core.constel = none →
      exec (.qmod rd rs1) s = .next (s.faulted (encode (.qmod rd rs1)) .notConfigured 1)) ∧
    (s.core.constel ≠ none → (∀ b, s.core.bufs[rs1] ≠ .bits b) →
      exec (.qmod rd rs1) s = .next (s.faulted (encode (.qmod rd rs1)) .badOperand 1)) ∧
    (∀ (o : Word) (k : ℕ) (b : List Bool), s.core.constel = some ⟨o⟩ → 1 ≤ k → o.toNat = 2 ^ k →
      s.core.bufs[rs1] = .bits b → b.length % k ≠ 0 →
      exec (.qmod rd rs1) s
        = .next (s.faulted (encode (.qmod rd rs1)) .misalignedBitLength (BitVec.ofNat 32 b.length)))

/-- R124, R205. `QDEM`: the bits of symbol i are those of the value decided for it, the least significant first; the faults
in their order. -/
def Obligations.QdemCommand : Prop :=
  ∀ (rd rs1 : BufIdx) (s : State), s.core.fault = none →
    (encode (.qdem rd rs1)).toNat = 0x11 + rd.val * 0x100 + rs1.val * 0x800 ∧
    (∀ (o : Word) (k : ℕ) (z : List Cx), s.core.constel = some ⟨o⟩ → 1 ≤ k → o.toNat = 2 ^ k →
      s.core.bufs[rs1] = .cplx z → (∀ x ∈ z, x.canonical = true) →
      (z.length * k ≤ 64 ∨ Config.fitsCap (z.length * k) = true) →
      ∃ out, exec (.qdem rd rs1) s = .next (s.completed (s.core.writeBuf rd (.bits out))) ∧
        out.length = z.length * k ∧
        ∀ i j, i < z.length → j < k → out.getD (i * k + j) false = decide (decided k (valueAt z i) / 2 ^ j % 2 = 1)) ∧
    (s.core.constel = none →
      exec (.qdem rd rs1) s = .next (s.faulted (encode (.qdem rd rs1)) .notConfigured 1)) ∧
    (s.core.constel ≠ none → (∀ z, s.core.bufs[rs1] ≠ .cplx z) →
      exec (.qdem rd rs1) s = .next (s.faulted (encode (.qdem rd rs1)) .badOperand 1)) ∧
    (∀ (o : Word) (k : ℕ) (z : List Cx), s.core.constel = some ⟨o⟩ → 1 ≤ k → o.toNat = 2 ^ k →
      s.core.bufs[rs1] = .cplx z → Config.fitsCap (z.length * k) = false →
      exec (.qdem rd rs1) s
        = .next (s.faulted (encode (.qdem rd rs1)) .capacityExceeded (BitVec.ofNat 32 (z.length * k))))

/-- The spec's inference R129. `QDEM` of the result of `QMOD` gives the bits back, for every latched order and every
aligned bit sequence. -/
def Obligations.QamRoundTrip : Prop :=
  ∀ (ra rb rs1 : BufIdx) (s : State) (o : Word) (k : ℕ) (b : List Bool), s.core.fault = none →
    s.core.constel = some ⟨o⟩ → 1 ≤ k → o.toNat = 2 ^ k → s.core.bufs[rs1] = .bits b → b.length % k = 0 →
    (b.length ≤ 64 ∨ Config.fitsCap b.length = true) →
    ∃ t u, exec (.qmod ra rs1) s = .next t ∧ exec (.qdem rb ra) t = .next u ∧
      u.core.bufs[rb] = .bits b ∧ u.core.fault = none

/-! ## OFTX and OFRX -/

/-- R141. The inverse transform of a block. -/
def Obligations.InverseTransform : Prop :=
  ∀ (size : ℕ) (xs : List Cx), (idft size xs).length = size ∧
    ∀ n, n < size → valueAt (idft size xs) n = inverseTransform size (valueAt xs) n

/-- R142 without its inferences. The forward transform of a block. -/
def Obligations.ForwardTransform : Prop :=
  ∀ (size : ℕ) (xs : List Cx), (dft size xs).length = size ∧
    ∀ k, k < size → valueAt (dft size xs) k = forwardTransform size (valueAt xs) k

/-- The spec's inference in R142. The two transforms invert each other exactly, as data, on every block of numbers.
Equality as data is the model's: log entries 1 and 3. -/
def Obligations.TransformsInvertEachOther : Prop :=
  ∀ (size : ℕ) (xs : List Cx), 1 ≤ size → xs.length = size → (∀ x ∈ xs, x.canonical = true) →
    dft size (idft size xs) = xs ∧ idft size (dft size xs) = xs

/-- R145. Guard insertion: the frame has T samples, the three types put the guard where they say, and a guard of length 0
adds nothing. -/
def Obligations.GuardInsertion : Prop :=
  ∀ (f : Frame) (x : List Cx), x.length = f.nsc.toNat → (f.gtype ≠ .zeroPad → f.ng.toNat ≤ f.nsc.toNat) →
    (guardInsert f x).length = f.nsc.toNat + f.ng.toNat ∧
    (∀ n, n < f.nsc.toNat + f.ng.toNat →
      valueAt (guardInsert f x) n = frameSample f.gtype f.nsc.toNat f.ng.toNat (valueAt x) n) ∧
    (f.ng = 0 → guardInsert f x = x)

/-- R149, with the inference the spec marks there. Guard removal takes off what insertion put on, and keeps the N samples
that stand where the type says. -/
def Obligations.GuardRemoval : Prop :=
  ∀ (f : Frame), (f.gtype ≠ .zeroPad → f.ng.toNat ≤ f.nsc.toNat) →
    (∀ x : List Cx, x.length = f.nsc.toNat → guardRemove f (guardInsert f x) = x) ∧
    (∀ y : List Cx, y.length = f.nsc.toNat + f.ng.toNat → (guardRemove f y).length = f.nsc.toNat ∧
      ∀ n, n < f.nsc.toNat → elemAt (guardRemove f y) n = elemAt y (guardBefore f.gtype f.ng.toNat + n))

/-- R144, R205. `OFTX`: each block of N symbols becomes a frame of T samples; the faults in their order. -/
def Obligations.OftxCommand : Prop :=
  ∀ (rd rs1 : BufIdx) (s : State), s.core.fault = none →
    (encode (.oftx rd rs1)).toNat = 0x20 + rd.val * 0x100 + rs1.val * 0x800 ∧
    (∀ (f : Frame) (xs : List Cx), s.core.frame = some f → f.nsc.toNat ≠ 0 →
      (f.gtype ≠ .zeroPad → f.ng.toNat ≤ f.nsc.toNat) → s.core.bufs[rs1] = .cplx xs → xs.length % f.nsc.toNat = 0 →
      (xs.length / f.nsc.toNat * (f.nsc.toNat + f.ng.toNat) ≤ 64 ∨
        Config.fitsCap (xs.length / f.nsc.toNat * (f.nsc.toNat + f.ng.toNat)) = true) →
      ∃ ys, exec (.oftx rd rs1) s = .next (s.completed (s.core.writeBuf rd (.cplx ys))) ∧
        ys.length = xs.length / f.nsc.toNat * (f.nsc.toNat + f.ng.toNat) ∧
        ∀ q n, q < xs.length / f.nsc.toNat → n < f.nsc.toNat + f.ng.toNat →
          valueAt ys (q * (f.nsc.toNat + f.ng.toNat) + n)
            = frameSample f.gtype f.nsc.toNat f.ng.toNat
                (inverseTransform f.nsc.toNat fun k => valueAt xs (q * f.nsc.toNat + k)) n) ∧
    (s.core.frame = none →
      exec (.oftx rd rs1) s = .next (s.faulted (encode (.oftx rd rs1)) .notConfigured 2)) ∧
    (s.core.frame ≠ none → (∀ xs, s.core.bufs[rs1] ≠ .cplx xs) →
      exec (.oftx rd rs1) s = .next (s.faulted (encode (.oftx rd rs1)) .badOperand 1)) ∧
    (∀ (f : Frame) (xs : List Cx), s.core.frame = some f → s.core.bufs[rs1] = .cplx xs →
      xs.length % f.nsc.toNat ≠ 0 →
      exec (.oftx rd rs1) s
        = .next (s.faulted (encode (.oftx rd rs1)) .misalignedSymbolLength (BitVec.ofNat 32 xs.length))) ∧
    (∀ (f : Frame) (xs : List Cx), s.core.frame = some f → s.core.bufs[rs1] = .cplx xs →
      xs.length % f.nsc.toNat = 0 →
      Config.fitsCap (xs.length / f.nsc.toNat * (f.nsc.toNat + f.ng.toNat)) = false →
      exec (.oftx rd rs1) s
        = .next (s.faulted (encode (.oftx rd rs1)) .capacityExceeded
            (BitVec.ofNat 32 (xs.length / f.nsc.toNat * (f.nsc.toNat + f.ng.toNat)))))

/-- R148, R205. `OFRX`: each whole block of T samples gives N bins, a trailing partial block is left out; the faults in
their order. -/
def Obligations.OfrxCommand : Prop :=
  ∀ (rd rs1 : BufIdx) (s : State), s.core.fault = none →
    (encode (.ofrx rd rs1)).toNat = 0x21 + rd.val * 0x100 + rs1.val * 0x800 ∧
    (∀ (f : Frame) (y : List Cx), s.core.frame = some f → f.nsc.toNat ≠ 0 → s.core.bufs[rs1] = .cplx y →
      ∃ ys, exec (.ofrx rd rs1) s = .next (s.completed (s.core.writeBuf rd (.cplx ys))) ∧
        ys.length = y.length / (f.nsc.toNat + f.ng.toNat) * f.nsc.toNat ∧
        ∀ q k, q < y.length / (f.nsc.toNat + f.ng.toNat) → k < f.nsc.toNat →
          valueAt ys (q * f.nsc.toNat + k)
            = forwardTransform f.nsc.toNat
                (fun n => valueAt y (q * (f.nsc.toNat + f.ng.toNat) + (guardBefore f.gtype f.ng.toNat + n))) k) ∧
    (s.core.frame = none →
      exec (.ofrx rd rs1) s = .next (s.faulted (encode (.ofrx rd rs1)) .notConfigured 2)) ∧
    (s.core.frame ≠ none → (∀ y, s.core.bufs[rs1] ≠ .cplx y) →
      exec (.ofrx rd rs1) s = .next (s.faulted (encode (.ofrx rd rs1)) .badOperand 1))

/-- The spec's inference R151. `OFRX` of the result of `OFTX` gives the symbols back exactly, for every latched frame.
Equality as data is the model's: log entries 1 and 3. -/
def Obligations.OfdmRoundTrip : Prop :=
  ∀ (ra rb rs1 : BufIdx) (s : State) (f : Frame) (xs : List Cx), s.core.fault = none → s.core.frame = some f →
    f.nsc.toNat ≠ 0 → (f.gtype ≠ .zeroPad → f.ng.toNat ≤ f.nsc.toNat) → s.core.bufs[rs1] = .cplx xs →
    (∀ x ∈ xs, x.canonical = true) → xs.length % f.nsc.toNat = 0 →
    (xs.length / f.nsc.toNat * (f.nsc.toNat + f.ng.toNat) ≤ 64 ∨
      Config.fitsCap (xs.length / f.nsc.toNat * (f.nsc.toNat + f.ng.toNat)) = true) →
    ∃ t u, exec (.oftx ra rs1) s = .next t ∧ exec (.ofrx rb ra) t = .next u ∧
      u.core.bufs[rb] = .cplx xs ∧ u.core.fault = none

/-! ## CHEST, EQ and RXCHAIN -/

/-- R160, R205. `CHEST`: unit gain, one a tone or one alone; the faults in their order. -/
def Obligations.ChestCommand : Prop :=
  ∀ (rd rs1 : BufIdx) (s : State), s.core.fault = none →
    (encode (.chest rd rs1)).toNat = 0x30 + rd.val * 0x100 + rs1.val * 0x800 ∧
    (∀ (d : List Cx) (f : Frame), s.core.bufs[rs1] = .cplx d → s.core.staging.estsel = 0 → s.core.frame = some f →
      (f.nsc.toNat ≤ 64 ∨ Config.fitsCap f.nsc.toNat = true) →
      ∃ g, exec (.chest rd rs1) s = .next (s.completed (s.core.writeBuf rd (.cplx g))) ∧
        g.length = f.nsc.toNat ∧ ∀ k, k < f.nsc.toNat → valueAt g k = 1) ∧
    (∀ d : List Cx, s.core.bufs[rs1] = .cplx d → s.core.staging.estsel = 1 →
      ∃ x : Cx, exec (.chest rd rs1) s = .next (s.completed (s.core.writeBuf rd (.cplx [x]))) ∧ x.value = 1) ∧
    ((∀ d, s.core.bufs[rs1] ≠ .cplx d) →
      exec (.chest rd rs1) s = .next (s.faulted (encode (.chest rd rs1)) .badOperand 1)) ∧
    (∀ d : List Cx, s.core.bufs[rs1] = .cplx d → 1 < s.core.staging.estsel.toNat →
      exec (.chest rd rs1) s = .next (s.faulted (encode (.chest rd rs1)) .invalidParameter 12)) ∧
    (∀ d : List Cx, s.core.bufs[rs1] = .cplx d → s.core.staging.estsel = 0 → s.core.frame = none →
      exec (.chest rd rs1) s = .next (s.faulted (encode (.chest rd rs1)) .notConfigured 2)) ∧
    (∀ (d : List Cx) (f : Frame), s.core.bufs[rs1] = .cplx d → s.core.staging.estsel = 0 → s.core.frame = some f →
      Config.fitsCap f.nsc.toNat = false →
      exec (.chest rd rs1) s = .next (s.faulted (encode (.chest rd rs1)) .capacityExceeded f.nsc))

/-- R164, R205. `EQ`: each symbol divided by the gain of its tone, a gain of one element serving all; the faults in their
order. -/
def Obligations.EqCommand : Prop :=
  ∀ (rd rs1 rs2 : BufIdx) (s : State), s.core.fault = none →
    (encode (.eq rd rs1 rs2)).toNat = 0x31 + rd.val * 0x100 + rs1.val * 0x800 + rs2.val * 0x4000 ∧
    (∀ (z : List Cx) (h : Cx), s.core.bufs[rs1] = .cplx z → s.core.bufs[rs2] = .cplx [h] → (z = [] ∨ h ≠ Cx.zero) →
      ∃ ys, exec (.eq rd rs1 rs2) s = .next (s.completed (s.core.writeBuf rd (.cplx ys))) ∧
        ys.length = z.length ∧ ∀ i, i < z.length → valueAt ys i = valueAt z i / h.value) ∧
    (∀ (z g : List Cx) (f : Frame), s.core.bufs[rs1] = .cplx z → s.core.bufs[rs2] = .cplx g → g.length ≠ 1 →
      s.core.frame = some f → g.length = f.nsc.toNat → z.length % f.nsc.toNat = 0 → (z = [] ∨ Cx.zero ∉ g) →
      ∃ ys, exec (.eq rd rs1 rs2) s = .next (s.completed (s.core.writeBuf rd (.cplx ys))) ∧
        ys.length = z.length ∧
        ∀ i, i < z.length → valueAt ys i = valueAt z i / valueAt g (i % f.nsc.toNat)) ∧
    ((∀ z, s.core.bufs[rs1] ≠ .cplx z) →
      exec (.eq rd rs1 rs2) s = .next (s.faulted (encode (.eq rd rs1 rs2)) .badOperand 1)) ∧
    (∀ z : List Cx, s.core.bufs[rs1] = .cplx z → (∀ g, s.core.bufs[rs2] ≠ .cplx g) →
      exec (.eq rd rs1 rs2) s = .next (s.faulted (encode (.eq rd rs1 rs2)) .badOperand 2)) ∧
    (∀ z g : List Cx, s.core.bufs[rs1] = .cplx z → s.core.bufs[rs2] = .cplx g → g.length ≠ 1 → s.core.frame = none →
      exec (.eq rd rs1 rs2) s = .next (s.faulted (encode (.eq rd rs1 rs2)) .notConfigured 2)) ∧
    (∀ (z g : List Cx) (f : Frame), s.core.bufs[rs1] = .cplx z → s.core.bufs[rs2] = .cplx g → g.length ≠ 1 →
      s.core.frame = some f → g.length ≠ f.nsc.toNat →
      exec (.eq rd rs1 rs2) s
        = .next (s.faulted (encode (.eq rd rs1 rs2)) .dimensionMismatch (BitVec.ofNat 32 g.length))) ∧
    (∀ (z g : List Cx) (f : Frame), s.core.bufs[rs1] = .cplx z → s.core.bufs[rs2] = .cplx g → g.length ≠ 1 →
      s.core.frame = some f → g.length = f.nsc.toNat → z.length % f.nsc.toNat ≠ 0 →
      exec (.eq rd rs1 rs2) s
        = .next (s.faulted (encode (.eq rd rs1 rs2)) .dimensionMismatch (BitVec.ofNat 32 z.length))) ∧
    (∀ (z g : List Cx) (k : ℕ), s.core.bufs[rs1] = .cplx z → s.core.bufs[rs2] = .cplx g →
      (g.length ≠ 1 → ∃ f, s.core.frame = some f ∧ g.length = f.nsc.toNat ∧ z.length % f.nsc.toNat = 0) →
      z ≠ [] → g[k]? = some Cx.zero → (∀ j, j < k → g[j]? ≠ some Cx.zero) →
      exec (.eq rd rs1 rs2) s
        = .next (s.faulted (encode (.eq rd rs1 rs2)) .divideByZero (BitVec.ofNat 32 k)))

/-- The inversion the spec marks as its inference in R166. `EQ` undoes a gain without a zero exactly, scalar or one a tone;
a unit gain leaves the symbols as they are.
Equality as data is the model's: log entries 1 and 3. -/
def Obligations.EqualizerInvertsGain : Prop :=
  ∀ (rd rs1 rs2 : BufIdx) (s : State) (xs g : List Cx) (n : ℕ), s.core.fault = none →
    (∀ x ∈ xs, x.canonical = true) → (∀ h ∈ g, h.canonical = true ∧ h ≠ Cx.zero) → g.length = n →
    (n = 1 ∨ ∃ f, s.core.frame = some f ∧ n = f.nsc.toNat ∧ n ≠ 0 ∧ xs.length % n = 0) →
    s.core.bufs[rs2] = .cplx g →
    (s.core.bufs[rs1] = .cplx ((List.range xs.length).map fun (i : ℕ) => Cx.mul (elemAt xs i) (elemAt g (i % n))) →
      exec (.eq rd rs1 rs2) s = .next (s.completed (s.core.writeBuf rd (.cplx xs)))) ∧
    (s.core.bufs[rs1] = .cplx xs → (∀ h ∈ g, h = Cx.one) →
      exec (.eq rd rs1 rs2) s = .next (s.completed (s.core.writeBuf rd (.cplx xs))))

/-- The spec's inference R169 and R168. `RXCHAIN`, run as its three commands, leaves in `rd` what `OFRX` alone would, and
`CSEQ` advances by three. -/
def Obligations.RxChainIsDeframing : Prop :=
  ∀ (rd rs1 rt1 rt2 : BufIdx) (s t : State) (f : Frame) (y : List Cx), s.core.fault = none → s.core.frame = some f →
    f.nsc.toNat ≠ 0 → s.core.bufs[rs1] = .cplx y → s.core.staging.estsel.toNat ≤ 1 →
    (f.nsc.toNat ≤ 64 ∨ Config.fitsCap f.nsc.toNat = true) → rt1 ≠ rt2 → exec (.ofrx rd rs1) s = .next t →
    ∃ u, runScript { s with script := scriptOf (rxChain rd rs1 rt1 rt2) } = .next u ∧
      u.core.bufs[rd] = t.core.bufs[rd] ∧ u.core.cseq = s.core.cseq + 3 ∧ u.core.fault = none

/-! ## XCORR -/

/-- R181. The correlation sequence. -/
def Obligations.CorrelationSequence : Prop :=
  ∀ rx ref : List Cx, 1 ≤ ref.length → ref.length ≤ rx.length →
    (correlation rx ref).length = rx.length + ref.length - 1 ∧
    ∀ k, k < rx.length + ref.length - 1 →
      valueAt (correlation rx ref) k = correlationValue (numbersOf rx) (numbersOf ref) k

/-- The spec's inference in R183. The output of the matched filter is the correlation sequence, index for index. -/
def Obligations.MatchedFilterIsCorrelation : Prop :=
  ∀ rx ref : List Cx, 1 ≤ ref.length → ref.length ≤ rx.length →
    ∀ k, k < rx.length + ref.length - 1 →
      valueAt (correlation rx ref) k = filterOutput (numbersOf rx) (numbersOf ref) k

/-- R187. `argmax_abs` is the least index in the window whose squared magnitude no other exceeds. -/
def Obligations.LeastGreatestMagnitude : Prop :=
  ∀ (c : List Cx) (width : ℕ), 1 ≤ width → width ≤ c.length → IsPeak (valueAt c) width (argmaxAbs c width)

/-- R184, R205. `XCORR` with either strategy: offset, gain and flag; the faults in their order.
Strategy 1 rests on log entry 17. -/
def Obligations.XcorrCommand : Prop :=
  ∀ (rd rs1 rs2 rs3 : BufIdx) (s : State), s.core.fault = none →
    (encode (.xcorr rd rs1 rs2 rs3)).toNat
      = 0x40 + rd.val * 0x100 + rs1.val * 0x800 + rs2.val * 0x4000 + rs3.val * 0x20000 ∧
    (∀ (rx ref : List Cx) (e : Cx) (k : ℕ), s.core.bufs[rs1] = .cplx rx → s.core.bufs[rs2] = .cplx ref →
      s.core.bufs[rs3] = .cplx [e] → s.core.staging.syncsel = 0 → ref.length ≠ 0 → ref.length ≤ rx.length →
      IsPeak (correlationValue (numbersOf rx) (numbersOf ref)) (rx.length + ref.length - 1) k →
      correlationValue (numbersOf rx) (numbersOf ref) k ≠ 0 →
      -(2 ^ 31) ≤ (k : ℤ) - (ref.length : ℤ) → (k : ℤ) - (ref.length : ℤ) ≤ 2 ^ 31 - 1 →
      ∃ x : Cx, exec (.xcorr rd rs1 rs2 rs3) s = .next (s.completed { s.core.writeBuf rd (.cplx [x]) with
          syncoff := BitVec.ofInt 32 ((k : ℤ) - (ref.length : ℤ)), svalid := true }) ∧
        x.value = e.value / correlationValue (numbersOf rx) (numbersOf ref) k) ∧
    (∀ (rx ref : List Cx) (e : Cx) (k : ℕ), s.core.bufs[rs1] = .cplx rx → s.core.bufs[rs2] = .cplx ref →
      s.core.bufs[rs3] = .cplx [e] → s.core.staging.syncsel = 1 → ref.length ≠ 0 → ref.length ≤ rx.length →
      s.core.staging.sflen.toNat ≠ 0 → s.core.staging.srows.toNat ≠ 0 →
      s.core.staging.srows.toNat * s.core.staging.sflen.toNat ≤ rx.length + ref.length - 1 →
      IsPeak (correlationValue (numbersOf rx) (numbersOf ref)) (s.core.staging.srows.toNat * s.core.staging.sflen.toNat) k →
      correlationValue (numbersOf rx) (numbersOf ref) k ≠ 0 → (k : ℤ) ≤ 2 ^ 31 - 1 →
      ∃ x : Cx, exec (.xcorr rd rs1 rs2 rs3) s = .next (s.completed { s.core.writeBuf rd (.cplx [x]) with
          syncoff := BitVec.ofInt 32 (k : ℤ), svalid := true }) ∧
        x.value = e.value / correlationValue (numbersOf rx) (numbersOf ref) k) ∧
    ((∀ z, s.core.bufs[rs1] ≠ .cplx z) →
      exec (.xcorr rd rs1 rs2 rs3) s = .next (s.faulted (encode (.xcorr rd rs1 rs2 rs3)) .badOperand 1)) ∧
    (∀ rx : List Cx, s.core.bufs[rs1] = .cplx rx → (∀ z, s.core.bufs[rs2] ≠ .cplx z) →
      exec (.xcorr rd rs1 rs2 rs3) s = .next (s.faulted (encode (.xcorr rd rs1 rs2 rs3)) .badOperand 2)) ∧
    (∀ rx ref : List Cx, s.core.bufs[rs1] = .cplx rx → s.core.bufs[rs2] = .cplx ref →
      (∀ z, s.core.bufs[rs3] ≠ .cplx z) →
      exec (.xcorr rd rs1 rs2 rs3) s = .next (s.faulted (encode (.xcorr rd rs1 rs2 rs3)) .badOperand 3)) ∧
    (∀ rx ref ev : List Cx, s.core.bufs[rs1] = .cplx rx → s.core.bufs[rs2] = .cplx ref → s.core.bufs[rs3] = .cplx ev →
      (1 < s.core.staging.syncsel.toNat →
        exec (.xcorr rd rs1 rs2 rs3) s = .next (s.faulted (encode (.xcorr rd rs1 rs2 rs3)) .invalidParameter 13)) ∧
      (s.core.staging.syncsel.toNat ≤ 1 → ev.length ≠ 1 →
        exec (.xcorr rd rs1 rs2 rs3) s = .next (s.faulted (encode (.xcorr rd rs1 rs2 rs3)) .badOperand 3)) ∧
      (s.core.staging.syncsel.toNat ≤ 1 → ev.length = 1 → ref.length = 0 →
        exec (.xcorr rd rs1 rs2 rs3) s = .next (s.faulted (encode (.xcorr rd rs1 rs2 rs3)) .badOperand 2)) ∧
      (s.core.staging.syncsel.toNat ≤ 1 → ev.length = 1 → ref.length ≠ 0 → rx.length < ref.length →
        exec (.xcorr rd rs1 rs2 rs3) s
          = .next (s.faulted (encode (.xcorr rd rs1 rs2 rs3)) .insufficientSamples (BitVec.ofNat 32 rx.length))) ∧
      (s.core.staging.syncsel = 1 → ev.length = 1 → ref.length ≠ 0 → ref.length ≤ rx.length →
        s.core.staging.sflen = 0 →
        exec (.xcorr rd rs1 rs2 rs3) s = .next (s.faulted (encode (.xcorr rd rs1 rs2 rs3)) .invalidParameter 14)) ∧
      (s.core.staging.syncsel = 1 → ev.length = 1 → ref.length ≠ 0 → ref.length ≤ rx.length →
        s.core.staging.sflen ≠ 0 → (s.core.staging.srows = 0 ∨
          rx.length + ref.length - 1 < s.core.staging.srows.toNat * s.core.staging.sflen.toNat) →
        exec (.xcorr rd rs1 rs2 rs3) s = .next (s.faulted (encode (.xcorr rd rs1 rs2 rs3)) .invalidParameter 15)) ∧
      (∀ k off : ℕ, ev.length = 1 → ref.length ≠ 0 → ref.length ≤ rx.length →
        ((s.core.staging.syncsel = 0 ∧ off = ref.length ∧
            IsPeak (correlationValue (numbersOf rx) (numbersOf ref)) (rx.length + ref.length - 1) k) ∨
          (s.core.staging.syncsel = 1 ∧ off = 0 ∧ s.core.staging.sflen ≠ 0 ∧ s.core.staging.srows ≠ 0 ∧
            s.core.staging.srows.toNat * s.core.staging.sflen.toNat ≤ rx.length + ref.length - 1 ∧
            IsPeak (correlationValue (numbersOf rx) (numbersOf ref))
              (s.core.staging.srows.toNat * s.core.staging.sflen.toNat) k)) →
        (((k : ℤ) - (off : ℤ) < -(2 ^ 31) ∨ 2 ^ 31 - 1 < (k : ℤ) - (off : ℤ)) →
          exec (.xcorr rd rs1 rs2 rs3) s
            = .next (s.faulted (encode (.xcorr rd rs1 rs2 rs3)) .capacityExceeded (BitVec.ofNat 32 k))) ∧
        (-(2 ^ 31) ≤ (k : ℤ) - (off : ℤ) → (k : ℤ) - (off : ℤ) ≤ 2 ^ 31 - 1 →
          correlationValue (numbersOf rx) (numbersOf ref) k = 0 →
          exec (.xcorr rd rs1 rs2 rs3) s
            = .next (s.faulted (encode (.xcorr rd rs1 rs2 rs3)) .divideByZero (BitVec.ofNat 32 k)))))

/-- The spec's inferences in R182, R185, R186, R190 and R192. A clean preamble that starts at sample o is reported at
`o - 1` by strategy 0 and at `o + M - 1` by strategy 1, whatever the energy operand is; the gain is the energy operand over
the channel factor times the energy of the reference, which is the reciprocal of the channel factor when the operand is that
energy. -/
def Obligations.CleanPreamble : Prop :=
  ∀ (rd rs1 rs2 rs3 : BufIdx) (s : State) (o tail : ℕ) (a e : Cx) (ref : List Cx), s.core.fault = none →
    s.core.bufs[rs1] = .cplx (List.replicate o Cx.zero ++ ref.map (Cx.mul a) ++ List.replicate tail Cx.zero) →
    s.core.bufs[rs2] = .cplx ref → s.core.bufs[rs3] = .cplx [e] →
    a.value ≠ 0 → (∃ x ∈ ref, x.value ≠ 0) →
    ∀ energy : ℂ, energy = ((∑ m ∈ Finset.range ref.length, Complex.normSq (valueAt ref m) : ℝ) : ℂ) →
    (s.core.staging.syncsel = 0 → o ≤ 2 ^ 31 →
      ∃ t : State, exec (.xcorr rd rs1 rs2 rs3) s = .next t ∧ t.core.fault = none ∧
        t.core.syncoff = BitVec.ofInt 32 ((o : ℤ) - 1) ∧ t.core.svalid = true ∧
        ∃ x : Cx, t.core.bufs[rd] = .cplx [x] ∧ x.value = e.value / (a.value * energy) ∧
          (e.value = energy → x.value = 1 / a.value)) ∧
    (s.core.staging.syncsel = 1 → o + ref.length ≤ 2 ^ 31 → s.core.staging.sflen ≠ 0 → s.core.staging.srows ≠ 0 →
      s.core.staging.srows.toNat * s.core.staging.sflen.toNat ≤ o + ref.length + tail + ref.length - 1 →
      o + ref.length - 1 < s.core.staging.srows.toNat * s.core.staging.sflen.toNat →
      ∃ t : State, exec (.xcorr rd rs1 rs2 rs3) s = .next t ∧ t.core.fault = none ∧
        t.core.syncoff = BitVec.ofInt 32 ((o : ℤ) + (ref.length : ℤ) - 1) ∧ t.core.svalid = true ∧
        ∃ x : Cx, t.core.bufs[rd] = .cplx [x] ∧ x.value = e.value / (a.value * energy) ∧
          (e.value = energy → x.value = 1 / a.value))

/-! ## Registers and buffers -/

/-- R34, R203. The fields of `STATUS`: the four flags, the code of each cause, and zeros. -/
def Obligations.StatusWordFields : Prop :=
  ∀ c : CoreState,
    (c.readIndex 1).getLsbD 0 = c.fault.isSome ∧ (c.readIndex 1).getLsbD 1 = c.constel.isSome ∧
    (c.readIndex 1).getLsbD 2 = c.frame.isSome ∧ (c.readIndex 1).getLsbD 3 = c.svalid ∧
    slice (c.readIndex 1) 7 4 = 0 ∧ slice (c.readIndex 1) 31 16 = 0 ∧
    (c.fault = none → slice (c.readIndex 1) 15 8 = 0) ∧
    ∀ r, c.fault = some r → slice (c.readIndex 1) 15 8 = r.cause.code ∧
      (r.cause = .invalidOrder → slice (c.readIndex 1) 15 8 = 1) ∧
      (r.cause = .misalignedBitLength → slice (c.readIndex 1) 15 8 = 2) ∧
      (r.cause = .misalignedSymbolLength → slice (c.readIndex 1) 15 8 = 3) ∧
      (r.cause = .dimensionMismatch → slice (c.readIndex 1) 15 8 = 4) ∧
      (r.cause = .unsupportedLayout → slice (c.readIndex 1) 15 8 = 5) ∧
      (r.cause = .insufficientSamples → slice (c.readIndex 1) 15 8 = 6) ∧
      (r.cause = .illegalCommand → slice (c.readIndex 1) 15 8 = 16) ∧
      (r.cause = .notConfigured → slice (c.readIndex 1) 15 8 = 17) ∧
      (r.cause = .invalidParameter → slice (c.readIndex 1) 15 8 = 18) ∧
      (r.cause = .badOperand → slice (c.readIndex 1) 15 8 = 19) ∧
      (r.cause = .capacityExceeded → slice (c.readIndex 1) 15 8 = 20) ∧
      (r.cause = .divideByZero → slice (c.readIndex 1) 15 8 = 21)

/-- R35. `CTRL`: bit 1 resets and wins, else bit 0 clears the fault, else nothing; reads are 0. -/
def Obligations.ControlRegister : Prop :=
  ∀ (s : State) (w : Word) (rest : List HostEvent), s.core.readIndex 2 = 0 ∧
    (s.script = .csrWrite 2 w :: rest → ∃ t, step s = .next t ∧ t.script = rest ∧
      (w.getLsbD 1 = true → t.core = CoreState.reset) ∧
      (w.getLsbD 1 = false → w.getLsbD 0 = true → t.core = { s.core with fault := none }) ∧
      (w.getLsbD 1 = false → w.getLsbD 0 = false → t.core = s.core))

/-- R209. Clearing a fault: the record reads 0, nothing else changes, and commands execute again; with no fault recorded it
does nothing. -/
def Obligations.ClearFault : Prop :=
  ∀ (s : State) (w v : Word) (rest : List HostEvent), w.getLsbD 0 = true → w.getLsbD 1 = false →
    s.script = .csrWrite 2 w :: .csrWrite 0 v :: rest →
    ∃ t, step s = .next t ∧ t.core = { s.core with fault := none } ∧
      slice (t.core.readIndex 1) 0 0 = 0 ∧ slice (t.core.readIndex 1) 15 8 = 0 ∧
      t.core.readIndex 4 = 0 ∧ t.core.readIndex 5 = 0 ∧ (s.core.fault = none → t.core = s.core) ∧
      ∀ i, decode v = .ok i →
        step t = exec i { core := t.core, script := rest, replies := s.replies ++ [.completed, .completed] }

/-- R30, R36. Which staging register stands at each index 8 to 15; a write to one stores all 32 bits, reads back, and has
no other effect; no command writes one. -/
def Obligations.StagingRegisters : Prop :=
  (∀ (s : State) (j : ℕ) (w : Word) (rest : List HostEvent), 8 ≤ j → j ≤ 15 → s.script = .csrWrite j w :: rest →
    ∃ t, step s = .next t ∧ t.core.readIndex j = w ∧
      (j = 8 → t.core.staging = { s.core.staging with order := w }) ∧
      (j = 9 → t.core.staging = { s.core.staging with nsc := w }) ∧
      (j = 10 → t.core.staging = { s.core.staging with ng := w }) ∧
      (j = 11 → t.core.staging = { s.core.staging with gtype := w }) ∧
      (j = 12 → t.core.staging = { s.core.staging with estsel := w }) ∧
      (j = 13 → t.core.staging = { s.core.staging with syncsel := w }) ∧
      (j = 14 → t.core.staging = { s.core.staging with sflen := w }) ∧
      (j = 15 → t.core.staging = { s.core.staging with srows := w }) ∧
      (∀ m, 8 ≤ m → m ≤ 15 → m ≠ j → t.core.readIndex m = s.core.readIndex m) ∧
      t.core = { s.core with staging := t.core.staging }) ∧
  (∀ c : CoreState, c.readIndex 8 = c.staging.order ∧ c.readIndex 9 = c.staging.nsc ∧ c.readIndex 10 = c.staging.ng ∧
    c.readIndex 11 = c.staging.gtype ∧ c.readIndex 12 = c.staging.estsel ∧ c.readIndex 13 = c.staging.syncsel ∧
    c.readIndex 14 = c.staging.sflen ∧ c.readIndex 15 = c.staging.srows) ∧
  ∀ (i : Instr) (s t : State), exec i s = .next t → t.core.staging = s.core.staging

/-- R40. Reserved indices, those above 65535 and write-only registers read 0; a write to a reserved index or a read-only
register changes nothing. -/
def Obligations.ReservedAndReadOnlyRegisters : Prop :=
  (∀ (s : State) (i : ℕ) (rest : List HostEvent),
    (i = 0 ∨ i = 2 ∨ i = 7 ∨ (21 ≤ i ∧ i ≤ 31) ∨ 48 ≤ i) → s.script = .csrRead i :: rest →
    step s = .next { core := s.core, script := rest, replies := s.replies ++ [.value 0] }) ∧
  ∀ (s : State) (i : ℕ) (w : Word) (rest : List HostEvent),
    (i = 1 ∨ (3 ≤ i ∧ i ≤ 7) ∨ (16 ≤ i ∧ i ≤ 65535)) → s.script = .csrWrite i w :: rest →
    step s = .next { core := s.core, script := rest, replies := s.replies ++ [.completed] }

/-- R30, R33, R37 to R39, R41. `CSEQ`, the fault record and `SYNCOFF` at their indices, and the views of the latched halves
and of the buffers. -/
def Obligations.ViewRegisters : Prop :=
  ∀ c : CoreState,
    c.readIndex 3 = c.cseq ∧ c.readIndex 6 = c.syncoff ∧
    (c.fault = none → c.readIndex 4 = 0 ∧ c.readIndex 5 = 0) ∧
    (∀ r, c.fault = some r → c.readIndex 4 = r.fcmd ∧ c.readIndex 5 = r.finfo) ∧
    (c.constel = none → c.readIndex 16 = 0 ∧ c.readIndex 17 = 0) ∧
    (∀ o k, c.constel = some ⟨o⟩ → o.toNat = 2 ^ k → c.readIndex 16 = o ∧ c.readIndex 17 = BitVec.ofNat 32 k) ∧
    (c.frame = none → c.readIndex 18 = 0 ∧ c.readIndex 19 = 0 ∧ c.readIndex 20 = 0) ∧
    (∀ f, c.frame = some f → c.readIndex 18 = f.nsc ∧ c.readIndex 19 = f.ng ∧
      (f.gtype = .zeroPad → c.readIndex 20 = 0) ∧ (f.gtype = .cyclicPrefix → c.readIndex 20 = 1) ∧
      (f.gtype = .cyclicSuffix → c.readIndex 20 = 2)) ∧
    ∀ b : BufIdx,
      (c.bufs[b] = .none → c.readIndex (32 + 2 * b.val) = 0 ∧ c.readIndex (33 + 2 * b.val) = 0) ∧
      (∀ d, c.bufs[b] = .bits d → c.readIndex (32 + 2 * b.val) = 1 ∧
        (c.readIndex (33 + 2 * b.val)).toNat = min d.length (2 ^ 32 - 1)) ∧
      (∀ d, c.bufs[b] = .cplx d → c.readIndex (32 + 2 * b.val) = 2 ∧
        (c.readIndex (33 + 2 * b.val)).toNat = min d.length (2 ^ 32 - 1))

/-- R62. `HostBufWrite` replaces the buffer and nothing else, whether or not a fault is recorded; what is no transaction is
refused by name.
The refusals are the model's: log entries 3 and 15. -/
def Obligations.HostBufferWrite : Prop :=
  ∀ (s : State) (b : BufIdx) (d : Buffer) (rest : List HostEvent), s.script = .bufWrite b d :: rest →
    (d ≠ .none → (d.len ≤ 64 ∨ Config.fitsCap d.len = true) → d.numbers = true →
      ∃ t, step s = .next t ∧ t.core.bufs[b] = d ∧ (∀ b' : BufIdx, b' ≠ b → t.core.bufs[b'] = s.core.bufs[b']) ∧
        t.core = { s.core with bufs := t.core.bufs } ∧ t.script = rest) ∧
    (d = .none → step s = .refused .hostWroteKindNone) ∧
    (d ≠ .none → Config.fitsCap d.len = false → step s = .refused (.hostWroteTooMany d.len)) ∧
    (d ≠ .none → (d.len ≤ 64 ∨ Config.fitsCap d.len = true) → d.numbers = false → step s = .refused .hostWroteNoNumber)

/-- R63. `HostBufRead` returns the buffer's kind and data, that of an unwritten buffer too, and changes no state of CORE. -/
def Obligations.HostBufferRead : Prop :=
  ∀ (s : State) (b : BufIdx) (rest : List HostEvent), s.script = .bufRead b :: rest →
    step s = .next { core := s.core, script := rest, replies := s.replies ++ [.content s.core.bufs[b]] } ∧
    (s.core.bufs[b] = .none → step s = .next { core := s.core, script := rest, replies := s.replies ++ [.content .none] })

/-! ## Reset and the invariant -/

/-- R55. After reset every buffer is unwritten, both halves are invalid, no fault is recorded and every register reads 0. -/
def Obligations.ResetValues : Prop :=
  (∀ b : BufIdx, State.reset.core.bufs[b] = .none) ∧ State.reset.core.constel = none ∧ State.reset.core.frame = none ∧
  State.reset.core.fault = none ∧ State.reset.core.cseq = 0 ∧ State.reset.core.syncoff = 0 ∧
  State.reset.core.svalid = false ∧ ∀ i : ℕ, State.reset.core.readIndex i = 0

/-- R231. `SRST` has exactly the effect of the reset input on CORE, whatever the state. -/
def Obligations.SoftReset : Prop :=
  ∀ (s t : State) (w : Word) (rest : List HostEvent), w.getLsbD 1 = true → s.script = .csrWrite 2 w :: rest →
    t = { s with script := .resetInput :: rest } →
    ∃ u v, step s = .next u ∧ step t = .next v ∧ u.core = v.core ∧ u.core = State.reset.core

/-- R230. Reset puts everything at its reset value; nothing but reset invalidates a latched half or returns a buffer to
`NONE`; and CORE does nothing until the host makes a transaction.
The empty script is the model's: log entries 9 and 10. -/
def Obligations.OnlyResetInvalidates : Prop :=
  (∀ (s : State) (rest : List HostEvent), s.script = .resetInput :: rest →
    ∃ t, step s = .next t ∧ t.core = State.reset.core) ∧
  (∀ (s t : State), step s = .next t →
    ((s.core.constel ≠ none ∧ t.core.constel = none) ∨ (s.core.frame ≠ none ∧ t.core.frame = none) ∨
      ∃ b : BufIdx, s.core.bufs[b] ≠ .none ∧ t.core.bufs[b] = .none) →
    ∃ rest, s.script = .resetInput :: rest ∨ ∃ w, s.script = .csrWrite 2 w :: rest ∧ w.getLsbD 1 = true) ∧
  (∀ s : State, s.script = [] → step s = .next s)

/-- R21, R46, R109, R128: the invariant holds after reset.
The canonical form of numbers is the model's: log entry 3. -/
def Obligations.InvariantAtReset : Prop := State.reset.core.Inv

/-- R21, R46, R109, R128: every step keeps the invariant.
The canonical form of numbers is the model's: log entry 3. -/
def Obligations.StepKeepsInvariant : Prop := ∀ s t : State, s.core.Inv → step s = .next t → t.core.Inv

end
end

