-- ==== Sys2Proof/Laws/Number.lean ====
section
/-! SUPPORT. The operations on exact numbers compute what R9 says of the complex numbers they stand for. -/

namespace Sys2Proof.Machine

/-! Points of the circle -/

theorem turnPoint_add (r s : ℚ) : turnPoint (r + s) = turnPoint r * turnPoint s := by
  simp only [turnPoint, ← Complex.exp_add]
  push_cast
  ring_nf

@[simp] theorem turnPoint_zero : turnPoint 0 = 1 := by simp [turnPoint]

theorem turnPoint_int (n : ℤ) : turnPoint (n : ℚ) = 1 := by
  rw [turnPoint, Complex.exp_eq_one_iff]
  exact ⟨n, by push_cast; ring⟩

theorem turnPoint_fracTurn (r : ℚ) : turnPoint (fracTurn r) = turnPoint r := by
  have h : r = fracTurn r + (r.floor : ℤ) := by simp [fracTurn]
  conv_rhs => rw [h, turnPoint_add, turnPoint_int, mul_one]

theorem turnPoint_quarter : turnPoint (1 / 4) = Complex.I := by
  have h : 2 * (Real.pi : ℂ) * Complex.I * ((1 / 4 : ℚ) : ℂ) = (Real.pi / 2 : ℝ) * Complex.I := by
    push_cast; ring
  rw [turnPoint, h, Complex.exp_mul_I, ← Complex.ofReal_cos, ← Complex.ofReal_sin]
  simp

theorem turnPoint_neg (r : ℚ) : turnPoint (-r) = (starRingEnd ℂ) (turnPoint r) := by
  simp only [turnPoint, ← Complex.exp_conj, map_mul, Complex.conj_I, Complex.conj_ofReal, map_ratCast, map_ofNat]
  congr 1
  push_cast
  ring

/-- The p points that divide the circle evenly sum to 0. -/
theorem turnPoint_sum {p : ℕ} (hp : 2 ≤ p) (r : ℚ) :
    ((List.range p).map fun c : ℕ => turnPoint (r + (c : ℚ) / (p : ℚ))).sum = 0 := by
  have hz : IsPrimitiveRoot (Complex.exp (2 * Real.pi * Complex.I / p)) p :=
    Complex.isPrimitiveRoot_exp p (by omega)
  have hg := hz.geom_sum_eq_zero (by omega)
  have hc : ∀ c : ℕ, turnPoint (r + (c : ℚ) / (p : ℚ))
      = turnPoint r * Complex.exp (2 * Real.pi * Complex.I / p) ^ c := by
    intro c
    rw [turnPoint_add, ← Complex.exp_nat_mul]
    congr 1
    rw [turnPoint]
    congr 1
    push_cast
    ring
  simp only [hc, List.sum_map_mul_left]
  rw [← List.sum_toFinset _ List.nodup_range, List.toFinset_range, hg, mul_zero]

/-! Lists of terms -/

@[simp] theorem termsValue_nil : termsValue [] = 0 := rfl

@[simp] theorem termsValue_cons (t : Term) (ts : List Term) :
    termsValue (t :: ts) = (t.coeff : ℂ) * turnPoint t.turn + termsValue ts := by
  simp [termsValue]

@[simp] theorem termsValue_append (ts us : List Term) :
    termsValue (ts ++ us) = termsValue ts + termsValue us := by
  simp [termsValue]

theorem termsValue_flatMap {α : Type} (f : α → List Term) (l : List α) :
    termsValue (l.flatMap f) = (l.map fun a => termsValue (f a)).sum := by
  induction l with
  | nil => rfl
  | cons a l ih => simp [ih]

theorem termsValue_addTerm (t : Term) (us : List Term) :
    termsValue (addTerm t us) = (t.coeff : ℂ) * turnPoint t.turn + termsValue us := by
  induction us with
  | nil =>
    simp only [addTerm]
    split
    · rename_i h; simp [h]
    · simp
  | cons u us ih =>
    simp only [addTerm]
    split
    · rename_i h; simp [h]
    · split
      · simp
      · split
        · rename_i _ _ h
          split
          · rename_i h0
            have hc : (t.coeff : ℂ) = -(u.coeff : ℂ) := by
              have : t.coeff = -u.coeff := by linarith
              rw [this]; push_cast; ring
            simp [h, hc]
          · simp [h]; ring
        · simp [ih]; ring

theorem termsValue_foldr_addTerm (ts us : List Term) :
    termsValue (ts.foldr addTerm us) = termsValue ts + termsValue us := by
  induction ts with
  | nil => simp
  | cons t ts ih => simp [termsValue_addTerm, ih]; ring

theorem value_collect (ts : List Term) : (collect ts).value = termsValue ts := by
  simp [Cx.value, collect, termsValue_foldr_addTerm]

theorem two_le_of_mem_primeDivisorsFrom {p fuel d n : ℕ} (hd : 2 ≤ d)
    (h : p ∈ primeDivisorsFrom fuel d n) : 2 ≤ p := by
  induction fuel generalizing d n with
  | zero => simp [primeDivisorsFrom] at h
  | succ fuel ih =>
    simp only [primeDivisorsFrom] at h
    split at h
    · simp at h
    · split at h
      · rcases List.mem_cons.1 h with rfl | h
        · exact hd
        · exact ih (by omega) h
      · exact ih (by omega) h

theorem two_le_of_mem_primeDivisors {p n : ℕ} (h : p ∈ primeDivisors n) : 2 ≤ p :=
  two_le_of_mem_primeDivisorsFrom (le_refl 2) h

theorem termsValue_spread {p : ℕ} (hp : 2 ≤ p) (t : Term) :
    termsValue (spread p t) = (t.coeff : ℂ) * turnPoint t.turn := by
  unfold spread
  split
  · have hs := turnPoint_sum hp t.turn
    obtain ⟨q, rfl⟩ : ∃ q, p = q + 1 := ⟨p - 1, by omega⟩
    rw [List.range_succ_eq_map, List.map_cons, List.sum_cons, List.map_map] at hs
    have h0 : turnPoint t.turn
        = -(List.map ((fun c : ℕ => turnPoint (t.turn + (c : ℚ) / ((q + 1 : ℕ) : ℚ))) ∘ Nat.succ) (List.range q)).sum := by
      have := eq_neg_of_add_eq_zero_left hs
      simpa using this
    rw [h0]
    simp only [termsValue, List.map_map, Nat.add_sub_cancel, Function.comp_def, turnPoint_fracTurn, Nat.succ_eq_add_one]
    rw [← neg_mul_eq_mul_neg, neg_mul_eq_neg_mul, ← List.sum_map_mul_left]
    push_cast
    rfl
  · simp

theorem termsValue_foldl_spread (ps : List ℕ) (hps : ∀ p ∈ ps, 2 ≤ p) (ts : List Term) :
    termsValue (ps.foldl (fun ts p => ts.flatMap (spread p)) ts) = termsValue ts := by
  induction ps generalizing ts with
  | nil => rfl
  | cons p ps ih =>
    rw [List.foldl_cons, ih (fun q hq => hps q (List.mem_cons_of_mem _ hq)), termsValue_flatMap]
    simp only [termsValue_spread (hps p List.mem_cons_self)]
    rfl

theorem termsValue_reduceTerm (t : Term) :
    termsValue (reduceTerm t) = (t.coeff : ℂ) * turnPoint t.turn := by
  unfold reduceTerm
  rw [termsValue_foldl_spread _ (fun p hp => two_le_of_mem_primeDivisors hp)]
  simp [turnPoint_fracTurn]

theorem value_ofTerms (ts : List Term) : (ofTerms ts).value = termsValue ts := by
  unfold ofTerms
  rw [value_collect, termsValue_flatMap]
  simp only [termsValue_reduceTerm]
  rfl

/-! Numbers -/

@[simp] theorem value_zero : Cx.zero.value = 0 := rfl

@[simp] theorem value_ofRat (x : ℚ) : (Cx.ofRat x).value = (x : ℂ) := by
  simp [Cx.ofRat, value_collect]

@[simp] theorem value_one : Cx.one.value = 1 := by simp [Cx.one]

@[simp] theorem value_ofParts (x y : ℚ) : (Cx.ofParts x y).value = (x : ℂ) + (y : ℂ) * Complex.I := by
  simp [Cx.ofParts, value_collect, ← turnPoint_quarter]

@[simp] theorem value_cis (r : ℚ) : (Cx.cis r).value = turnPoint r := by
  simp [Cx.cis, value_collect, termsValue_reduceTerm]

@[simp] theorem value_add (x y : Cx) : (Cx.add x y).value = x.value + y.value := by
  simp [Cx.add, Cx.value, termsValue_foldr_addTerm]

@[simp] theorem value_scale (q : ℚ) (x : Cx) : (Cx.scale q x).value = (q : ℂ) * x.value := by
  unfold Cx.scale
  split
  · rename_i h; simp [h]
  · simp [Cx.value, termsValue, List.map_map, Function.comp_def, mul_assoc, List.sum_map_mul_left]

@[simp] theorem value_neg (x : Cx) : (Cx.neg x).value = -x.value := by simp [Cx.neg]

@[simp] theorem value_sub (x y : Cx) : (Cx.sub x y).value = x.value - y.value := by
  simp [Cx.sub, sub_eq_add_neg]

theorem termsValue_products (ts us : List Term) :
    termsValue (ts.flatMap fun t => us.map fun u => ⟨t.turn + u.turn, t.coeff * u.coeff⟩)
      = termsValue ts * termsValue us := by
  induction ts with
  | nil => simp
  | cons t ts ih =>
    simp only [List.flatMap_cons, termsValue_append, ih, termsValue_cons, add_mul]
    congr 1
    simp only [termsValue, List.map_map, Function.comp_def, ← List.sum_map_mul_left]
    congr 1
    apply List.map_congr_left
    intro u _
    rw [turnPoint_add]
    push_cast
    ring

@[simp] theorem value_mul (x y : Cx) : (Cx.mul x y).value = x.value * y.value := by
  rw [Cx.mul, value_ofTerms, termsValue_products]
  rfl

@[simp] theorem value_sum (zs : List Cx) : (Cx.sum zs).value = (zs.map Cx.value).sum := by
  induction zs with
  | nil => rfl
  | cons z zs ih =>
    simp only [Cx.sum, List.foldr_cons, value_add, List.map_cons, List.sum_cons] at *
    rw [ih]

@[simp] theorem value_conj (z : Cx) : z.conj.value = (starRingEnd ℂ) z.value := by
  unfold Cx.conj Cx.galois
  rw [value_ofTerms, Cx.value]
  simp only [termsValue, List.map_map, Function.comp_def, map_list_sum, map_mul]
  congr 1
  apply List.map_congr_left
  intro t _
  have h : (((-1 : ℤ) : ℚ)) * t.turn = -t.turn := by push_cast; ring
  rw [h, turnPoint_neg, map_ratCast]

@[simp] theorem value_re (z : Cx) : z.re.value = ((z.value.re : ℝ) : ℂ) := by
  simp only [Cx.re, value_scale, value_add, value_conj, Complex.add_conj]
  push_cast
  ring

@[simp] theorem value_im (z : Cx) : z.im.value = ((z.value.im : ℝ) : ℂ) := by
  simp [Cx.im]

@[simp] theorem value_abs2 (z : Cx) : z.abs2.value = ((Complex.normSq z.value : ℝ) : ℂ) := by
  simp [Cx.abs2, Complex.mul_conj]

end Sys2Proof.Machine
end

