-- ==== Sys2Proof/Laws/Basis.lean ====
section
/-! SUPPORT. Reducing a term gives turns of the basis: the p-component of a turn (the part of it with a denominator a
power of p) is what `component` computes, and moving a turn by c/q changes its q-component alone. -/

namespace Sys2Proof.Machine

/-! Prime divisors -/

theorem primePart_eq {p n : ℕ} (hp : p.Prime) (hn : n ≠ 0) : primePart p n = p ^ n.factorization p := by
  unfold primePart
  apply Nat.dvd_antisymm
  · obtain ⟨k, -, hk⟩ := (Nat.dvd_prime_pow hp).1 (Nat.gcd_dvd_left (p ^ Nat.log2 n) n)
    rw [hk]
    apply pow_dvd_pow
    rw [← hp.pow_dvd_iff_le_factorization hn, ← hk]
    exact Nat.gcd_dvd_right _ _
  · apply Nat.dvd_gcd
    · apply pow_dvd_pow
      have h1 : 2 ^ n.factorization p ≤ n :=
        le_trans (Nat.pow_le_pow_left hp.two_le _) (Nat.le_of_dvd (Nat.pos_of_ne_zero hn) (Nat.ordProj_dvd n p))
      exact (Nat.le_log2 hn).2 h1
    · exact Nat.ordProj_dvd n p

theorem mem_primeDivisorsFrom (fuel d n : ℕ) (hd : 2 ≤ d) (hn : n ≠ 0) (hf : n < fuel + d)
    (hmin : ∀ p, p.Prime → p ∣ n → d ≤ p) (p : ℕ) :
    p ∈ primeDivisorsFrom fuel d n ↔ p.Prime ∧ p ∣ n := by
  induction fuel generalizing d n with
  | zero =>
    simp only [primeDivisorsFrom, List.not_mem_nil, false_iff, not_and]
    intro hp hpn
    have := hmin p hp hpn
    have := Nat.le_of_dvd (Nat.pos_of_ne_zero hn) hpn
    omega
  | succ fuel ih =>
    simp only [primeDivisorsFrom]
    split
    · have h1 : n = 1 := by omega
      subst h1
      simp only [List.not_mem_nil, Nat.dvd_one, false_iff, not_and]
      intro hp h1
      exact hp.ne_one h1
    · split
      · rename_i hn1 hmod
        have hdn : d ∣ n := Nat.dvd_of_mod_eq_zero hmod
        have hdp : d.Prime := by
          have h1 : d ≤ d.minFac := hmin _ (Nat.minFac_prime (by omega)) ((Nat.minFac_dvd d).trans hdn)
          have h2 : d.minFac = d := le_antisymm (Nat.minFac_le (by omega)) h1
          exact h2 ▸ Nat.minFac_prime (by omega)
        rw [primePart_eq hdp hn]
        have hco := Nat.coprime_ordCompl hdp hn
        have hdvd : n / d ^ n.factorization d ∣ n := Nat.ordCompl_dvd n d
        have hpos : n / d ^ n.factorization d ≠ 0 := (Nat.ordCompl_pos d hn).ne'
        have hle := Nat.le_of_dvd (Nat.pos_of_ne_zero hn) hdvd
        rw [List.mem_cons, ih (d + 1) _ (by omega) hpos (by omega)]
        · constructor
          · rintro (rfl | ⟨hp, hpn⟩)
            · exact ⟨hdp, hdn⟩
            · exact ⟨hp, hpn.trans hdvd⟩
          · rintro ⟨hp, hpn⟩
            by_cases hpd : p = d
            · exact .inl hpd
            · refine .inr ⟨hp, ?_⟩
              have hmul : d ^ n.factorization d * (n / d ^ n.factorization d) = n :=
                Nat.mul_div_cancel' (Nat.ordProj_dvd n d)
              rw [← hmul] at hpn
              rcases hp.dvd_mul.1 hpn with h | h
              · exact absurd ((Nat.prime_dvd_prime_iff_eq hp hdp).1 (hp.dvd_of_dvd_pow h)) hpd
              · exact h
        · intro q hq hqn
          have h1 := hmin q hq (hqn.trans hdvd)
          have h2 : q ≠ d := by
            rintro rfl
            exact hq.one_lt.ne' (Nat.Coprime.eq_one_of_dvd hco hqn)
          omega
      · rename_i hn1 hmod
        apply ih (d + 1) n (by omega) hn (by omega)
        intro q hq hqn
        have h1 := hmin q hq hqn
        have h2 : q ≠ d := by
          rintro rfl
          exact hmod (Nat.mod_eq_zero_of_dvd hqn)
        omega

theorem mem_primeDivisors {n : ℕ} (hn : n ≠ 0) (p : ℕ) : p ∈ primeDivisors n ↔ p.Prime ∧ p ∣ n :=
  mem_primeDivisorsFrom n 2 n (le_refl 2) hn (by omega) (fun _ hp _ => hp.two_le) p

/-! Components -/

theorem component_spec {p : ℕ} (hp : p.Prime) (r : ℚ) :
    component p r < primePart p r.den ∧
      (primePart p r.den : ℤ) ∣ r.num - component p r * ((r.den / primePart p r.den : ℕ) : ℤ) := by
  have hden : r.den ≠ 0 := r.den_nz
  have hq := primePart_eq hp hden
  set k := r.den.factorization p with hk
  set q := primePart p r.den with hqdef
  have hqpos : 0 < q := by rw [hq]; exact pow_pos hp.pos _
  have hcomp : component p r = (r.num % (q : ℤ)).toNat * (r.den / q) ^ (q - q / p - 1) % q := rfl
  set m := r.den / q with hm
  refine ⟨by rw [hcomp]; exact Nat.mod_lt _ hqpos, ?_⟩
  have hco : Nat.Coprime m q := by
    rw [hm, hq]
    exact (Nat.Coprime.pow_left _ (Nat.coprime_ordCompl hp hden)).symm
  have hpow : m ^ (q - q / p - 1) * m ≡ 1 [MOD q] := by
    rcases Nat.eq_zero_or_pos k with h0 | h0
    · rw [hq, h0, pow_zero]; exact Nat.modEq_one
    · have htot : q - q / p = Nat.totient q := by
        obtain ⟨j, hj⟩ : ∃ j, k = j + 1 := ⟨k - 1, by omega⟩
        rw [hq, hj, Nat.totient_prime_pow_succ hp, pow_succ, Nat.mul_div_cancel _ hp.pos]
        rw [Nat.mul_sub_one]
      have htp : 0 < Nat.totient q := Nat.totient_pos.2 hqpos
      rw [htot, ← pow_succ, Nat.sub_add_cancel htp]
      exact Nat.ModEq.pow_totient hco
  have hnum : (((r.num % (q : ℤ)).toNat : ℕ) : ℤ) = r.num % (q : ℤ) :=
    Int.toNat_of_nonneg (Int.emod_nonneg _ (by exact_mod_cast hqpos.ne'))
  have h1 : component p r * m ≡ (r.num % (q : ℤ)).toNat [MOD q] := by
    rw [hcomp]
    calc (r.num % (q : ℤ)).toNat * m ^ (q - q / p - 1) % q * m
        ≡ (r.num % (q : ℤ)).toNat * m ^ (q - q / p - 1) * m [MOD q] :=
          (Nat.mod_modEq _ _).mul_right _
      _ = (r.num % (q : ℤ)).toNat * (m ^ (q - q / p - 1) * m) := by ring
      _ ≡ (r.num % (q : ℤ)).toNat * 1 [MOD q] := hpow.mul_left _
      _ = (r.num % (q : ℤ)).toNat := mul_one _
  have h2 := (Int.natCast_modEq_iff.2 h1).trans (hnum ▸ Int.mod_modEq r.num q)
  have h3 := h2.dvd
  push_cast at h3 ⊢
  exact h3

/-- x is the p-component of r: in [0, 1), its denominator a power of p, and r - x of denominator prime to p. -/
structure IsComponent (p : ℕ) (r x : ℚ) : Prop where
  nonneg : 0 ≤ x
  lt_one : x < 1
  power : ∃ k, x.den ∣ p ^ k
  rest : Nat.Coprime (r - x).den p

theorem den_sub_dvd (x y : ℚ) : (x - y).den ∣ x.den * y.den := Rat.sub_den_dvd x y

theorem eq_int_of_den_one {x : ℚ} (h : x.den = 1) : ∃ n : ℤ, x = n := ⟨x.num, (Rat.den_eq_one_iff x).1 h |>.symm⟩

theorem IsComponent.unique {p : ℕ} {r x y : ℚ} (hx : IsComponent p r x) (hy : IsComponent p r y) : x = y := by
  obtain ⟨j, hj⟩ := hx.power
  obtain ⟨k, hk⟩ := hy.power
  have h1 : (x - y).den ∣ p ^ (j + k) := by
    rw [pow_add]; exact (den_sub_dvd x y).trans (mul_dvd_mul hj hk)
  have h2 : (x - y).den ∣ (r - y).den * (r - x).den := by
    have : x - y = (r - y) - (r - x) := by ring
    rw [this]; exact den_sub_dvd _ _
  have h3 : Nat.Coprime (x - y).den (p ^ (j + k)) :=
    Nat.Coprime.pow_right _ (Nat.Coprime.coprime_dvd_left h2 (Nat.Coprime.mul_left hy.rest hx.rest))
  have h4 : (x - y).den = 1 := Nat.Coprime.eq_one_of_dvd h3 h1
  obtain ⟨n, hn⟩ := eq_int_of_den_one h4
  have h5 : (n : ℚ) < 1 := by rw [← hn]; linarith [hx.lt_one, hy.nonneg]
  have h6 : (-1 : ℚ) < n := by rw [← hn]; linarith [hx.nonneg, hy.lt_one]
  have h7 : n = 0 := by
    have a : n < 1 := by exact_mod_cast h5
    have b : -1 < n := by exact_mod_cast h6
    omega
  rw [h7] at hn
  linarith [hn, show ((0 : ℤ) : ℚ) = 0 from rfl]

theorem den_div_dvd (a : ℤ) (b : ℕ) : ((a : ℚ) / (b : ℚ)).den ∣ b := by
  have := Rat.den_dvd a (b : ℤ)
  have h : ((a : ℚ) / ((b : ℤ) : ℚ)) = (a : ℚ) / (b : ℚ) := by push_cast; rfl
  rw [← Rat.divInt_eq_div] at h
  rw [← h]
  exact_mod_cast this

theorem den_natDiv_dvd (a b : ℕ) : ((a : ℚ) / (b : ℚ)).den ∣ b := by
  have h := den_div_dvd (a : ℤ) b
  rwa [Int.cast_natCast] at h

theorem isComponent_component {p : ℕ} (hp : p.Prime) (r : ℚ) :
    IsComponent p r ((component p r : ℚ) / (primePart p r.den : ℚ)) := by
  obtain ⟨hlt, hdvd⟩ := component_spec hp r
  have hden : r.den ≠ 0 := r.den_nz
  have hq := primePart_eq hp hden
  have hqpos : 0 < primePart p r.den := by rw [hq]; exact pow_pos hp.pos _
  have hqQ : (0 : ℚ) < (primePart p r.den : ℚ) := by exact_mod_cast hqpos
  refine ⟨by positivity, ?_, ?_, ?_⟩
  · rw [div_lt_one hqQ]; exact_mod_cast hlt
  · refine ⟨r.den.factorization p, ?_⟩
    rw [← hq]
    exact den_natDiv_dvd _ _
  · obtain ⟨t, ht⟩ := hdvd
    have hmul : primePart p r.den * (r.den / primePart p r.den) = r.den := by
      rw [hq]; exact Nat.mul_div_cancel' (Nat.ordProj_dvd _ _)
    set m := r.den / primePart p r.den with hm
    have hmpos : 0 < m := Nat.pos_of_ne_zero (by rintro h; rw [h, mul_zero] at hmul; exact hden hmul.symm)
    have hmQ : (0 : ℚ) < (m : ℚ) := by exact_mod_cast hmpos
    have hr : r = (r.num : ℚ) / ((primePart p r.den : ℚ) * (m : ℚ)) := by
      have : ((primePart p r.den : ℚ) * (m : ℚ)) = (r.den : ℚ) := by exact_mod_cast hmul
      rw [this, Rat.num_div_den]
    have htQ : (r.num : ℚ) - (component p r : ℚ) * (m : ℚ) = (primePart p r.den : ℚ) * (t : ℚ) := by
      exact_mod_cast ht
    have hrest : r - (component p r : ℚ) / (primePart p r.den : ℚ) = (t : ℚ) / (m : ℚ) := by
      refine (congrArg (· - (component p r : ℚ) / (primePart p r.den : ℚ)) hr).trans ?_
      generalize (component p r : ℚ) = u at htQ
      generalize (primePart p r.den : ℚ) = q at htQ hqQ
      generalize (r.num : ℚ) = n at htQ
      field_simp
      linarith
    rw [hrest]
    apply Nat.Coprime.coprime_dvd_left (den_div_dvd t m)
    rw [hm, hq]
    exact (Nat.coprime_ordCompl hp hden).symm

/-- The last-part test in terms of the p-component. -/
theorem inTopDigit_iff {p : ℕ} (hp : p.Prime) {r x : ℚ} (hx : IsComponent p r x) :
    inTopDigit p r = true ↔ ((p : ℚ) - 1) / p ≤ x := by
  rw [hx.unique (isComponent_component hp r)]
  have hqpos : 0 < primePart p r.den := by rw [primePart_eq hp r.den_nz]; exact pow_pos hp.pos _
  have hqQ : (0 : ℚ) < (primePart p r.den : ℚ) := by exact_mod_cast hqpos
  have hpQ : (0 : ℚ) < (p : ℚ) := by exact_mod_cast hp.pos
  rw [inTopDigit, decide_eq_true_iff, div_le_div_iff₀ hpQ hqQ]
  have h1 : ((p - 1 : ℕ) : ℚ) = (p : ℚ) - 1 := by
    rw [Nat.cast_sub hp.one_le]; simp
  rw [← h1]
  constructor
  · intro h
    have : (((p - 1) * primePart p r.den : ℕ) : ℚ) ≤ ((p * component p r : ℕ) : ℚ) := by exact_mod_cast h
    push_cast at this
    linarith
  · intro h
    have : (((p - 1) * primePart p r.den : ℕ) : ℚ) ≤ ((p * component p r : ℕ) : ℚ) := by
      push_cast
      linarith
    exact_mod_cast this

/-- Moving a turn by something of denominator prime to p leaves its p-component. -/
theorem IsComponent.move {p : ℕ} {r x d : ℚ} (hx : IsComponent p r x) (hd : Nat.Coprime d.den p) :
    IsComponent p (r + d) x := by
  refine ⟨hx.nonneg, hx.lt_one, hx.power, ?_⟩
  have h : r + d - x = (r - x) + d := by ring
  rw [h]
  exact Nat.Coprime.coprime_dvd_left (Rat.add_den_dvd _ _) (Nat.Coprime.mul_left hx.rest hd)

theorem fracTurn_nonneg (r : ℚ) : 0 ≤ fracTurn r := by
  have := Int.floor_le r
  have h : (r.floor : ℤ) = ⌊r⌋ := rfl
  rw [fracTurn, h]; linarith

theorem fracTurn_lt_one (r : ℚ) : fracTurn r < 1 := by
  have := Int.lt_floor_add_one r
  have h : (r.floor : ℤ) = ⌊r⌋ := rfl
  rw [fracTurn, h]; linarith

theorem fracTurn_eq_self {r : ℚ} (h0 : 0 ≤ r) (h1 : r < 1) : fracTurn r = r := by
  have h : (r.floor : ℤ) = ⌊r⌋ := rfl
  have h2 : ⌊r⌋ = 0 := Int.floor_eq_zero_iff.2 ⟨h0, h1⟩
  rw [fracTurn, h, h2]; simp

theorem fracTurn_eq_add (r : ℚ) : fracTurn r = r + ((-r.floor : ℤ) : ℚ) := by
  rw [fracTurn]; push_cast; ring

theorem den_intCast (n : ℤ) : ((n : ℚ)).den = 1 := Rat.den_intCast n

theorem den_fracTurn_dvd (r : ℚ) : (fracTurn r).den ∣ r.den := by
  rw [fracTurn_eq_add]
  have := Rat.add_den_dvd r ((-r.floor : ℤ) : ℚ)
  rwa [Rat.den_intCast, mul_one] at this

/-! Spreading -/

/-- What `spread p` does to a turn: where it moves it, the p-component leaves the last part, the other components stay,
and the denominator gains no prime. -/
theorem spread_turns {p : ℕ} (hp : p.Prime) {t u : Term} (hpt : p ∣ t.turn.den) (h0 : 0 ≤ t.turn) (h1 : t.turn < 1)
    (hu : u ∈ spread p t) :
    0 ≤ u.turn ∧ u.turn < 1 ∧ u.turn.den ∣ t.turn.den ∧ inTopDigit p u.turn = false ∧
      ∀ q : ℕ, q.Prime → q ≠ p → inTopDigit q u.turn = inTopDigit q t.turn := by
  unfold spread at hu
  split at hu
  · rename_i htop
    obtain ⟨c, hc, rfl⟩ := List.mem_map.1 hu
    rw [List.mem_range] at hc
    have hpQ : (0 : ℚ) < (p : ℚ) := by exact_mod_cast hp.pos
    have hx := isComponent_component hp t.turn
    set x := (component p t.turn : ℚ) / (primePart p t.turn.den : ℚ) with hxdef
    have hxtop := (inTopDigit_iff hp hx).1 htop
    set s : ℚ := t.turn + (((c + 1 : ℕ) : ℚ) / (p : ℚ)) with hs
    have hdiv : ((((c + 1 : ℕ) : ℚ) / (p : ℚ))).den ∣ p := by
      exact den_natDiv_dvd _ _
    have hsden : s.den ∣ t.turn.den := by
      have h2 := Rat.add_den_dvd_lcm t.turn (((c + 1 : ℕ) : ℚ) / (p : ℚ))
      exact h2.trans (Nat.lcm_dvd (dvd_refl _) (hdiv.trans hpt))
    refine ⟨fracTurn_nonneg _, fracTurn_lt_one _, (den_fracTurn_dvd s).trans hsden, ?_, ?_⟩
    · have hcQ : ((c + 1 : ℕ) : ℚ) + 1 ≤ (p : ℚ) := by exact_mod_cast (by omega : c + 1 + 1 ≤ p)
      have hc1 : (1 : ℚ) ≤ ((c + 1 : ℕ) : ℚ) := by exact_mod_cast (by omega : 1 ≤ c + 1)
      have hcp : ((c + 1 : ℕ) : ℚ) / p ≤ 1 - 1 / p := by
        rw [div_le_iff₀ hpQ]; field_simp; linarith
      have hcp1 : 1 / (p : ℚ) ≤ ((c + 1 : ℕ) : ℚ) / p := div_le_div_of_nonneg_right hc1 hpQ.le
      have hpp : ((p : ℚ) - 1) / p = 1 - 1 / p := by field_simp
      rw [hpp] at hxtop
      have hp1 : (0 : ℚ) < 1 / p := by positivity
      have hy : IsComponent p (fracTurn s) (x + ((c + 1 : ℕ) : ℚ) / p - 1) := by
        refine ⟨by linarith, by linarith [hx.lt_one], ?_, ?_⟩
        · obtain ⟨k, hk⟩ := hx.power
          refine ⟨k + 1, ?_⟩
          have e : x + ((c + 1 : ℕ) : ℚ) / p - 1 = (x + ((c + 1 : ℕ) : ℚ) / p) + ((-1 : ℤ) : ℚ) := by
            push_cast; ring
          rw [e, pow_succ]
          have a := Rat.add_den_dvd (x + ((c + 1 : ℕ) : ℚ) / p) ((-1 : ℤ) : ℚ)
          rw [Rat.den_intCast, mul_one] at a
          exact a.trans ((Rat.add_den_dvd _ _).trans (mul_dvd_mul hk hdiv))
        · have e : fracTurn s - (x + ((c + 1 : ℕ) : ℚ) / p - 1) = (t.turn - x) + ((1 - s.floor : ℤ) : ℚ) := by
            rw [fracTurn_eq_add, hs]; push_cast; ring
          rw [e]
          have a := Rat.add_den_dvd (t.turn - x) ((1 - s.floor : ℤ) : ℚ)
          rw [Rat.den_intCast, mul_one] at a
          exact Nat.Coprime.coprime_dvd_left a hx.rest
      rw [Bool.eq_false_iff, Ne, inTopDigit_iff hp hy, hpp]
      linarith [hx.lt_one]
    · intro q hq hqp
      have hz := isComponent_component hq t.turn
      have hmove : IsComponent q (fracTurn s)
          ((component q t.turn : ℚ) / (primePart q t.turn.den : ℚ)) := by
        have e : fracTurn s = (t.turn + (((c + 1 : ℕ) : ℚ) / (p : ℚ))) + ((-s.floor : ℤ) : ℚ) := fracTurn_eq_add s
        rw [e]
        apply IsComponent.move
        · apply hz.move
          exact Nat.Coprime.coprime_dvd_left hdiv ((Nat.coprime_primes hp hq).2 hqp.symm)
        · rw [Rat.den_intCast]; exact Nat.coprime_one_left q
      have := (inTopDigit_iff hq hmove).trans (inTopDigit_iff hq hz).symm
      exact Bool.eq_iff_iff.2 this
  · rename_i htop
    rw [List.mem_singleton] at hu
    subst hu
    exact ⟨h0, h1, dvd_refl _, by simpa using htop, fun _ _ _ => rfl⟩

/-- Where a spread at p finds the prime gone from the denominator it changes nothing. -/
theorem inTopDigit_of_not_dvd {p : ℕ} (hp : p.Prime) {r : ℚ} (h : ¬ p ∣ r.den) : inTopDigit p r = false := by
  have h1 : IsComponent p r 0 := by
    refine ⟨le_refl _, one_pos, ⟨0, by simp⟩, ?_⟩
    rw [sub_zero]
    exact ((Nat.Prime.coprime_iff_not_dvd hp).2 h).symm
  rw [Bool.eq_false_iff, Ne, inTopDigit_iff hp h1]
  have h2 : (1 : ℚ) < p := by exact_mod_cast hp.one_lt
  have h3 : 0 < ((p : ℚ) - 1) / p := div_pos (by linarith) (by linarith)
  linarith

/-- What a term of the list becomes after the primes `ps`: in [0, 1), denominators dividing n, no last part at the
primes already done. -/
def Spread (n : ℕ) (done : List ℕ) (ts : List Term) : Prop :=
  ∀ u ∈ ts, 0 ≤ u.turn ∧ u.turn < 1 ∧ u.turn.den ∣ n ∧ ∀ q ∈ done, inTopDigit q u.turn = false

theorem spread_step {n p : ℕ} (hp : p.Prime) {done : List ℕ} (hdone : ∀ q ∈ done, q.Prime) {ts : List Term}
    (h : Spread n done ts) : Spread n (p :: done) (ts.flatMap (spread p)) := by
  intro u hu
  obtain ⟨t, ht, hut⟩ := List.mem_flatMap.1 hu
  obtain ⟨h0, h1, hd, hq⟩ := h t ht
  by_cases hpt : p ∣ t.turn.den
  · obtain ⟨a, b, c, d, e⟩ := spread_turns hp hpt h0 h1 hut
    refine ⟨a, b, c.trans hd, ?_⟩
    intro q hqm
    rcases List.mem_cons.1 hqm with rfl | hqm
    · exact d
    · by_cases hqp : q = p
      · rw [hqp]; exact d
      · rw [e q (hdone q hqm) hqp]; exact hq q hqm
  · have hn := inTopDigit_of_not_dvd hp hpt
    rw [spread, hn] at hut
    simp only [Bool.false_eq_true, if_false, List.mem_singleton] at hut
    subst hut
    refine ⟨h0, h1, hd, ?_⟩
    intro q hqm
    rcases List.mem_cons.1 hqm with rfl | hqm
    · exact hn
    · exact hq q hqm

theorem spread_foldl {n : ℕ} (ps : List ℕ) (hps : ∀ p ∈ ps, p.Prime) (done : List ℕ) (hdone : ∀ q ∈ done, q.Prime)
    (ts : List Term) (h : Spread n done ts) :
    Spread n (ps ++ done) (ps.foldl (fun ts p => ts.flatMap (spread p)) ts) := by
  induction ps generalizing done ts with
  | nil => exact h
  | cons p ps ih =>
    have hp := hps p List.mem_cons_self
    have h1 := ih (fun q hq => hps q (List.mem_cons_of_mem _ hq)) (p :: done)
      (fun q hq => (List.mem_cons.1 hq).elim (fun e => e ▸ hp) (hdone q)) _ (spread_step hp hdone h)
    intro u hu
    obtain ⟨a, b, c, d⟩ := h1 u hu
    refine ⟨a, b, c, fun q hq => d q ?_⟩
    simp only [List.mem_append, List.mem_cons] at hq ⊢
    tauto

/-- Every turn a reduced term holds is a turn of the basis. -/
theorem reduceTerm_basis (t : Term) : ∀ u ∈ reduceTerm t, basisTurn u.turn = true := by
  intro u hu
  have hden : (fracTurn t.turn).den ≠ 0 := (fracTurn t.turn).den_nz
  have h := spread_foldl (n := (fracTurn t.turn).den) (primeDivisors (fracTurn t.turn).den)
    (fun p hp => ((mem_primeDivisors hden p).1 hp).1) [] (by simp) [⟨fracTurn t.turn, t.coeff⟩]
    (by
      intro u hu
      rw [List.mem_singleton] at hu
      subst hu
      exact ⟨fracTurn_nonneg _, fracTurn_lt_one _, dvd_refl _, by simp⟩)
    u hu
  obtain ⟨h0, h1, hd, hq⟩ := h
  simp only [basisTurn, Bool.and_eq_true, decide_eq_true_eq, List.all_eq_true, Bool.not_eq_eq_eq_not, Bool.not_true]
  refine ⟨⟨h0, h1⟩, fun p hp => hq p ?_⟩
  rw [mem_primeDivisors u.turn.den_nz] at hp
  rw [List.append_nil, mem_primeDivisors hden]
  exact ⟨hp.1, hp.2.trans hd⟩

/-! The canonical form -/

/-- The canonical form, as a statement about the list. -/
structure Canonical (ts : List Term) : Prop where
  rising : ts.Pairwise fun t u => t.turn < u.turn
  basis : ∀ t ∈ ts, t.coeff ≠ 0 ∧ basisTurn t.turn = true

theorem risingTurns_iff (ts : List Term) : risingTurns ts = true ↔ ts.Pairwise fun t u => t.turn < u.turn := by
  induction ts with
  | nil => simp [risingTurns]
  | cons t us ih =>
    cases us with
    | nil => simp [risingTurns]
    | cons u us =>
      simp only [risingTurns, Bool.and_eq_true, decide_eq_true_eq, ih, List.pairwise_cons, List.mem_cons]
      constructor
      · rintro ⟨h, h1, h2⟩
        refine ⟨?_, h1, h2⟩
        rintro v (rfl | hv)
        · exact h
        · exact h.trans (h1 v hv)
      · rintro ⟨h, h1, h2⟩
        exact ⟨h u (.inl rfl), h1, h2⟩

theorem canonical_iff (z : Cx) : z.canonical = true ↔ Canonical z.terms := by
  simp only [Cx.canonical, Bool.and_eq_true, risingTurns_iff, List.all_eq_true, decide_eq_true_eq]
  exact ⟨fun h => ⟨h.1, h.2⟩, fun h => ⟨h.1, h.2⟩⟩

theorem Canonical.tail {t : Term} {ts : List Term} (h : Canonical (t :: ts)) : Canonical ts :=
  ⟨(List.pairwise_cons.1 h.rising).2, fun u hu => h.basis u (List.mem_cons_of_mem _ hu)⟩

theorem addTerm_bound {r : ℚ} {t : Term} {us : List Term} (ht : r < t.turn) (hus : ∀ u ∈ us, r < u.turn) :
    ∀ u ∈ addTerm t us, r < u.turn := by
  induction us with
  | nil =>
    intro u hu
    simp only [addTerm] at hu
    split at hu
    · simp at hu
    · rw [List.mem_singleton] at hu; subst hu; exact ht
  | cons v vs ih =>
    have hv := hus v List.mem_cons_self
    have hvs := fun u hu => hus u (List.mem_cons_of_mem v hu)
    intro u hu
    simp only [addTerm] at hu
    split at hu
    · exact hus u hu
    · split at hu
      · rcases List.mem_cons.1 hu with rfl | hu
        · exact ht
        · exact hus u hu
      · split at hu
        · split at hu
          · exact hvs u hu
          · rcases List.mem_cons.1 hu with rfl | hu
            · exact hv
            · exact hvs u hu
        · rcases List.mem_cons.1 hu with rfl | hu
          · exact hv
          · exact ih hvs u hu

theorem Canonical.addTerm {t : Term} (ht : basisTurn t.turn = true) {us : List Term} (h : Canonical us) :
    Canonical (addTerm t us) := by
  induction us with
  | nil =>
    simp only [Machine.addTerm]
    split
    · exact h
    · rename_i hc
      exact ⟨by simp, by simpa using ⟨hc, ht⟩⟩
  | cons u us ih =>
    have hrise := List.pairwise_cons.1 h.rising
    have hu := h.basis u List.mem_cons_self
    have hus := fun v hv => h.basis v (List.mem_cons_of_mem u hv)
    simp only [Machine.addTerm]
    split
    · exact h
    · rename_i hc
      split
      · rename_i hlt
        refine ⟨List.pairwise_cons.2 ⟨?_, h.rising⟩, ?_⟩
        · intro v hv
          rcases List.mem_cons.1 hv with rfl | hv
          · exact hlt
          · exact hlt.trans (hrise.1 v hv)
        · intro v hv
          rcases List.mem_cons.1 hv with rfl | hv
          · exact ⟨hc, ht⟩
          · exact h.basis v hv
      · split
        · split
          · exact h.tail
          · rename_i hs
            refine ⟨List.pairwise_cons.2 ⟨hrise.1, hrise.2⟩, ?_⟩
            intro v hv
            rcases List.mem_cons.1 hv with rfl | hv
            · exact ⟨hs, hu.2⟩
            · exact hus v hv
        · rename_i hn1 hn2
          have hlt : u.turn < t.turn := lt_of_le_of_ne (not_lt.1 hn1) (Ne.symm hn2)
          have ih' := ih h.tail
          refine ⟨List.pairwise_cons.2 ⟨addTerm_bound hlt hrise.1, ih'.rising⟩, ?_⟩
          intro v hv
          rcases List.mem_cons.1 hv with rfl | hv
          · exact hu
          · exact ih'.basis v hv

theorem Canonical.foldr_addTerm {ts us : List Term} (hts : ∀ t ∈ ts, basisTurn t.turn = true) (h : Canonical us) :
    Canonical (ts.foldr Machine.addTerm us) := by
  induction ts with
  | nil => exact h
  | cons t ts ih =>
    exact Canonical.addTerm (hts t List.mem_cons_self) (ih fun u hu => hts u (List.mem_cons_of_mem t hu))

theorem canonical_nil : Canonical [] := ⟨by simp, by simp⟩

@[simp] theorem canonical_zero : Cx.zero.canonical = true := (canonical_iff _).2 canonical_nil

theorem canonical_collect {ts : List Term} (h : ∀ t ∈ ts, basisTurn t.turn = true) :
    (collect ts).canonical = true :=
  (canonical_iff _).2 (Canonical.foldr_addTerm h canonical_nil)

@[simp] theorem canonical_ofTerms (ts : List Term) : (ofTerms ts).canonical = true := by
  apply canonical_collect
  intro u hu
  obtain ⟨t, -, ht⟩ := List.mem_flatMap.1 hu
  exact reduceTerm_basis t u ht

theorem basisTurn_zero : basisTurn 0 = true := by decide +kernel

theorem basisTurn_quarter : basisTurn (1 / 4) = true := by decide +kernel

@[simp] theorem canonical_ofRat (x : ℚ) : (Cx.ofRat x).canonical = true :=
  canonical_collect (by simp [basisTurn_zero])

@[simp] theorem canonical_one : Cx.one.canonical = true := canonical_ofRat 1

@[simp] theorem canonical_ofParts (x y : ℚ) : (Cx.ofParts x y).canonical = true :=
  canonical_collect (by
    intro t ht
    rcases List.mem_cons.1 ht with rfl | ht
    · exact basisTurn_zero
    · rw [List.mem_singleton] at ht; subst ht; exact basisTurn_quarter)

@[simp] theorem canonical_cis (r : ℚ) : (Cx.cis r).canonical = true := canonical_collect (reduceTerm_basis _)

theorem canonical_add {x y : Cx} (hx : x.canonical = true) (hy : y.canonical = true) :
    (Cx.add x y).canonical = true :=
  (canonical_iff _).2 (Canonical.foldr_addTerm (fun t ht => (((canonical_iff x).1 hx).basis t ht).2)
    ((canonical_iff y).1 hy))

theorem canonical_scale (q : ℚ) {x : Cx} (hx : x.canonical = true) : (Cx.scale q x).canonical = true := by
  unfold Cx.scale
  split
  · exact canonical_zero
  · rename_i hq
    have h := (canonical_iff x).1 hx
    refine (canonical_iff _).2 ⟨?_, ?_⟩
    · exact List.pairwise_map.2 h.rising
    · intro u hu
      obtain ⟨t, ht, rfl⟩ := List.mem_map.1 hu
      exact ⟨mul_ne_zero hq (h.basis t ht).1, (h.basis t ht).2⟩

theorem canonical_neg {x : Cx} (hx : x.canonical = true) : (Cx.neg x).canonical = true := canonical_scale _ hx

theorem canonical_sub {x y : Cx} (hx : x.canonical = true) (hy : y.canonical = true) :
    (Cx.sub x y).canonical = true := canonical_add hx (canonical_neg hy)

@[simp] theorem canonical_mul (x y : Cx) : (Cx.mul x y).canonical = true := canonical_ofTerms _

@[simp] theorem canonical_galois (a : ℤ) (x : Cx) : (Cx.galois a x).canonical = true := canonical_ofTerms _

@[simp] theorem canonical_conj (x : Cx) : (Cx.conj x).canonical = true := canonical_ofTerms _

@[simp] theorem canonical_abs2 (x : Cx) : (Cx.abs2 x).canonical = true := canonical_ofTerms _

@[simp] theorem canonical_div (z w : Cx) : (Cx.div z w).canonical = true := canonical_ofTerms _

theorem canonical_re {z : Cx} (hz : z.canonical = true) : z.re.canonical = true :=
  canonical_scale _ (canonical_add hz (canonical_conj z))

theorem canonical_im (z : Cx) : z.im.canonical = true := canonical_re (canonical_mul _ _)

theorem canonical_sum {zs : List Cx} (h : ∀ z ∈ zs, z.canonical = true) : (Cx.sum zs).canonical = true := by
  induction zs with
  | nil => exact canonical_zero
  | cons z zs ih =>
    exact canonical_add (h z List.mem_cons_self) (ih fun w hw => h w (List.mem_cons_of_mem z hw))

end Sys2Proof.Machine
end

