-- ==== Sys2Proof/Laws/State.lean ====
section
/-! SUPPORT. One lemma per field per update of the state, so that no later proof unfolds a record update; what a buffer
reads as after a write; the state after reset field by field. -/

namespace Sys2Proof.Machine

/-! `CoreState.raise` -/

@[simp] theorem CoreState.raise_bufs (c : CoreState) (w : Word) (r : Raise) :
    (c.raise w r).bufs = c.bufs := rfl

@[simp] theorem CoreState.raise_staging (c : CoreState) (w : Word) (r : Raise) :
    (c.raise w r).staging = c.staging := rfl

@[simp] theorem CoreState.raise_constel (c : CoreState) (w : Word) (r : Raise) :
    (c.raise w r).constel = c.constel := rfl

@[simp] theorem CoreState.raise_frame (c : CoreState) (w : Word) (r : Raise) :
    (c.raise w r).frame = c.frame := rfl

@[simp] theorem CoreState.raise_fault (c : CoreState) (w : Word) (r : Raise) :
    (c.raise w r).fault = some ⟨r.cause, w, BitVec.ofNat 32 r.info⟩ := rfl

@[simp] theorem CoreState.raise_cseq (c : CoreState) (w : Word) (r : Raise) :
    (c.raise w r).cseq = c.cseq := rfl

@[simp] theorem CoreState.raise_syncoff (c : CoreState) (w : Word) (r : Raise) :
    (c.raise w r).syncoff = c.syncoff := rfl

@[simp] theorem CoreState.raise_svalid (c : CoreState) (w : Word) (r : Raise) :
    (c.raise w r).svalid = c.svalid := rfl

/-! `CoreState.clearFault` -/

@[simp] theorem CoreState.clearFault_bufs (c : CoreState) :
    (c.clearFault).bufs = c.bufs := rfl

@[simp] theorem CoreState.clearFault_staging (c : CoreState) :
    (c.clearFault).staging = c.staging := rfl

@[simp] theorem CoreState.clearFault_constel (c : CoreState) :
    (c.clearFault).constel = c.constel := rfl

@[simp] theorem CoreState.clearFault_frame (c : CoreState) :
    (c.clearFault).frame = c.frame := rfl

@[simp] theorem CoreState.clearFault_fault (c : CoreState) :
    (c.clearFault).fault = none := rfl

@[simp] theorem CoreState.clearFault_cseq (c : CoreState) :
    (c.clearFault).cseq = c.cseq := rfl

@[simp] theorem CoreState.clearFault_syncoff (c : CoreState) :
    (c.clearFault).syncoff = c.syncoff := rfl

@[simp] theorem CoreState.clearFault_svalid (c : CoreState) :
    (c.clearFault).svalid = c.svalid := rfl

/-! `CoreState.done` -/

@[simp] theorem CoreState.done_bufs (c : CoreState) :
    (c.done).bufs = c.bufs := rfl

@[simp] theorem CoreState.done_staging (c : CoreState) :
    (c.done).staging = c.staging := rfl

@[simp] theorem CoreState.done_constel (c : CoreState) :
    (c.done).constel = c.constel := rfl

@[simp] theorem CoreState.done_frame (c : CoreState) :
    (c.done).frame = c.frame := rfl

@[simp] theorem CoreState.done_fault (c : CoreState) :
    (c.done).fault = c.fault := rfl

@[simp] theorem CoreState.done_cseq (c : CoreState) :
    (c.done).cseq = c.cseq + 1 := rfl

@[simp] theorem CoreState.done_syncoff (c : CoreState) :
    (c.done).syncoff = c.syncoff := rfl

@[simp] theorem CoreState.done_svalid (c : CoreState) :
    (c.done).svalid = c.svalid := rfl

/-! `CoreState.writeBuf` -/

theorem CoreState.writeBuf_bufs (c : CoreState) (b : BufIdx) (d : Buffer) :
    (c.writeBuf b d).bufs = c.bufs.set b d := rfl

@[simp] theorem CoreState.writeBuf_staging (c : CoreState) (b : BufIdx) (d : Buffer) :
    (c.writeBuf b d).staging = c.staging := rfl

@[simp] theorem CoreState.writeBuf_constel (c : CoreState) (b : BufIdx) (d : Buffer) :
    (c.writeBuf b d).constel = c.constel := rfl

@[simp] theorem CoreState.writeBuf_frame (c : CoreState) (b : BufIdx) (d : Buffer) :
    (c.writeBuf b d).frame = c.frame := rfl

@[simp] theorem CoreState.writeBuf_fault (c : CoreState) (b : BufIdx) (d : Buffer) :
    (c.writeBuf b d).fault = c.fault := rfl

@[simp] theorem CoreState.writeBuf_cseq (c : CoreState) (b : BufIdx) (d : Buffer) :
    (c.writeBuf b d).cseq = c.cseq := rfl

@[simp] theorem CoreState.writeBuf_syncoff (c : CoreState) (b : BufIdx) (d : Buffer) :
    (c.writeBuf b d).syncoff = c.syncoff := rfl

@[simp] theorem CoreState.writeBuf_svalid (c : CoreState) (b : BufIdx) (d : Buffer) :
    (c.writeBuf b d).svalid = c.svalid := rfl

/-! Buffers -/

/-- A buffer reads as what was last written to it, and a write to another leaves it. -/
@[simp] theorem CoreState.writeBuf_get (c : CoreState) (b b' : BufIdx) (d : Buffer) :
    (c.writeBuf b d).bufs[b'.val] = if b = b' then d else c.bufs[b'.val] := by
  have h : (c.bufs.set b d)[b'.val] = if b.val = b'.val then d else c.bufs[b'.val] :=
    Vector.getElem_set b.isLt b'.isLt
  simpa [CoreState.writeBuf, Fin.ext_iff] using h

theorem CoreState.writeBuf_get_same (c : CoreState) (b : BufIdx) (d : Buffer) : (c.writeBuf b d).bufs[b] = d := by simp

theorem CoreState.writeBuf_get_other (c : CoreState) {b b' : BufIdx} (h : b ≠ b') (d : Buffer) :
    (c.writeBuf b d).bufs[b'] = c.bufs[b'] := by simp [h]

/-! `State.answer` and `State.withFetchWord` -/

@[simp] theorem State.answer_core (s : State) (r : HostReply) : (s.answer r).core = s.core := rfl

@[simp] theorem State.answer_script (s : State) (r : HostReply) : (s.answer r).script = s.script.tail := rfl

@[simp] theorem State.answer_replies (s : State) (r : HostReply) : (s.answer r).replies = s.replies ++ [r] := rfl

@[simp] theorem State.withFetchWord_core (s : State) (nbits w : Nat) : (s.withFetchWord nbits w).core = s.core := rfl

@[simp] theorem State.withFetchWord_script (s : State) (nbits w : Nat) :
    (s.withFetchWord nbits w).script = .csrWrite Csr.cmd.index (tableWord nbits w) :: s.script := rfl

@[simp] theorem State.withFetchWord_replies (s : State) (nbits w : Nat) :
    (s.withFetchWord nbits w).replies = s.replies := rfl

/-! The state after reset -/

@[simp] theorem CoreState.reset_buf (b : BufIdx) : CoreState.reset.bufs[b.val] = .none := by
  revert b; decide

@[simp] theorem CoreState.reset_staging : CoreState.reset.staging = Staging.reset := rfl

@[simp] theorem CoreState.reset_constel : CoreState.reset.constel = none := rfl

@[simp] theorem CoreState.reset_frame : CoreState.reset.frame = none := rfl

@[simp] theorem CoreState.reset_fault : CoreState.reset.fault = none := rfl

@[simp] theorem CoreState.reset_cseq : CoreState.reset.cseq = 0 := rfl

@[simp] theorem CoreState.reset_syncoff : CoreState.reset.syncoff = 0 := rfl

@[simp] theorem CoreState.reset_svalid : CoreState.reset.svalid = false := rfl

@[simp] theorem State.reset_core : State.reset.core = CoreState.reset := rfl

@[simp] theorem State.reset_script : State.reset.script = [] := rfl

@[simp] theorem State.reset_replies : State.reset.replies = [] := rfl

end Sys2Proof.Machine
end

