-- ==== Sys2Proof/Laws/Ops.lean ====
section
/-! SUPPORT. What each shared operation can do: the parameters, carrying out a command, its checks and operands, the
control registers, and the port. -/

namespace Sys2Proof.Machine

/-! Parameters (R5) -/

theorem fitsCap_of_le_64 {n : Nat} (h : n ≤ 64) : Config.fitsCap n = true := by simp [Config.fitsCap, h]

/-- What is no longer than something that fits, fits. -/
theorem fitsCap_mono {m n : Nat} (h : m ≤ n) (hn : Config.fitsCap n = true) : Config.fitsCap m = true := by
  unfold Config.fitsCap at hn ⊢
  cases hc : Config.capSlack with
  | none => simp
  | some k =>
    rw [hc] at hn
    simp only [Bool.or_eq_true, decide_eq_true_eq] at hn ⊢
    omega

/-- Where `CAP` is `64 + k`, nothing longer fits. -/
theorem fitsCap_of_slack {k n : Nat} (h : Config.capSlack = some k) (hn : 64 + k < n) : Config.fitsCap n = false := by
  simp [Config.fitsCap, h]
  omega

/-- Where `ORDER_MAX` is `64 * 2^k`, no greater order fits. -/
theorem fitsOrder_of_slack {k n : Nat} (h : Config.orderSlack = some k) (hn : 64 * 2 ^ k < n) :
    Config.fitsOrder n = false := by
  have : 64 ≤ 64 * 2 ^ k := Nat.le_mul_of_pos_right 64 (Nat.two_pow_pos k)
  simp [Config.fitsOrder, h]
  omega

theorem fitsOrder_of_le_64 {n : Nat} (h : n ≤ 64) : Config.fitsOrder n = true := by simp [Config.fitsOrder, h]

/-! Sums and blocks over a list of indices -/

/-- A sum over a list of indices is the sum over the indices. -/
theorem sum_map_range {M : Type} [AddCommMonoid M] (n : ℕ) (f : ℕ → M) :
    ((List.range n).map f).sum = ∑ i ∈ Finset.range n, f i := by
  induction n with
  | zero => simp
  | succ n ih => rw [List.range_succ, List.map_append, List.sum_append, ih, Finset.sum_range_succ]; simp

/-- A sequence made of blocks of one length has the length of all of them. -/
theorem flatMap_range_length {α : Type} (f : ℕ → List α) (t n : ℕ) (h : ∀ q, q < n → (f q).length = t) :
    ((List.range n).flatMap f).length = n * t := by
  induction n with
  | zero => simp
  | succ n ih =>
    rw [List.range_succ, List.flatMap_append, List.length_append, ih fun q hq => h q (by omega)]
    simp [h n (by omega)]
    ring

/-- Element `q*t + j` of a sequence made of blocks of length t is element j of block q (R7). -/
theorem flatMap_range_get? {α : Type} (f : ℕ → List α) (t n : ℕ) (h : ∀ q, q < n → (f q).length = t) {q j : ℕ}
    (hq : q < n) (hj : j < t) : ((List.range n).flatMap f)[q * t + j]? = (f q)[j]? := by
  induction n with
  | zero => omega
  | succ n ih =>
    have hl := flatMap_range_length f t n fun q hq => h q (by omega)
    rw [List.range_succ, List.flatMap_append]
    by_cases hqn : q < n
    · have hlt : q * t + j < n * t := by
        calc q * t + j < q * t + t := by omega
          _ = (q + 1) * t := by ring
          _ ≤ n * t := Nat.mul_le_mul_right t (by omega)
      rw [List.getElem?_append_left (by rw [hl]; exact hlt)]
      exact ih (fun q hq => h q (by omega)) hqn
    · have hqe : q = n := by omega
      subst hqe
      rw [List.getElem?_append_right (by rw [hl]; omega), hl]
      simp

/-- Element `q*t + j` of the blocks made from the elements of a sequence. -/
theorem flatMap_get? {α β : Type} (f : α → List β) (t : ℕ) (l : List α) (h : ∀ a ∈ l, (f a).length = t) {q j : ℕ}
    (hq : q < l.length) (hj : j < t) : (l.flatMap f)[q * t + j]? = (f l[q])[j]? := by
  induction l generalizing q with
  | nil => simp at hq
  | cons a l ih =>
    have ha := h a List.mem_cons_self
    rw [List.flatMap_cons]
    cases q with
    | zero => rw [List.getElem?_append_left (by rw [ha]; omega)]; simp
    | succ q =>
      have e : (q + 1) * t + j = t + (q * t + j) := by ring
      rw [List.getElem?_append_right (by rw [ha, e]; omega), ha, e, Nat.add_sub_cancel_left]
      exact ih (fun b hb => h b (List.mem_cons_of_mem a hb)) (by simpa using hq)

/-! Carrying out a command (R205 to R208) -/

theorem carryOut_refused {c : CoreState} {r : FaultRecord} (h : c.fault = some r) (w : Word) (rule : Rule) :
    c.carryOut w rule = c := by simp [CoreState.carryOut, h]

theorem carryOut_ok {c c' : CoreState} {rule : Rule} (h : c.fault = none) (hr : rule c = .ok c') (w : Word) :
    c.carryOut w rule = c'.done := by simp [CoreState.carryOut, h, hr]

theorem carryOut_error {c : CoreState} {rule : Rule} {r : Raise} (h : c.fault = none) (hr : rule c = .error r) (w : Word) :
    c.carryOut w rule = c.raise w r := by simp [CoreState.carryOut, h, hr]

/-- Everything a command can do to CORE: it is refused, completes, or faults. -/
theorem carryOut_cases (c : CoreState) (w : Word) (rule : Rule) :
    (∃ r, c.fault = some r ∧ c.carryOut w rule = c) ∨
    (∃ c', c.fault = none ∧ rule c = .ok c' ∧ c.carryOut w rule = c'.done) ∨
    (∃ r, c.fault = none ∧ rule c = .error r ∧ c.carryOut w rule = c.raise w r) := by
  cases hf : c.fault with
  | some r => exact .inl ⟨r, rfl, carryOut_refused hf w rule⟩
  | none =>
    cases hr : rule c with
    | ok c' => exact .inr (.inl ⟨c', rfl, rfl, carryOut_ok hf hr w⟩)
    | error r => exact .inr (.inr ⟨r, rfl, rfl, carryOut_error hf hr w⟩)

theorem state_carryOut (s : State) (w : Word) (rule : Rule) :
    s.carryOut w rule = .next { s with core := s.core.carryOut w rule } := rfl

/-! Checks -/

@[simp] theorem require_ok_iff {p : Prop} [Decidable p] {r : Raise} {u : Unit} : require p r = .ok u ↔ p := by
  unfold require; split <;> simp_all

@[simp] theorem require_error_iff {p : Prop} [Decidable p] {r e : Raise} : require p r = .error e ↔ ¬p ∧ r = e := by
  unfold require; split <;> simp_all

theorem require_of {p : Prop} [Decidable p] (h : p) (r : Raise) : require p r = .ok () := if_pos h

theorem require_of_not {p : Prop} [Decidable p] (h : ¬p) (r : Raise) : require p r = .error r := if_neg h

theorem bind_ok_iff {α β : Type} {x : Except Raise α} {f : α → Except Raise β} {b : β} :
    (x >>= f) = .ok b ↔ ∃ a, x = .ok a ∧ f a = .ok b := by
  cases x <;> simp [bind, Except.bind]

theorem bind_error_iff {α β : Type} {x : Except Raise α} {f : α → Except Raise β} {e : Raise} :
    (x >>= f) = .error e ↔ x = .error e ∨ ∃ a, x = .ok a ∧ f a = .error e := by
  cases x <;> simp [bind, Except.bind]

@[simp] theorem ok_bind {α β : Type} (a : α) (f : α → Except Raise β) : ((Except.ok a : Except Raise α) >>= f) = f a := rfl

@[simp] theorem error_bind {α β : Type} (e : Raise) (f : α → Except Raise β) :
    ((Except.error e : Except Raise α) >>= f) = .error e := rfl

theorem pure_ok {α : Type} (a : α) : (pure a : Except Raise α) = .ok a := rfl

/-! Operands (R24, R205) -/

theorem sourceBits_ok_iff {c : CoreState} {n : Nat} {b : BufIdx} {d : List Bool} :
    c.sourceBits n b = .ok d ↔ c.bufs[b] = .bits d := by
  unfold CoreState.sourceBits
  cases c.bufs[b] <;> simp

theorem sourceCplx_ok_iff {c : CoreState} {n : Nat} {b : BufIdx} {d : List Cx} :
    c.sourceCplx n b = .ok d ↔ c.bufs[b] = .cplx d := by
  unfold CoreState.sourceCplx
  cases c.bufs[b] <;> simp

theorem sourceBits_error_iff {c : CoreState} {n : Nat} {b : BufIdx} {e : Raise} :
    c.sourceBits n b = .error e ↔ (∀ d, c.bufs[b] ≠ .bits d) ∧ e = ⟨.badOperand, n⟩ := by
  unfold CoreState.sourceBits
  cases c.bufs[b] <;> simp [eq_comm]

theorem sourceCplx_error_iff {c : CoreState} {n : Nat} {b : BufIdx} {e : Raise} :
    c.sourceCplx n b = .error e ↔ (∀ d, c.bufs[b] ≠ .cplx d) ∧ e = ⟨.badOperand, n⟩ := by
  unfold CoreState.sourceCplx
  cases c.bufs[b] <;> simp [eq_comm]

theorem needOrder_ok_iff {c : CoreState} {o : Nat} :
    c.needOrder = .ok o ↔ ∃ k, c.constel = some k ∧ k.order.toNat = o := by
  unfold CoreState.needOrder
  cases c.constel <;> simp

theorem needOrder_error_iff {c : CoreState} {e : Raise} :
    c.needOrder = .error e ↔ c.constel = none ∧ e = ⟨.notConfigured, 1⟩ := by
  unfold CoreState.needOrder
  cases c.constel <;> simp [eq_comm]

theorem needFrame_ok_iff {c : CoreState} {f : Frame} : c.needFrame = .ok f ↔ c.frame = some f := by
  unfold CoreState.needFrame
  cases c.frame <;> simp

theorem needFrame_error_iff {c : CoreState} {e : Raise} :
    c.needFrame = .error e ↔ c.frame = none ∧ e = ⟨.notConfigured, 2⟩ := by
  unfold CoreState.needFrame
  cases c.frame <;> simp [eq_comm]

theorem piece_length {α : Type} (a : List α) (i n : Nat) (h : i + n ≤ a.length) : (piece a i n).length = n := by
  simp [piece]; omega

theorem piece_get? {α : Type} (a : List α) (i n j : Nat) (h : j < n) : (piece a i n)[j]? = a[i + j]? := by
  simp [piece, h]

theorem elemAt_piece (a : List Cx) (i n j : Nat) (h : j < n) : elemAt (piece a i n) j = elemAt a (i + j) := by
  simp only [elemAt, List.getD_eq_getElem?_getD, piece_get? a i n j h]

theorem mem_piece {α : Type} {a : List α} {i n : Nat} {x : α} (h : x ∈ piece a i n) : x ∈ a :=
  List.mem_of_mem_drop (List.mem_of_mem_take h)

/-! The control-register map (R30) -/

/-- Each register stands at its own index. -/
theorem ofIndex_index (r : Csr) : Csr.ofIndex r.index = some r := by
  cases r with
  | bkind b => revert b; decide
  | blen b => revert b; decide
  | _ => rfl

theorem index_ofIndex {i : Nat} {r : Csr} (h : Csr.ofIndex i = some r) : r.index = i := by
  unfold Csr.ofIndex at h
  split at h
  any_goals (cases h; rfl)
  split at h
  · rename_i hr
    split at h
    · cases h; simp only [Csr.index]; omega
    · cases h; simp only [Csr.index]; omega
  · cases h

/-- The reserved indices (R40). -/
theorem ofIndex_none_iff (i : Nat) : Csr.ofIndex i = none ↔ i = 7 ∨ (21 ≤ i ∧ i ≤ 31) ∨ 48 ≤ i := by
  by_cases h : i < 48
  · revert i; decide
  · have hs : ∀ r, Csr.ofIndex i ≠ some r := by
      intro r hr
      have := index_ofIndex hr
      have hb : r.index < 48 := by
        cases r with
        | bkind b => have := b.isLt; simp only [Csr.index]; omega
        | blen b => have := b.isLt; simp only [Csr.index]; omega
        | _ => simp [Csr.index]
      omega
    cases hc : Csr.ofIndex i with
    | none => simp; omega
    | some r => exact absurd hc (hs r)

theorem readIndex_index (c : CoreState) (r : Csr) : c.readIndex r.index = c.readCsr r := by
  simp [CoreState.readIndex, ofIndex_index]

theorem writeIndex_index (c : CoreState) (r : Csr) (w : Word) : c.writeIndex r.index w = c.writeCsr w r := by
  simp [CoreState.writeIndex, ofIndex_index]

/-- A register write other than to `CMD` leaves the buffers, the halves, the counters and the offset unless it resets. -/
theorem writeCsr_cases (c : CoreState) (w : Word) (r : Csr) :
    (r = .ctrl ∧ w.getLsbD 1 = true ∧ c.writeCsr w r = CoreState.reset) ∨
    (r = .ctrl ∧ c.writeCsr w r = c.clearFault) ∨
    (∃ g, c.writeCsr w r = { c with staging := g }) := by
  cases r
  case ctrl =>
    simp only [CoreState.writeCsr, CoreState.writeCtrl, true_and]
    split
    · exact .inl ⟨by assumption, rfl⟩
    · split
      · exact .inr (.inl rfl)
      · exact .inr (.inr ⟨c.staging, rfl⟩)
  all_goals exact .inr (.inr ⟨_, rfl⟩)

/-! The commands as rules -/

/-- The rule of a command. -/
def ruleOf : Instr → Rule
  | .nop => nopRule
  | .cbuild => cbuildRule
  | .fbuild => fbuildRule
  | .qmod rd rs1 => qmodRule rd rs1
  | .qdem rd rs1 => qdemRule rd rs1
  | .oftx rd rs1 => oftxRule rd rs1
  | .ofrx rd rs1 => ofrxRule rd rs1
  | .chest rd rs1 => chestRule rd rs1
  | .eq rd rs1 rs2 => eqRule rd rs1 rs2
  | .xcorr rd rs1 rs2 rs3 => xcorrRule rd rs1 rs2 rs3

/-- Every command is its rule, carried out. -/
theorem exec_eq (i : Instr) (s : State) :
    exec i s = .next { s with core := s.core.carryOut (encode i) (ruleOf i) } := by
  cases i <;> rfl

theorem exec_ok {i : Instr} {s : State} {c : CoreState} (hf : s.core.fault = none) (h : ruleOf i s.core = .ok c) :
    exec i s = .next { s with core := c.done } := by
  rw [exec_eq, carryOut_ok hf h]

/-- A command whose rule writes `c`, which no rule gives another `CSEQ`, completes with it (R206). -/
theorem exec_completed {i : Instr} {s : State} {c : CoreState} (hf : s.core.fault = none) (h : ruleOf i s.core = .ok c)
    (hc : c.cseq = s.core.cseq) : exec i s = .next (s.completed c) := by
  rw [exec_ok hf h]
  simp [State.completed, CoreState.done, hc]

theorem exec_error {i : Instr} {s : State} {r : Raise} (hf : s.core.fault = none) (h : ruleOf i s.core = .error r) :
    exec i s = .next (s.faulted (encode i) r.cause (BitVec.ofNat 32 r.info)) := by
  rw [exec_eq, carryOut_error hf h]
  rfl

theorem exec_refused {i : Instr} {s : State} {r : FaultRecord} (hf : s.core.fault = some r) : exec i s = .next s := by
  rw [exec_eq, carryOut_refused hf]

/-! What each rule writes -/

theorem nopRule_ok {c c' : CoreState} (h : nopRule c = .ok c') : c' = c := by
  simp only [nopRule, Except.ok.injEq] at h; exact h.symm

theorem cbuildRule_ok {c c' : CoreState} (h : cbuildRule c = .ok c') :
    (2 ≤ c.staging.order.toNat ∧ isPowerOfTwo c.staging.order.toNat = true) ∧
      Config.fitsOrder c.staging.order.toNat = true ∧ c' = { c with constel := some ⟨c.staging.order⟩ } := by
  simp only [cbuildRule, bind_ok_iff, require_ok_iff, pure_ok, Except.ok.injEq] at h
  obtain ⟨-, h1, -, h2, rfl⟩ := h
  exact ⟨h1, h2, rfl⟩

theorem fbuildRule_ok {c c' : CoreState} (h : fbuildRule c = .ok c') :
    c.staging.nsc.toNat ≠ 0 ∧ c.staging.gtype.toNat ≤ 2 ∧
      ¬((c.staging.gtype.toNat = 1 ∨ c.staging.gtype.toNat = 2) ∧ c.staging.nsc.toNat < c.staging.ng.toNat) ∧
      c' = { c with frame := some ⟨c.staging.nsc, c.staging.ng, guardOfCode c.staging.gtype.toNat⟩ } := by
  simp only [fbuildRule, bind_ok_iff, require_ok_iff, pure_ok, Except.ok.injEq] at h
  obtain ⟨-, h1, -, h2, -, h3, rfl⟩ := h
  exact ⟨h1, h2, h3, rfl⟩

theorem qmodRule_ok {c c' : CoreState} {rd rs1 : BufIdx} (h : qmodRule rd rs1 c = .ok c') :
    ∃ k b, c.constel = some k ∧ c.bufs[rs1] = .bits b ∧ b.length % bpsOf k.order.toNat = 0 ∧
      c' = c.writeBuf rd (.cplx (modulate k.order.toNat b)) := by
  simp only [qmodRule, bind_ok_iff, require_ok_iff, pure_ok, Except.ok.injEq, needOrder_ok_iff, sourceBits_ok_iff] at h
  obtain ⟨_, ⟨k, hk, rfl⟩, b, hb, -, h1, rfl⟩ := h
  exact ⟨k, b, hk, hb, h1, rfl⟩

theorem qdemRule_ok {c c' : CoreState} {rd rs1 : BufIdx} (h : qdemRule rd rs1 c = .ok c') :
    ∃ k z, c.constel = some k ∧ c.bufs[rs1] = .cplx z ∧
      Config.fitsCap (z.length * bpsOf k.order.toNat) = true ∧
      c' = c.writeBuf rd (.bits (demodulate k.order.toNat z)) := by
  simp only [qdemRule, bind_ok_iff, require_ok_iff, pure_ok, Except.ok.injEq, needOrder_ok_iff, sourceCplx_ok_iff] at h
  obtain ⟨_, ⟨k, hk, rfl⟩, z, hz, -, h1, rfl⟩ := h
  exact ⟨k, z, hk, hz, h1, rfl⟩

theorem oftxRule_ok {c c' : CoreState} {rd rs1 : BufIdx} (h : oftxRule rd rs1 c = .ok c') :
    ∃ f xs, c.frame = some f ∧ c.bufs[rs1] = .cplx xs ∧ xs.length % f.size = 0 ∧
      Config.fitsCap (xs.length / f.size * f.block) = true ∧ c' = c.writeBuf rd (.cplx (framed f xs)) := by
  simp only [oftxRule, bind_ok_iff, require_ok_iff, pure_ok, Except.ok.injEq, needFrame_ok_iff, sourceCplx_ok_iff] at h
  obtain ⟨f, hf, xs, hx, -, h1, -, h2, rfl⟩ := h
  exact ⟨f, xs, hf, hx, h1, h2, rfl⟩

theorem ofrxRule_ok {c c' : CoreState} {rd rs1 : BufIdx} (h : ofrxRule rd rs1 c = .ok c') :
    ∃ f ys, c.frame = some f ∧ c.bufs[rs1] = .cplx ys ∧ c' = c.writeBuf rd (.cplx (deframed f ys)) := by
  simp only [ofrxRule, bind_ok_iff, pure_ok, Except.ok.injEq, needFrame_ok_iff, sourceCplx_ok_iff] at h
  obtain ⟨f, hf, ys, hy, rfl⟩ := h
  exact ⟨f, ys, hf, hy, rfl⟩

theorem chestRule_ok {c c' : CoreState} {rd rs1 : BufIdx} (h : chestRule rd rs1 c = .ok c') :
    (∃ d, c.bufs[rs1] = .cplx d) ∧
      ((c.staging.estsel.toNat = 0 ∧ ∃ f, c.frame = some f ∧ Config.fitsCap f.size = true ∧
          c' = c.writeBuf rd (.cplx (List.replicate f.size Cx.one))) ∨
        (c.staging.estsel.toNat = 1 ∧ c' = c.writeBuf rd (.cplx [Cx.one]))) := by
  simp only [chestRule, bind_ok_iff, require_ok_iff, sourceCplx_ok_iff] at h
  obtain ⟨d, hd, -, he, h⟩ := h
  refine ⟨⟨d, hd⟩, ?_⟩
  split at h
  · rename_i h0
    simp only [bind_ok_iff, require_ok_iff, needFrame_ok_iff, pure_ok, Except.ok.injEq] at h
    obtain ⟨f, hf, -, h1, rfl⟩ := h
    exact .inl ⟨h0, f, hf, h1, rfl⟩
  · simp only [pure_ok, Except.ok.injEq] at h
    exact .inr ⟨by omega, h.symm⟩

/-- The gain test passes exactly when there is nothing to divide or no gain is 0 (R167). -/
theorem requireGain_ok_iff {z g : List Cx} {u : Unit} : requireGain z g = .ok u ↔ z.length = 0 ∨ Cx.zero ∉ g := by
  unfold requireGain
  cases h : g.findIdx? (fun x => x = Cx.zero) with
  | none =>
    rw [List.findIdx?_eq_none_iff] at h
    simp only [true_iff]
    right
    intro hm
    have := h Cx.zero hm
    simp at this
  | some k =>
    simp only [require_ok_iff]
    rw [List.findIdx?_eq_some_iff_getElem] at h
    obtain ⟨hk, hz, -⟩ := h
    have hm : Cx.zero ∈ g := by
      have e : g[k] = Cx.zero := by simpa using hz
      rw [← e]; exact List.getElem_mem hk
    constructor
    · exact .inl
    · rintro (h | h)
      · exact h
      · exact absurd hm h

theorem eqRule_ok {c c' : CoreState} {rd rs1 rs2 : BufIdx} (h : eqRule rd rs1 rs2 c = .ok c') :
    ∃ z g, c.bufs[rs1] = .cplx z ∧ c.bufs[rs2] = .cplx g ∧ (z.length = 0 ∨ Cx.zero ∉ g) ∧
      ((g.length = 1 ∧ c' = c.writeBuf rd (.cplx (equalized 1 z g))) ∨
        (g.length ≠ 1 ∧ ∃ f, c.frame = some f ∧ g.length = f.size ∧ z.length % f.size = 0 ∧
          c' = c.writeBuf rd (.cplx (equalized f.size z g)))) := by
  simp only [eqRule, bind_ok_iff, sourceCplx_ok_iff] at h
  obtain ⟨z, hz, g, hg, h⟩ := h
  refine ⟨z, g, hz, hg, ?_⟩
  split at h
  · rename_i h1
    simp only [bind_ok_iff, requireGain_ok_iff, pure_ok, Except.ok.injEq] at h
    obtain ⟨-, h2, rfl⟩ := h
    exact ⟨h2, .inl ⟨h1, rfl⟩⟩
  · rename_i h1
    simp only [bind_ok_iff, requireGain_ok_iff, require_ok_iff, needFrame_ok_iff, pure_ok, Except.ok.injEq] at h
    obtain ⟨f, hf, -, h2, -, h3, -, h4, rfl⟩ := h
    exact ⟨h4, .inr ⟨h1, f, hf, h2, h3, rfl⟩⟩

/-- The search of either strategy: the peak of the whole sequence, or of the window of the grid (R185, R186). -/
theorem searchPeak_ok {g : Staging} {c : List Cx} {m : Nat} {pk : Nat × Int} (h : searchPeak g c m = .ok pk) :
    (g.syncsel.toNat = 0 ∧ pk = (argmaxAbs c c.length, (argmaxAbs c c.length : Int) - (m : Int))) ∨
      (g.syncsel.toNat ≠ 0 ∧ g.sflen.toNat ≠ 0 ∧ g.srows.toNat ≠ 0 ∧ g.srows.toNat * g.sflen.toNat ≤ c.length ∧
        pk = (argmaxAbs c (g.srows.toNat * g.sflen.toNat), (argmaxAbs c (g.srows.toNat * g.sflen.toNat) : Int))) := by
  unfold searchPeak at h
  split at h
  · rename_i h0
    simp only [Except.ok.injEq] at h
    exact .inl ⟨h0, h.symm⟩
  · rename_i h0
    simp only [bind_ok_iff, require_ok_iff, pure_ok, Except.ok.injEq] at h
    obtain ⟨-, h1, -, h2, rfl⟩ := h
    exact .inr ⟨h0, h1, h2.1, h2.2, rfl⟩

theorem xcorrRule_ok {c c' : CoreState} {rd rs1 rs2 rs3 : BufIdx} (h : xcorrRule rd rs1 rs2 rs3 c = .ok c') :
    ∃ rx ref ev pk, c.bufs[rs1] = .cplx rx ∧ c.bufs[rs2] = .cplx ref ∧ c.bufs[rs3] = .cplx ev ∧
      c.staging.syncsel.toNat ≤ 1 ∧ ev.length = 1 ∧ ref.length ≠ 0 ∧ ref.length ≤ rx.length ∧
      searchPeak c.staging (correlation rx ref) ref.length = .ok pk ∧
      (-(2 ^ 31) ≤ pk.2 ∧ pk.2 ≤ 2 ^ 31 - 1) ∧ elemAt (correlation rx ref) pk.1 ≠ Cx.zero ∧
      c' = { c.writeBuf rd (.cplx [Cx.div (elemAt ev 0) (elemAt (correlation rx ref) pk.1)]) with
        syncoff := BitVec.ofInt 32 pk.2, svalid := true } := by
  simp only [xcorrRule, bind_ok_iff, require_ok_iff, sourceCplx_ok_iff, pure_ok, Except.ok.injEq] at h
  obtain ⟨rx, h1, ref, h2, ev, h3, -, h4, -, h5, -, h6, -, h7, pk, h8, -, h9, -, h10, rfl⟩ := h
  exact ⟨rx, ref, ev, pk, h1, h2, h3, h4, h5, h6, h7, h8, h9, h10, rfl⟩

/-! Carriage (R65) -/

@[simp] theorem wordBytes_length (w : Word) : (wordBytes w).length = 4 := rfl

@[simp] theorem packBits_length (bs : List Bool) : (packBits bs).length = (bs.length + 31) / 32 := by simp [packBits]

theorem bytes_bits (d : List Bool) : (Buffer.bits d).bytes = (packBits d).flatMap wordBytes := rfl

theorem bytes_cplx (d : List Cx) : (Buffer.cplx d).bytes = d.flatMap (carryComplex Config.scalarBytes) := rfl

/-! The port and the step -/

theorem issue_refused {s : State} {r : FaultRecord} (h : s.core.fault = some r) (w : Word) : issue w s = .next s := by
  simp [issue, CoreState.faultFlag, h]

theorem issue_decoded {s : State} {w : Word} {i : Instr} (h : s.core.fault = none) (hd : decode w = .ok i) :
    issue w s = exec i s := by
  simp [issue, CoreState.faultFlag, h, hd]

theorem issue_illegal {s : State} {w : Word} {e : Reject} (h : s.core.fault = none) (hd : decode w = .error e) :
    issue w s = .next (s.faulted w .illegalCommand w) := by
  have hw : BitVec.ofNat 32 w.toNat = w := by simp
  simp [issue, CoreState.faultFlag, h, hd, issueIllegal, State.carryOut, CoreState.carryOut, CoreState.raise, State.faulted]

/-- A buffer write is the write, or is refused and is no transaction (R62). -/
theorem hostBufWrite_cases (b : BufIdx) (d : Buffer) (s : State) :
    (hostWriteProblem d = none ∧ hostBufWrite b d s = .next { s with core := s.core.writeBuf b d }) ∨
      ∃ r, hostWriteProblem d = some r ∧ hostBufWrite b d s = .refused r := by
  unfold hostBufWrite
  cases h : hostWriteProblem d <;> simp

theorem hostWriteProblem_none_iff (d : Buffer) :
    hostWriteProblem d = none ↔ d ≠ .none ∧ Config.fitsCap d.len = true ∧ d.numbers = true := by
  unfold hostWriteProblem
  split
  · simp_all
  · split
    · simp_all
    · split <;> simp_all

/-- With no event left a step does nothing; else it performs the first event. -/
theorem step_nil {s : State} (h : s.script = []) : step s = .next s := by simp [step, h]

theorem step_cons {s : State} {e : HostEvent} {es : List HostEvent} (h : s.script = e :: es) : step s = perform e s := by
  simp [step, h]

end Sys2Proof.Machine
end

