-- ==== Sys2Proof/Laws/Unique.lean ====
section
/-! SUPPORT. A number has one canonical form: the points of the circle at turns of the basis are linearly independent over
the rationals, so two canonical elements that stand for one complex number are equal. The turns of the basis with a
denominator dividing n are at most as many as the totient of n, and they span the n-th roots of unity. -/

namespace Sys2Proof.Machine

/-- The k below n whose turn k/n has no component in its last part at the primes of P. -/
def basisIndices (n : ℕ) (P : Finset ℕ) : Finset ℕ :=
  (Finset.range n).filter fun k => ∀ p ∈ P, inTopDigit p ((k : ℚ) / (n : ℚ)) = false

theorem den_ratio_dvd {p : ℕ} (c : ℕ) : (((c : ℕ) : ℚ) / (p : ℚ)).den ∣ p := den_natDiv_dvd c p

/-- Moving by a multiple of 1/p keeps the last-part test at every other prime. -/
theorem inTopDigit_move {p q : ℕ} (hp : p.Prime) (hq : q.Prime) (hqp : q ≠ p) (r : ℚ) (c : ℕ) (m : ℤ) :
    inTopDigit q (r + (c : ℚ) / (p : ℚ) + (m : ℚ)) = inTopDigit q r := by
  have hz := isComponent_component hq r
  have hmove := (hz.move (Nat.Coprime.coprime_dvd_left (den_ratio_dvd (p := p) c)
    ((Nat.coprime_primes hp hq).2 hqp.symm))).move (d := (m : ℚ)) (by rw [Rat.den_intCast]; exact Nat.coprime_one_left q)
  exact Bool.eq_iff_iff.2 ((inTopDigit_iff hq hmove).trans (inTopDigit_iff hq hz).symm)

/-- Every turn moves into the last part at p by a multiple of 1/p. -/
theorem exists_move_top {p : ℕ} (hp : p.Prime) (r : ℚ) :
    ∃ c : ℕ, c < p ∧ ∀ m : ℤ, inTopDigit p (r + (c : ℚ) / (p : ℚ) + (m : ℚ)) = true := by
  have hpQ : (0 : ℚ) < (p : ℚ) := by exact_mod_cast hp.pos
  have hx := isComponent_component hp r
  set x := (component p r : ℚ) / (primePart p r.den : ℚ)
  obtain ⟨d, hd0, hd1⟩ : ∃ d : ℕ, (d : ℚ) ≤ x * p ∧ x * p < d + 1 :=
    ⟨⌊x * p⌋₊, Nat.floor_le (mul_nonneg hx.nonneg hpQ.le), Nat.lt_floor_add_one _⟩
  have hdp : d < p := by
    have : (d : ℚ) < p := lt_of_le_of_lt hd0 (by nlinarith [hx.lt_one])
    exact_mod_cast this
  refine ⟨p - 1 - d, by omega, fun m => ?_⟩
  have hc : ((p - 1 - d : ℕ) : ℚ) = (p : ℚ) - 1 - d := by
    rw [Nat.cast_sub (by omega), Nat.cast_sub hp.one_le]; simp
  have hy : IsComponent p (r + ((p - 1 - d : ℕ) : ℚ) / p + (m : ℚ)) (x + ((p - 1 - d : ℕ) : ℚ) / p) := by
    have hle : x + ((p - 1 - d : ℕ) : ℚ) / p < 1 := by
      rw [hc]
      have : x < ((d : ℚ) + 1) / p := by rw [lt_div_iff₀ hpQ]; exact hd1
      have e : ((p : ℚ) - 1 - d) / p = 1 - ((d : ℚ) + 1) / p := by field_simp; ring
      rw [e]; linarith
    refine ⟨by have := hx.nonneg; positivity, hle, ?_, ?_⟩
    · obtain ⟨k, hk⟩ := hx.power
      refine ⟨k + 1, ?_⟩
      rw [pow_succ]
      exact (Rat.add_den_dvd _ _).trans (mul_dvd_mul hk (den_ratio_dvd _))
    · have e : r + ((p - 1 - d : ℕ) : ℚ) / p + (m : ℚ) - (x + ((p - 1 - d : ℕ) : ℚ) / p) = (r - x) + (m : ℚ) := by ring
      rw [e]
      have a := Rat.add_den_dvd (r - x) (m : ℚ)
      rw [Rat.den_intCast, mul_one] at a
      exact Nat.Coprime.coprime_dvd_left a hx.rest
  rw [inTopDigit_iff hp hy, hc]
  have e : ((p : ℚ) - 1 - d) / p = ((p : ℚ) - 1) / p - (d : ℚ) / p := by ring
  have : (d : ℚ) / p ≤ x := by rw [div_le_iff₀ hpQ]; exact hd0
  rw [e]; linarith

/-- Of the indices that pass at P, at most the share (p-1)/p passes at p too. -/
theorem card_basisIndices_insert {n p : ℕ} (hn : 0 < n) (hp : p.Prime) (hpn : p ∣ n) {P : Finset ℕ}
    (hP : ∀ q ∈ P, q.Prime) (hpP : p ∉ P) :
    ((basisIndices n (insert p P)).card : ℚ) ≤ (basisIndices n P).card * (1 - (p : ℚ)⁻¹) := by
  have hnQ : (0 : ℚ) < (n : ℚ) := by exact_mod_cast hn
  have hpQ : (0 : ℚ) < (p : ℚ) := by exact_mod_cast hp.pos
  set S := basisIndices n P with hS
  set T := S.filter fun k : ℕ => inTopDigit p ((k : ℚ) / (n : ℚ)) = true with hT
  have hsplit : (basisIndices n (insert p P)).card + T.card = S.card := by
    have h1 : basisIndices n (insert p P) = S.filter fun k : ℕ => ¬ inTopDigit p ((k : ℚ) / (n : ℚ)) = true := by
      ext k
      simp only [basisIndices, hS, Finset.mem_filter, Finset.mem_insert, forall_eq_or_imp, Bool.not_eq_true]
      tauto
    rw [h1, hT, add_comm]
    exact Finset.card_filter_add_card_filter_not _
  obtain ⟨h, hh⟩ := hpn
  have hhpos : 0 < h := Nat.pos_of_ne_zero (by rintro rfl; omega)
  have hcard : S.card ≤ (T ×ˢ Finset.range p).card := by
    apply Finset.card_le_card_of_surjOn fun a : ℕ × ℕ => (a.1 + (p - a.2) * h) % n
    intro k hk
    have hk' := Finset.mem_coe.1 hk
    rw [hS, basisIndices, Finset.mem_filter, Finset.mem_range] at hk'
    obtain ⟨c, hc, htop⟩ := exists_move_top hp ((k : ℚ) / (n : ℚ))
    set j := (k + c * h) % n with hj
    have hjn : ((j : ℕ) : ℚ) / n = (k : ℚ) / n + (c : ℚ) / p + ((-((k + c * h) / n : ℕ) : ℤ) : ℚ) := by
      have e : (((k + c * h) % n : ℕ) : ℚ) = (k : ℚ) + c * h - n * ((k + c * h) / n : ℕ) := by
        have := Nat.mod_add_div (k + c * h) n
        have q : (((k + c * h) % n + n * ((k + c * h) / n) : ℕ) : ℚ) = ((k + c * h : ℕ) : ℚ) := by rw [this]
        push_cast at q ⊢
        linarith
      have e2 : (c : ℚ) / p = (c * h : ℚ) / n := by
        rw [hh]; push_cast
        have : (h : ℚ) ≠ 0 := by exact_mod_cast hhpos.ne'
        field_simp
      rw [hj, e, e2]
      generalize (k + c * h) / n = g
      push_cast
      field_simp
      ring
    refine ⟨(j, c), ?_, ?_⟩
    · rw [Finset.mem_coe, Finset.mem_product]
      refine ⟨?_, Finset.mem_range.2 hc⟩
      rw [hT, Finset.mem_filter, hS, basisIndices, Finset.mem_filter, Finset.mem_range]
      refine ⟨⟨Nat.mod_lt _ hn, ?_⟩, ?_⟩
      · intro q hq
        show inTopDigit q ((j : ℚ) / n) = false
        rw [hjn, inTopDigit_move hp (hP q hq) (by rintro rfl; exact hpP hq)]
        exact hk'.2 q hq
      · show inTopDigit p ((j : ℚ) / n) = true
        rw [hjn]; exact htop _
    · show (j + (p - c) * h) % n = k
      rw [hj, Nat.mod_add_mod]
      have e : k + c * h + (p - c) * h = k + n := by
        rw [hh, add_assoc, ← add_mul, Nat.add_sub_cancel' hc.le]
      rw [e, Nat.add_mod_right, Nat.mod_eq_of_lt hk'.1]
  rw [Finset.card_product, Finset.card_range] at hcard
  have h1 : (S.card : ℚ) ≤ T.card * p := by exact_mod_cast hcard
  have h2 : ((basisIndices n (insert p P)).card : ℚ) + T.card = S.card := by exact_mod_cast hsplit
  have h3 : (S.card : ℚ) * (p : ℚ)⁻¹ ≤ T.card := by
    rw [← div_eq_mul_inv, div_le_iff₀ hpQ]; exact h1
  linarith

theorem card_basisIndices_le {n : ℕ} (hn : 0 < n) (P : Finset ℕ) (hP : ∀ q ∈ P, q.Prime ∧ q ∣ n) :
    ((basisIndices n P).card : ℚ) ≤ n * ∏ p ∈ P, (1 - (p : ℚ)⁻¹) := by
  induction P using Finset.induction_on with
  | empty => simp [basisIndices]
  | insert p P hpP ih =>
    have hp := hP p (Finset.mem_insert_self p P)
    have hP' := fun q hq => hP q (Finset.mem_insert_of_mem hq)
    have h0 : (0 : ℚ) ≤ 1 - (p : ℚ)⁻¹ := by
      have : (1 : ℚ) ≤ p := by exact_mod_cast hp.1.one_le
      have := inv_le_one_of_one_le₀ this
      linarith
    rw [Finset.prod_insert hpP]
    calc ((basisIndices n (insert p P)).card : ℚ)
        ≤ (basisIndices n P).card * (1 - (p : ℚ)⁻¹) :=
          card_basisIndices_insert hn hp.1 hp.2 (fun q hq => (hP' q hq).1) hpP
      _ ≤ (n * ∏ q ∈ P, (1 - (q : ℚ)⁻¹)) * (1 - (p : ℚ)⁻¹) := mul_le_mul_of_nonneg_right (ih hP') h0
      _ = n * ((1 - (p : ℚ)⁻¹) * ∏ q ∈ P, (1 - (q : ℚ)⁻¹)) := by ring

theorem card_basisIndices_totient {n : ℕ} (hn : 0 < n) :
    (basisIndices n n.primeFactors).card ≤ Nat.totient n := by
  have h := card_basisIndices_le hn n.primeFactors fun q hq =>
    ⟨Nat.prime_of_mem_primeFactors hq, Nat.dvd_of_mem_primeFactors hq⟩
  rw [← Nat.totient_eq_mul_prod_factors] at h
  exact_mod_cast h

/-! Spanning -/

theorem reduceTerm_den {n : ℕ} (t : Term) (ht : t.turn.den ∣ n) : ∀ u ∈ reduceTerm t, u.turn.den ∣ n := by
  intro u hu
  have hden : (fracTurn t.turn).den ≠ 0 := (fracTurn t.turn).den_nz
  have h := spread_foldl (n := (fracTurn t.turn).den) (primeDivisors (fracTurn t.turn).den)
    (fun p hp => ((mem_primeDivisors hden p).1 hp).1) [] (by simp) [⟨fracTurn t.turn, t.coeff⟩]
    (by
      intro u hu
      rw [List.mem_singleton] at hu
      subst hu
      exact ⟨fracTurn_nonneg _, fracTurn_lt_one _, dvd_refl _, by simp⟩)
    u hu
  exact h.2.2.1.trans ((den_fracTurn_dvd _).trans ht)

/-- A turn of the basis with a denominator dividing n, as an index below n. -/
theorem basisTurn_index {n : ℕ} (hn : 0 < n) {r : ℚ} (hr : basisTurn r = true) (hd : r.den ∣ n) :
    ∃ k ∈ basisIndices n n.primeFactors, (k : ℚ) / n = r := by
  simp only [basisTurn, Bool.and_eq_true, decide_eq_true_eq, List.all_eq_true, Bool.not_eq_eq_eq_not,
    Bool.not_true] at hr
  obtain ⟨⟨h0, h1⟩, hp⟩ := hr
  have hnQ : (0 : ℚ) < (n : ℚ) := by exact_mod_cast hn
  obtain ⟨h, hh⟩ := hd
  have hnum : ((r.num.toNat : ℕ) : ℤ) = r.num := Int.toNat_of_nonneg (Rat.num_nonneg.2 h0)
  have hnumQ : ((r.num.toNat : ℕ) : ℚ) = (r.num : ℚ) := by exact_mod_cast hnum
  have hk : (((r.num.toNat * h : ℕ)) : ℚ) / n = r := by
    have hh0 : (h : ℚ) ≠ 0 := by
      have : h ≠ 0 := by rintro rfl; omega
      exact_mod_cast this
    have hd0 : (r.den : ℚ) ≠ 0 := by exact_mod_cast r.den_nz
    conv_rhs => rw [← Rat.num_div_den r]
    rw [hh]
    push_cast
    rw [hnumQ]
    exact mul_div_mul_right _ _ hh0
  refine ⟨r.num.toNat * h, ?_, hk⟩
  rw [basisIndices, Finset.mem_filter, Finset.mem_range]
  constructor
  · have : ((r.num.toNat * h : ℕ) : ℚ) < n := by
      have := (div_lt_one hnQ).1 (hk ▸ h1)
      exact this
    exact_mod_cast this
  · intro p hpn
    rw [hk]
    have hpp := Nat.prime_of_mem_primeFactors hpn
    by_cases hpd : p ∣ r.den
    · exact hp p ((mem_primeDivisors r.den_nz p).2 ⟨hpp, hpd⟩)
    · exact inTopDigit_of_not_dvd hpp hpd

theorem termsValue_mem_span {n : ℕ} (hn : 0 < n) (ts : List Term)
    (h : ∀ u ∈ ts, basisTurn u.turn = true ∧ u.turn.den ∣ n) :
    termsValue ts ∈ Submodule.span ℚ
      (Set.range fun k : basisIndices n n.primeFactors => turnPoint (((k : ℕ) : ℚ) / n)) := by
  induction ts with
  | nil => exact Submodule.zero_mem _
  | cons t ts ih =>
    rw [termsValue_cons]
    apply Submodule.add_mem _ _ (ih fun u hu => h u (List.mem_cons_of_mem t hu))
    obtain ⟨hb, hd⟩ := h t List.mem_cons_self
    obtain ⟨k, hk, hkr⟩ := basisTurn_index hn hb hd
    have e : (t.coeff : ℂ) * turnPoint t.turn = t.coeff • turnPoint t.turn := (Rat.smul_def _ _).symm
    rw [e, ← hkr]
    exact Submodule.smul_mem _ _ (Submodule.subset_span ⟨⟨k, hk⟩, rfl⟩)

theorem linearIndependent_indices {n : ℕ} (hn : 0 < n) :
    LinearIndependent ℚ fun k : basisIndices n n.primeFactors => turnPoint (((k : ℕ) : ℚ) / n) := by
  rw [linearIndependent_iff_card_le_finrank_span, Fintype.card_coe]
  refine (card_basisIndices_totient hn).trans ?_
  set W := Submodule.span ℚ
    (Set.range fun k : basisIndices n n.primeFactors => turnPoint (((k : ℕ) : ℚ) / n)) with hW
  have hfin : Module.Finite ℚ W := Module.Finite.span_of_finite ℚ (Set.finite_range _)
  set ζ := turnPoint ((1 : ℚ) / n) with hζ
  have hprim : IsPrimitiveRoot ζ n := by
    have := Complex.isPrimitiveRoot_exp n hn.ne'
    have e : ζ = Complex.exp (2 * Real.pi * Complex.I / n) := by
      rw [hζ, turnPoint]; congr 1; push_cast; ring
    rwa [e]
  have hpow : ∀ i : ℕ, ζ ^ i ∈ W := by
    intro i
    have e : ζ ^ i = termsValue (reduceTerm ⟨(i : ℚ) / n, 1⟩) := by
      rw [termsValue_reduceTerm, hζ, turnPoint, ← Complex.exp_nat_mul, turnPoint]
      push_cast
      rw [one_mul]
      congr 1
      ring
    rw [e]
    apply termsValue_mem_span hn
    intro u hu
    exact ⟨reduceTerm_basis _ u hu, reduceTerm_den _ (den_natDiv_dvd i n) u hu⟩
  have hmin : (minpoly ℚ ζ).natDegree = Nat.totient n := by
    rw [← Polynomial.cyclotomic_eq_minpoly_rat hprim hn, Polynomial.natDegree_cyclotomic]
  have hli : LinearIndependent ℚ fun i : Fin (minpoly ℚ ζ).natDegree => (⟨ζ ^ (i : ℕ), hpow i⟩ : W) := by
    apply LinearIndependent.of_comp W.subtype
    exact linearIndependent_pow ζ
  have := hli.fintype_card_le_finrank
  rw [Fintype.card_fin, hmin] at this
  exact this

/-- The points at turns of the basis are linearly independent over the rationals. -/
theorem linearIndependent_basis :
    LinearIndependent ℚ fun r : { r : ℚ // basisTurn r = true } => turnPoint r.1 := by
  rw [linearIndependent_iff_finset_linearIndependent]
  intro s
  set n := ∏ r ∈ s, r.1.den with hn
  have hpos : 0 < n := Finset.prod_pos fun r _ => r.1.den_pos
  have hidx : ∀ r : s, ∃ k : basisIndices n n.primeFactors, ((k : ℕ) : ℚ) / n = r.1.1 := by
    intro r
    obtain ⟨k, hk, e⟩ := basisTurn_index hpos r.1.2 (Finset.dvd_prod_of_mem _ r.2)
    exact ⟨⟨k, hk⟩, e⟩
  choose f hf using hidx
  have hinj : Function.Injective f := by
    intro a b h
    have : a.1.1 = b.1.1 := by rw [← hf a, ← hf b, h]
    exact Subtype.ext (Subtype.ext this)
  have := (linearIndependent_indices hpos).comp f hinj
  have e : ((fun k : basisIndices n n.primeFactors => turnPoint (((k : ℕ) : ℚ) / n)) ∘ f)
      = (fun r : { r : ℚ // basisTurn r = true } => turnPoint r.1) ∘ (Subtype.val : s → _) := by
    funext r
    simp [Function.comp, hf r]
  rwa [e] at this

/-! One canonical form -/

/-- The coefficients of a list, by turn. -/
noncomputable def coeffs (ts : List Term) (h : ∀ t ∈ ts, basisTurn t.turn = true) :
    { r : ℚ // basisTurn r = true } →₀ ℚ :=
  (ts.attach.map fun t => Finsupp.single ⟨t.1.turn, h t.1 t.2⟩ t.1.coeff).sum

theorem coeffs_cons (t : Term) (ts : List Term) (h : ∀ u ∈ t :: ts, basisTurn u.turn = true) :
    coeffs (t :: ts) h = Finsupp.single ⟨t.turn, h t List.mem_cons_self⟩ t.coeff
      + coeffs ts fun u hu => h u (List.mem_cons_of_mem t hu) := by
  simp only [coeffs, List.attach_cons, List.map_cons, List.sum_cons, List.map_map]
  rfl

theorem linearCombination_coeffs (ts : List Term) (h : ∀ t ∈ ts, basisTurn t.turn = true) :
    Finsupp.linearCombination ℚ (fun r : { r : ℚ // basisTurn r = true } => turnPoint r.1) (coeffs ts h)
      = termsValue ts := by
  induction ts with
  | nil => simp [coeffs]
  | cons t ts ih =>
    rw [coeffs_cons, map_add, ih, Finsupp.linearCombination_single, termsValue_cons, Rat.smul_def]

theorem coeffs_apply_absent {ts : List Term} (h : ∀ t ∈ ts, basisTurn t.turn = true)
    (r : { r : ℚ // basisTurn r = true }) (hr : ∀ t ∈ ts, t.turn ≠ r.1) : coeffs ts h r = 0 := by
  induction ts with
  | nil => simp [coeffs]
  | cons t ts ih =>
    rw [coeffs_cons, Finsupp.add_apply, ih _ fun u hu => hr u (List.mem_cons_of_mem t hu),
      Finsupp.single_apply, if_neg, add_zero]
    intro e
    exact hr t List.mem_cons_self (congrArg Subtype.val e)

theorem Canonical.mem_iff {ts : List Term} (hc : Canonical ts) (t : Term) :
    t ∈ ts ↔ ∃ hb : basisTurn t.turn = true, t.coeff ≠ 0 ∧
      coeffs ts (fun u hu => (hc.basis u hu).2) ⟨t.turn, hb⟩ = t.coeff := by
  induction ts with
  | nil =>
    simp only [List.not_mem_nil, coeffs, List.attach_nil, List.map_nil, List.sum_nil, Finsupp.coe_zero,
      Pi.zero_apply, false_iff, not_exists, not_and]
    intro _ h0 h1
    exact h0 h1.symm
  | cons u us ih =>
    have hu := hc.basis u List.mem_cons_self
    have hr := List.pairwise_cons.1 hc.rising
    rw [List.mem_cons, ih hc.tail]
    by_cases he : t.turn = u.turn
    · have habs : coeffs us (fun v hv => (hc.tail.basis v hv).2) ⟨u.turn, hu.2⟩ = 0 :=
        coeffs_apply_absent _ _ fun v hv => (hr.1 v hv).ne'
      have hval : ∀ hb, coeffs (u :: us) (fun v hv => (hc.basis v hv).2) ⟨t.turn, hb⟩ = u.coeff := by
        intro hb
        have e : (⟨t.turn, hb⟩ : { r : ℚ // basisTurn r = true }) = ⟨u.turn, hu.2⟩ := Subtype.ext he
        rw [e, coeffs_cons, Finsupp.add_apply, habs, Finsupp.single_eq_same, add_zero]
      constructor
      · rintro (rfl | ⟨hb, h0, h1⟩)
        · exact ⟨hu.2, hu.1, hval _⟩
        · exfalso
          have e : (⟨t.turn, hb⟩ : { r : ℚ // basisTurn r = true }) = ⟨u.turn, hu.2⟩ := Subtype.ext he
          rw [e, habs] at h1
          exact h0 h1.symm
      · rintro ⟨hb, h0, h1⟩
        left
        rw [hval] at h1
        cases t; cases u
        simp_all
    · have hval : ∀ hb, coeffs (u :: us) (fun v hv => (hc.basis v hv).2) ⟨t.turn, hb⟩
          = coeffs us (fun v hv => (hc.tail.basis v hv).2) ⟨t.turn, hb⟩ := by
        intro hb
        rw [coeffs_cons, Finsupp.add_apply, Finsupp.single_apply, if_neg, zero_add]
        intro e
        exact he (congrArg Subtype.val e).symm
      constructor
      · rintro (rfl | ⟨hb, h0, h1⟩)
        · exact absurd rfl he
        · exact ⟨hb, h0, (hval hb).trans h1⟩
      · rintro ⟨hb, h0, h1⟩
        exact .inr ⟨hb, h0, (hval hb).symm.trans h1⟩

/-- Two elements in canonical form that stand for one complex number are equal. -/
theorem eq_of_value_eq {x y : Cx} (hx : x.canonical = true) (hy : y.canonical = true) (h : x.value = y.value) :
    x = y := by
  have cx := (canonical_iff x).1 hx
  have cy := (canonical_iff y).1 hy
  have hco : coeffs x.terms (fun u hu => (cx.basis u hu).2) = coeffs y.terms (fun u hu => (cy.basis u hu).2) := by
    apply linearIndependent_basis
    rw [linearCombination_coeffs, linearCombination_coeffs]
    exact h
  have hmem : ∀ t, t ∈ x.terms ↔ t ∈ y.terms := by
    intro t
    rw [cx.mem_iff, cy.mem_iff, hco]
  have hnd : ∀ ts : List Term, Canonical ts → ts.Nodup := fun ts hc =>
    hc.rising.imp fun h => by rintro rfl; exact lt_irrefl _ h
  have hperm : x.terms.Perm y.terms :=
    (List.perm_ext_iff_of_nodup (hnd _ cx) (hnd _ cy)).2 hmem
  have : x.terms = y.terms :=
    hperm.eq_of_pairwise (fun a b _ _ h1 h2 => absurd (h1.trans h2) (lt_irrefl _)) cx.rising cy.rising
  cases x; cases y; simp_all

/-- The test for exact zero is exact (R167). -/
theorem value_eq_zero_iff {x : Cx} (hx : x.canonical = true) : x.value = 0 ↔ x = Cx.zero :=
  ⟨fun h => eq_of_value_eq hx canonical_zero (by rw [h, value_zero]), fun h => by rw [h, value_zero]⟩

end Sys2Proof.Machine
end

