-- ==== Sys2Proof/Laws/Division.lean ====
section
/-! SUPPORT. The norm of a number is rational and other than 0 unless the number is 0, so `Cx.inv` inverts and `Cx.div`
divides (R9). -/

namespace Sys2Proof.Machine

open Polynomial

/-! The norm of a polynomial at a root of unity -/

/-- The k below n prime to n. -/
def unitsBelow (n : ℕ) : Finset ℕ := (Finset.range n).filter fun a => Nat.Coprime a n

theorem image_pow_unitsBelow {n : ℕ} (hn : 0 < n) {ζ : ℂ} (hζ : IsPrimitiveRoot ζ n) :
    (unitsBelow n).image (fun a => ζ ^ a) = primitiveRoots n ℂ := by
  apply Finset.eq_of_subset_of_card_le
  · intro μ hμ
    obtain ⟨a, ha, rfl⟩ := Finset.mem_image.1 hμ
    rw [unitsBelow, Finset.mem_filter] at ha
    exact (mem_primitiveRoots hn).2 (hζ.pow_of_coprime a ha.2)
  · rw [Finset.card_image_of_injOn, hζ.card_primitiveRoots, Nat.totient_eq_card_coprime]
    · apply le_of_eq
      congr 1
      ext a
      simp [unitsBelow, Nat.coprime_comm]
    · intro a ha b hb h
      rw [Finset.mem_coe, unitsBelow, Finset.mem_filter, Finset.mem_range] at ha hb
      exact hζ.pow_inj ha.1 hb.1 h

theorem norm_rational {n : ℕ} (hn : 0 < n) {ζ : ℂ} (hζ : IsPrimitiveRoot ζ n) (f : ℚ[X]) :
    ∃ q : ℚ, ∏ a ∈ unitsBelow n, aeval (ζ ^ a) f = (q : ℂ) := by
  have hint : IsIntegral ℚ ζ := (hζ.isIntegral hn).tower_top
  let L := IntermediateField.adjoin ℚ {ζ}
  have : FiniteDimensional ℚ L := IntermediateField.adjoin.finiteDimensional hint
  let α : L := IntermediateField.AdjoinSimple.gen ℚ ζ
  have hα : IsPrimitiveRoot α n := by
    apply IsPrimitiveRoot.of_map_of_injective (f := algebraMap L ℂ) _ (algebraMap L ℂ).injective
    rwa [IntermediateField.AdjoinSimple.algebraMap_gen]
  have hnorm := Algebra.norm_eq_prod_embeddings ℚ ℂ (aeval α f)
  have hσ : ∀ σ : L →ₐ[ℚ] ℂ, σ (aeval α f) = aeval (σ α) f := fun σ => (aeval_algHom_apply σ α f).symm
  have hinj : Function.Injective fun σ : L →ₐ[ℚ] ℂ => σ α := by
    intro σ τ h
    exact (IntermediateField.adjoin.powerBasis hint).algHom_ext h
  have himg : (Finset.univ : Finset (L →ₐ[ℚ] ℂ)).image (fun σ => σ α) = primitiveRoots n ℂ := by
    apply Finset.eq_of_subset_of_card_le
    · intro μ hμ
      obtain ⟨σ, -, rfl⟩ := Finset.mem_image.1 hμ
      exact (mem_primitiveRoots hn).2 (hα.map_of_injective σ.injective)
    · rw [Finset.card_image_of_injective _ hinj, Finset.card_univ, AlgHom.card,
        IntermediateField.adjoin.finrank hint, ← cyclotomic_eq_minpoly_rat hζ hn, natDegree_cyclotomic,
        hζ.card_primitiveRoots]
  refine ⟨Algebra.norm ℚ (aeval α f), ?_⟩
  have h1 : ∏ a ∈ unitsBelow n, aeval (ζ ^ a) f = ∏ μ ∈ primitiveRoots n ℂ, aeval μ f := by
    rw [← image_pow_unitsBelow hn hζ, Finset.prod_image]
    intro a ha b hb h
    rw [Finset.mem_coe, unitsBelow, Finset.mem_filter, Finset.mem_range] at ha hb
    exact hζ.pow_inj ha.1 hb.1 h
  have h2 : ∏ σ : L →ₐ[ℚ] ℂ, aeval (σ α) f = ∏ μ ∈ primitiveRoots n ℂ, aeval μ f := by
    rw [← himg, Finset.prod_image]
    intro σ _ τ _ h
    exact hinj h
  rw [h1, ← h2]
  have h3 : (algebraMap ℚ ℂ) (Algebra.norm ℚ (aeval α f)) = ((Algebra.norm ℚ (aeval α f) : ℚ) : ℂ) := rfl
  rw [← h3, hnorm]
  exact Finset.prod_congr rfl fun σ _ => (hσ σ).symm

/-- A conjugate of a number other than 0 is other than 0. -/
theorem aeval_pow_ne_zero {n : ℕ} (hn : 0 < n) {ζ : ℂ} (hζ : IsPrimitiveRoot ζ n) {f : ℚ[X]} (h : aeval ζ f ≠ 0)
    {a : ℕ} (ha : Nat.Coprime a n) : aeval (ζ ^ a) f ≠ 0 := by
  intro h0
  have h1 := minpoly.dvd ℚ (ζ ^ a) h0
  rw [← cyclotomic_eq_minpoly_rat (hζ.pow_of_coprime a ha) hn, cyclotomic_eq_minpoly_rat hζ hn] at h1
  exact h (aeval_eq_zero_of_dvd_aeval_eq_zero h1 (minpoly.aeval ℚ ζ))

/-! An element as a polynomial at a root of unity -/

theorem den_dvd_level (x : Cx) : ∀ t ∈ x.terms, t.turn.den ∣ x.level := by
  unfold Cx.level
  generalize x.terms = ts
  induction ts with
  | nil => simp
  | cons t ts ih =>
    intro u hu
    rw [List.foldr_cons]
    rcases List.mem_cons.1 hu with rfl | hu
    · exact Nat.dvd_lcm_left _ _
    · exact (ih u hu).trans (Nat.dvd_lcm_right _ _)

theorem level_pos (x : Cx) : 0 < x.level := by
  unfold Cx.level
  generalize x.terms = ts
  induction ts with
  | nil => simp
  | cons t ts ih =>
    rw [List.foldr_cons]
    exact Nat.lcm_pos t.turn.den_pos ih

/-- The polynomial whose value at `cis(2*pi/n)` is the list's. -/
noncomputable def polyOf (n : ℕ) (ts : List Term) : ℚ[X] :=
  (ts.map fun t : Term => C t.coeff * X ^ (t.turn * (n : ℚ)).num.toNat).sum

theorem turn_mul_eq {n : ℕ} {r : ℚ} (h0 : 0 ≤ r) (hd : r.den ∣ n) : r * n = (((r * n).num.toNat : ℕ) : ℚ) := by
  obtain ⟨h, rfl⟩ := hd
  have e : r * ((r.den * h : ℕ) : ℚ) = ((r.num * h : ℤ) : ℚ) := by
    push_cast
    rw [← mul_assoc, Rat.mul_den_eq_num]
  rw [e, Rat.num_intCast]
  have hnn : 0 ≤ r.num * (h : ℤ) := mul_nonneg (Rat.num_nonneg.2 h0) (by positivity)
  have : (((r.num * (h : ℤ)).toNat : ℕ) : ℤ) = r.num * h := Int.toNat_of_nonneg hnn
  exact_mod_cast this.symm

theorem aeval_polyOf {n : ℕ} (hn : 0 < n) (a : ℕ) (ts : List Term)
    (h : ∀ t ∈ ts, 0 ≤ t.turn ∧ t.turn.den ∣ n) :
    aeval (turnPoint (1 / (n : ℚ)) ^ a) (polyOf n ts)
      = termsValue (ts.map fun t => ⟨((a : ℤ) : ℚ) * t.turn, t.coeff⟩) := by
  induction ts with
  | nil => simp [polyOf]
  | cons t ts ih =>
    have ih' := ih fun u hu => h u (List.mem_cons_of_mem t hu)
    obtain ⟨h0, hd⟩ := h t List.mem_cons_self
    have hnQ : (n : ℚ) ≠ 0 := by exact_mod_cast hn.ne'
    simp only [polyOf, List.map_cons, List.sum_cons, map_add, map_mul, aeval_C, map_pow, aeval_X,
      termsValue_cons] at ih' ⊢
    rw [ih']
    congr 1
    congr 1
    have e := turn_mul_eq h0 hd
    set k := (t.turn * (n : ℚ)).num.toNat
    have ht : t.turn = (k : ℚ) / n := by rw [eq_div_iff hnQ]; exact e
    rw [ht, turnPoint, turnPoint, ← Complex.exp_nat_mul, ← Complex.exp_nat_mul]
    congr 1
    push_cast
    ring

theorem Canonical.turns {x : Cx} (hx : x.canonical = true) :
    ∀ t ∈ x.terms, 0 ≤ t.turn ∧ t.turn.den ∣ x.level := by
  intro t ht
  refine ⟨?_, den_dvd_level x t ht⟩
  have hb := (((canonical_iff x).1 hx).basis t ht).2
  simp only [basisTurn, Bool.and_eq_true, decide_eq_true_eq] at hb
  exact hb.1.1

theorem primitive_turnPoint {n : ℕ} (hn : 0 < n) : IsPrimitiveRoot (turnPoint (1 / (n : ℚ))) n := by
  have := Complex.isPrimitiveRoot_exp n hn.ne'
  have e : turnPoint (1 / (n : ℚ)) = Complex.exp (2 * Real.pi * Complex.I / n) := by
    rw [turnPoint]; congr 1; push_cast; ring
  rwa [e]

theorem value_galois {x : Cx} (hx : x.canonical = true) (a : ℕ) :
    (Cx.galois (a : ℤ) x).value = aeval (turnPoint (1 / (x.level : ℚ)) ^ a) (polyOf x.level x.terms) := by
  rw [aeval_polyOf (level_pos x) a x.terms (Canonical.turns hx), Cx.galois, value_ofTerms]

theorem value_eq_aeval {x : Cx} (hx : x.canonical = true) :
    x.value = aeval (turnPoint (1 / (x.level : ℚ))) (polyOf x.level x.terms) := by
  have h := aeval_polyOf (level_pos x) 1 x.terms (Canonical.turns hx)
  rw [pow_one] at h
  rw [h, Cx.value]
  congr 1
  have e : (fun t : Term => (⟨(((1 : ℕ) : ℤ) : ℚ) * t.turn, t.coeff⟩ : Term)) = id := by
    funext t
    cases t
    simp
  rw [e, List.map_id]

theorem value_foldr_mul (zs : List Cx) : (zs.foldr Cx.mul Cx.one).value = (zs.map Cx.value).prod := by
  induction zs with
  | nil => simp
  | cons z zs ih => simp [ih]

theorem value_norm {x : Cx} (hx : x.canonical = true) :
    (Cx.mul x x.coNorm).value
      = ∏ a ∈ unitsBelow x.level, aeval (turnPoint (1 / (x.level : ℚ)) ^ a) (polyOf x.level x.terms) := by
  set n := x.level with hn
  have hpos : 0 < n := level_pos x
  set g : ℕ → ℂ := fun a => aeval (turnPoint (1 / (n : ℚ)) ^ a) (polyOf n x.terms) with hg
  have h1 : x.coNorm.value = ∏ a ∈ (Finset.range n).filter (fun a => 2 ≤ a ∧ Nat.Coprime a n), g a := by
    rw [Cx.coNorm, value_foldr_mul, List.map_map]
    have e : (Cx.value ∘ fun a : ℕ => Cx.galois (a : ℤ) x) = g := by
      funext a
      exact value_galois hx a
    rw [e, ← List.prod_toFinset _ (List.nodup_range.filter _)]
    congr 1
    ext a
    simp [Nat.Coprime, ← hn]
  rw [value_mul, h1]
  have h2 : x.value = g 1 := by
    rw [hg]
    simp only [pow_one]
    exact value_eq_aeval hx
  rcases Nat.lt_or_ge n 2 with hlt | hge
  · have hn1 : n = 1 := by omega
    have e1 : (Finset.range n).filter (fun a => 2 ≤ a ∧ Nat.Coprime a n) = ∅ := by
      rw [hn1]; decide
    have e2 : unitsBelow n = {0} := by rw [hn1]; decide
    rw [e1, e2, Finset.prod_empty, Finset.prod_singleton, mul_one, h2]
    simp only [hg]
    have hz : turnPoint (1 / (n : ℚ)) = 1 := by rw [hn1]; simpa using turnPoint_int 1
    rw [hz, one_pow, one_pow]
  · have e : unitsBelow n = insert 1 ((Finset.range n).filter (fun a => 2 ≤ a ∧ Nat.Coprime a n)) := by
      ext a
      simp only [unitsBelow, Finset.mem_filter, Finset.mem_range, Finset.mem_insert]
      constructor
      · rintro ⟨ha, hc⟩
        by_cases h : a = 1
        · exact .inl h
        · right
          refine ⟨ha, ?_, hc⟩
          rcases Nat.eq_zero_or_pos a with rfl | h0
          · rw [Nat.coprime_zero_left] at hc; omega
          · omega
      · rintro (rfl | ⟨ha, -, hc⟩)
        · exact ⟨by omega, Nat.coprime_one_left n⟩
        · exact ⟨ha, hc⟩
    rw [e, Finset.prod_insert, h2]
    simp

theorem ofRat_terms {q : ℚ} (hq : q ≠ 0) : (Cx.ofRat q).terms = [⟨0, q⟩] := by
  simp [Cx.ofRat, collect, addTerm, hq]

/-- The inverse (R9): of every element in canonical form, 0 going to 0. -/
theorem value_inv {x : Cx} (hx : x.canonical = true) : (Cx.inv x).value = x.value⁻¹ := by
  have hpos := level_pos x
  have hζ := primitive_turnPoint hpos
  obtain ⟨q, hq⟩ := norm_rational hpos hζ (polyOf x.level x.terms)
  have hN : Cx.mul x x.coNorm = Cx.ofRat q := by
    apply eq_of_value_eq (canonical_mul _ _) (canonical_ofRat q)
    rw [value_norm hx, hq, value_ofRat]
  by_cases h0 : x.value = 0
  · have hx0 : x = Cx.zero := (value_eq_zero_iff hx).1 h0
    subst hx0
    have : (Cx.mul Cx.zero Cx.zero.coNorm).terms = [] := rfl
    rw [Cx.inv, this]
    simp
  · have hq0 : q ≠ 0 := by
      rintro rfl
      rw [value_eq_aeval hx] at h0
      rw [Rat.cast_zero, Finset.prod_eq_zero_iff] at hq
      obtain ⟨a, ha, hz⟩ := hq
      rw [unitsBelow, Finset.mem_filter] at ha
      exact aeval_pow_ne_zero hpos hζ h0 ha.2 hz
    have hv : x.value * x.coNorm.value = (q : ℂ) := by
      rw [← value_mul, hN, value_ofRat]
    rw [Cx.inv, hN, ofRat_terms hq0]
    have hqC : (q : ℂ) ≠ 0 := by exact_mod_cast hq0
    simp only [if_true, value_scale]
    push_cast
    rw [eq_comm, inv_eq_of_mul_eq_one_right]
    rw [mul_left_comm, hv, one_div, inv_mul_cancel₀ hqC]

/-- Division is division (R9), of all elements; by 0 it gives 0, where no rule divides. -/
@[simp] theorem value_div (z w : Cx) : (Cx.div z w).value = z.value / w.value := by
  rw [Cx.div, value_mul, value_mul, value_conj, value_inv (canonical_abs2 w), value_abs2, div_eq_mul_inv,
    Complex.inv_def w.value, mul_assoc]
  push_cast
  rfl

end Sys2Proof.Machine
end

