-- ==== Sys2Proof/Laws/Enclosure.lean ====
section
/-! SUPPORT. The rational enclosures of cosines hold: `piScaled`, `cosSmall`, `cosDouble` and `cosEnclosure` are within the
errors they report, and the error at precision w is small against 2^w. -/

namespace Sys2Proof.Machine

/-! Rounding -/

theorem natDiv_real (a d : ℕ) (hd : 0 < d) :
    ((a / d : ℕ) : ℝ) ≤ (a : ℝ) / d ∧ (a : ℝ) / d < ((a / d : ℕ) : ℝ) + 1 := by
  have hdR : (0 : ℝ) < d := by exact_mod_cast hd
  constructor
  · rw [le_div_iff₀ hdR]; exact_mod_cast Nat.div_mul_le_self a d
  · rw [div_lt_iff₀ hdR]
    have := Nat.lt_div_mul_add hd (a := a)
    have h2 : a < (a / d + 1) * d := by rw [add_mul, one_mul]; exact this
    exact_mod_cast h2

theorem intDiv_real (a d : ℤ) (hd : 0 < d) :
    ((a / d : ℤ) : ℝ) ≤ (a : ℝ) / d ∧ (a : ℝ) / d < ((a / d : ℤ) : ℝ) + 1 := by
  have hdR : (0 : ℝ) < d := by exact_mod_cast hd
  constructor
  · rw [le_div_iff₀ hdR]; exact_mod_cast Int.ediv_mul_le a hd.ne'
  · rw [div_lt_iff₀ hdR]; exact_mod_cast Int.lt_ediv_add_one_mul_self a hd

/-! pi -/

/-- Term k of the series of `arctan (1/m)`. -/
noncomputable def arctanTerm (m k : ℕ) : ℝ := (-1) ^ k * ((m : ℝ)⁻¹) ^ (2 * k + 1) / ((2 * k + 1 : ℕ) : ℝ)

theorem arctanInv_partial (w m n : ℕ) (hm : 0 < m) :
    |(arctanInv w m n : ℝ) - 2 ^ w * ∑ k ∈ Finset.range n, arctanTerm m k| ≤ n := by
  unfold arctanInv
  induction n with
  | zero => simp
  | succ n ih =>
    rw [List.range_succ, List.map_append, List.sum_append, Finset.sum_range_succ]
    set rest := ((List.range n).map fun (k : ℕ) =>
      let a : ℤ := ((2 ^ w / ((2 * k + 1) * m ^ (2 * k + 1)) : ℕ) : ℤ)
      if k % 2 = 0 then a else -a).sum
    set q : ℕ := 2 ^ w / ((2 * n + 1) * m ^ (2 * n + 1)) with hq
    have hb := natDiv_real (2 ^ w) ((2 * n + 1) * m ^ (2 * n + 1)) (by positivity)
    rw [← hq] at hb
    have hterm : 2 ^ w * arctanTerm m n
        = (-1) ^ n * (((2 ^ w : ℕ) : ℝ) / (((2 * n + 1) * m ^ (2 * n + 1) : ℕ) : ℝ)) := by
      rw [arctanTerm]
      push_cast
      rw [inv_pow]
      field_simp
    simp only [List.map_cons, List.map_nil, List.sum_cons, List.sum_nil, add_zero]
    have hstep : |((if n % 2 = 0 then (q : ℤ) else -(q : ℤ) : ℤ) : ℝ) - 2 ^ w * arctanTerm m n| ≤ 1 := by
      rw [hterm]
      split
      · rename_i h
        rw [(Nat.even_iff.2 h).neg_one_pow, one_mul, abs_le]
        push_cast at hb ⊢
        constructor <;> linarith
      · rename_i h
        rw [(Nat.odd_iff.2 (by omega)).neg_one_pow, neg_one_mul, abs_le]
        push_cast at hb ⊢
        constructor <;> linarith
    calc |((rest + (if n % 2 = 0 then (q : ℤ) else -(q : ℤ)) : ℤ) : ℝ)
          - 2 ^ w * (∑ k ∈ Finset.range n, arctanTerm m k + arctanTerm m n)|
        = |((rest : ℝ) - 2 ^ w * ∑ k ∈ Finset.range n, arctanTerm m k)
          + (((if n % 2 = 0 then (q : ℤ) else -(q : ℤ) : ℤ) : ℝ) - 2 ^ w * arctanTerm m n)| := by
          congr 1; push_cast; ring
      _ ≤ n + 1 := (abs_add_le _ _).trans (add_le_add ih hstep)
      _ = ((n + 1 : ℕ) : ℝ) := by push_cast; ring

theorem arctan_tail (m n : ℕ) (hm : 5 ≤ m) :
    |Real.arctan (m : ℝ)⁻¹ - ∑ k ∈ Finset.range n, arctanTerm m k| ≤ (1 / 25 : ℝ) ^ n := by
  have hmR : (5 : ℝ) ≤ m := by exact_mod_cast hm
  set x : ℝ := (m : ℝ)⁻¹ with hx
  have hx0 : 0 < x := by rw [hx]; positivity
  have hx5 : x ≤ 1 / 5 := by rw [hx, one_div]; exact inv_anti₀ (by norm_num) hmR
  have hs : HasSum (arctanTerm m) (Real.arctan x) := by
    have := Real.hasSum_arctan (x := x) (by rw [Real.norm_eq_abs, abs_of_pos hx0]; linarith)
    exact this
  have htail := (hasSum_nat_add_iff' n).2 hs
  have hgeo : HasSum (fun k => x ^ (2 * n + 1) * (x ^ 2) ^ k) (x ^ (2 * n + 1) * (1 - x ^ 2)⁻¹) :=
    (hasSum_geometric_of_lt_one (by positivity) (by nlinarith)).mul_left _
  have hbound := hgeo.tsum_eq ▸ tsum_of_norm_bounded hgeo (f := fun k => arctanTerm m (k + n)) (by
    intro k
    rw [arctanTerm, norm_div, norm_mul, norm_pow, norm_neg, norm_one, one_pow, one_mul, norm_pow,
      Real.norm_eq_abs, Real.norm_eq_abs, ← hx, abs_of_pos hx0, abs_of_pos (by positivity)]
    have e : x ^ (2 * (k + n) + 1) = x ^ (2 * n + 1) * (x ^ 2) ^ k := by rw [← pow_mul, ← pow_add]; ring_nf
    rw [e]
    apply div_le_self (by positivity)
    have : (1 : ℕ) ≤ 2 * (k + n) + 1 := by omega
    exact_mod_cast this)
  rw [htail.tsum_eq, hgeo.tsum_eq, Real.norm_eq_abs] at hbound
  refine hbound.trans ?_
  have h1 : x * (1 - x ^ 2)⁻¹ ≤ 1 := by
    rw [← div_eq_mul_inv, div_le_one (by nlinarith)]; nlinarith
  calc x ^ (2 * n + 1) * (1 - x ^ 2)⁻¹ = (x ^ 2) ^ n * (x * (1 - x ^ 2)⁻¹) := by rw [← pow_mul]; ring
    _ ≤ (x ^ 2) ^ n * 1 := by gcongr
    _ ≤ (1 / 25 : ℝ) ^ n := by
      rw [mul_one]
      apply pow_le_pow_left₀ (by positivity)
      nlinarith

theorem arctanInv_bound (w m n : ℕ) (hm : 5 ≤ m) (hn : w ≤ 4 * n) :
    |(arctanInv w m n : ℝ) - 2 ^ w * Real.arctan (m : ℝ)⁻¹| ≤ n + 1 := by
  have h1 := arctanInv_partial w m n (by omega)
  have h2 := arctan_tail m n hm
  have h3 : (2 : ℝ) ^ w * (1 / 25 : ℝ) ^ n ≤ 1 := by
    calc (2 : ℝ) ^ w * (1 / 25 : ℝ) ^ n ≤ 2 ^ (4 * n) * (1 / 25 : ℝ) ^ n := by
          gcongr; norm_num
      _ = (16 / 25 : ℝ) ^ n := by rw [pow_mul, ← mul_pow]; norm_num
      _ ≤ 1 := pow_le_one₀ (by norm_num) (by norm_num)
  calc |(arctanInv w m n : ℝ) - 2 ^ w * Real.arctan (m : ℝ)⁻¹|
      = |((arctanInv w m n : ℝ) - 2 ^ w * ∑ k ∈ Finset.range n, arctanTerm m k)
        - 2 ^ w * (Real.arctan (m : ℝ)⁻¹ - ∑ k ∈ Finset.range n, arctanTerm m k)| := by congr 1; ring
    _ ≤ n + 2 ^ w * |Real.arctan (m : ℝ)⁻¹ - ∑ k ∈ Finset.range n, arctanTerm m k| := by
      refine (abs_sub _ _).trans ?_
      rw [abs_mul, abs_of_pos (by positivity : (0 : ℝ) < 2 ^ w)]
      linarith
    _ ≤ n + 2 ^ w * (1 / 25 : ℝ) ^ n := by gcongr
    _ ≤ n + 1 := by linarith

theorem piScaled_bound (w : ℕ) : |(piScaled w : ℝ) - Real.pi * 2 ^ w| ≤ 20 * ((w / 4 : ℕ) + 3) := by
  set n := w / 4 + 1 with hn
  have h5 := arctanInv_bound w 5 n (le_refl 5) (by omega)
  have h239 := arctanInv_bound w 239 n (by norm_num) (by omega)
  have hpi := Real.four_mul_arctan_inv_5_sub_arctan_inv_239
  have e : (piScaled w : ℝ) = 16 * (arctanInv w 5 n : ℝ) - 4 * (arctanInv w 239 n : ℝ) := by
    rw [piScaled, ← hn]; push_cast; ring
  have hpi' : Real.pi = 16 * Real.arctan (5 : ℝ)⁻¹ - 4 * Real.arctan (239 : ℝ)⁻¹ := by linarith
  have hnR : (n : ℝ) = ((w / 4 : ℕ) : ℝ) + 1 := by rw [hn]; push_cast; ring
  rw [e, hpi']
  push_cast at h5 h239
  rw [hnR] at h5 h239
  rw [abs_le] at h5 h239 ⊢
  constructor <;> nlinarith [h5.1, h5.2, h239.1, h239.2]

/-! Cosines -/

/-- The pair `b` encloses `cos θ * 2^w`. -/
def Encloses (w : ℕ) (b : ℤ × ℕ) (θ : ℝ) : Prop := |Real.cos θ * 2 ^ w - b.1| ≤ b.2

theorem cosDouble_encloses {w : ℕ} {b : ℤ × ℕ} {θ : ℝ} (h : Encloses w b θ) :
    Encloses w (cosDouble w b) (2 * θ) := by
  obtain ⟨c, e⟩ := b
  simp only [Encloses] at h
  simp only [Encloses, cosDouble]
  have hW : (0 : ℝ) < 2 ^ w := by positivity
  have hWne : (2 : ℝ) ^ w ≠ 0 := hW.ne'
  have d1 := intDiv_real (2 * c * c) (2 ^ w) (by positivity)
  have d2 := natDiv_real (2 * e * (2 * c.natAbs + e)) (2 ^ w) (by positivity)
  have hcabs : ((c.natAbs : ℕ) : ℝ) = |(c : ℝ)| := by rw [Nat.cast_natAbs]; push_cast; rfl
  push_cast at d1 d2
  rw [hcabs] at d2
  set C := Real.cos θ
  have hsum : |C * 2 ^ w + c| ≤ 2 * |(c : ℝ)| + e := by
    calc |C * 2 ^ w + c| = |(C * 2 ^ w - c) + 2 * c| := by congr 1; ring
      _ ≤ |C * 2 ^ w - c| + |2 * (c : ℝ)| := abs_add_le _ _
      _ ≤ 2 * |(c : ℝ)| + e := by rw [abs_mul, abs_two]; linarith
  have hprod : |2 * C ^ 2 * 2 ^ w - 2 * c * c / 2 ^ w| ≤ 2 * e * (2 * |(c : ℝ)| + e) / 2 ^ w := by
    have e1 : 2 * C ^ 2 * 2 ^ w - 2 * c * c / 2 ^ w = 2 * (C * 2 ^ w - c) * (C * 2 ^ w + c) / 2 ^ w := by
      field_simp
      ring
    rw [e1, abs_div, abs_of_pos hW, abs_mul, abs_mul, abs_two]
    gcongr
  have e2 : Real.cos (2 * θ) * 2 ^ w - (((2 * c * c / 2 ^ w - 2 ^ w : ℤ)) : ℝ)
      = 2 * C ^ 2 * 2 ^ w - ((2 * c * c / 2 ^ w : ℤ) : ℝ) := by
    rw [Real.cos_two_mul]; push_cast; ring
  rw [e2]
  push_cast
  rw [abs_le] at hprod ⊢
  constructor <;> linarith [hprod.1, hprod.2, d1.1, d1.2, d2.1, d2.2]

theorem pow_beats (k : ℕ) (hk : 17 ≤ k) : 40 * (k + 2) ≤ 2 ^ k := by
  induction k, hk using Nat.le_induction with
  | base => norm_num
  | succ k hk ih => rw [pow_succ]; omega

theorem smallAngle_bound {w k : ℕ} {r : ℚ} (h0 : 0 ≤ r) (h1 : r < 1) :
    |(smallAngle w k r : ℝ) - 2 * Real.pi * r / 2 ^ k * 2 ^ w| ≤ 40 * ((w / 4 : ℕ) + 3) / 2 ^ k + 1 := by
  have hden : (0 : ℝ) < (r.den : ℝ) := by exact_mod_cast r.den_pos
  have hr0 : (0 : ℝ) ≤ (r : ℝ) := by exact_mod_cast h0
  have hr1 : (r : ℝ) < 1 := by exact_mod_cast h1
  have hpi := piScaled_bound w
  have hdiv := intDiv_real (2 * piScaled w * r.num) ((r.den : ℤ) * 2 ^ k) (by
    have : (0 : ℤ) < r.den := by exact_mod_cast r.den_pos
    positivity)
  have hr : (r : ℝ) = (r.num : ℝ) / (r.den : ℝ) := by
    rw [Rat.cast_def]
  have e : ((2 * piScaled w * r.num : ℤ) : ℝ) / (((r.den : ℤ) * 2 ^ k : ℤ) : ℝ)
      = 2 * (piScaled w : ℝ) * r / 2 ^ k := by
    rw [hr]; push_cast; field_simp
  rw [e] at hdiv
  have hd : |2 * (piScaled w : ℝ) * r / 2 ^ k - 2 * Real.pi * r / 2 ^ k * 2 ^ w|
      ≤ 40 * ((w / 4 : ℕ) + 3) / 2 ^ k := by
    have e2 : 2 * (piScaled w : ℝ) * r / 2 ^ k - 2 * Real.pi * r / 2 ^ k * 2 ^ w
        = 2 * r * ((piScaled w : ℝ) - Real.pi * 2 ^ w) / 2 ^ k := by ring
    rw [e2, abs_div, abs_of_pos (by positivity : (0 : ℝ) < 2 ^ k), abs_mul, abs_mul, abs_two, abs_of_nonneg hr0]
    have hnum : 2 * (r : ℝ) * |(piScaled w : ℝ) - Real.pi * 2 ^ w| ≤ 40 * (((w / 4 : ℕ) : ℝ) + 3) := by
      nlinarith [abs_nonneg ((piScaled w : ℝ) - Real.pi * 2 ^ w)]
    exact div_le_div_of_nonneg_right hnum (by positivity)
  rw [smallAngle, abs_le]
  rw [abs_le] at hd
  constructor <;> linarith [hd.1, hd.2, hdiv.1, hdiv.2]

theorem smallAngle_size {w k : ℕ} (hw : 64 ≤ w) (hk : k = w / 4 + 1) {r : ℚ} (h0 : 0 ≤ r) (h1 : r < 1) :
    |(smallAngle w k r : ℝ) - 2 * Real.pi * r / 2 ^ k * 2 ^ w| ≤ 2 ∧ |(smallAngle w k r : ℝ)| ≤ 8 * 2 ^ w / 2 ^ k := by
  have hr0 : (0 : ℝ) ≤ (r : ℝ) := by exact_mod_cast h0
  have hr1 : (r : ℝ) < 1 := by exact_mod_cast h1
  have hk17 : 17 ≤ k := by omega
  have hb := smallAngle_bound (w := w) (k := k) h0 h1
  have hkpos : (0 : ℝ) < 2 ^ k := by positivity
  have hsmall : 40 * (((w / 4 : ℕ) : ℝ) + 3) / 2 ^ k ≤ 1 := by
    rw [div_le_one hkpos]
    have := pow_beats k hk17
    have h2 : 40 * (w / 4 + 3) ≤ 2 ^ k := by omega
    exact_mod_cast h2
  have hclose : |(smallAngle w k r : ℝ) - 2 * Real.pi * r / 2 ^ k * 2 ^ w| ≤ 2 := hb.trans (by linarith)
  refine ⟨hclose, ?_⟩
  have hpi : Real.pi < 3.15 := Real.pi_lt_d2
  have hpi0 := Real.pi_pos
  have hbig : (2 : ℝ) ≤ 2 ^ w / 2 ^ k := by
    rw [le_div_iff₀ hkpos, ← pow_succ']
    exact pow_le_pow_right₀ (by norm_num) (by omega)
  have hs0 : 0 ≤ 2 * Real.pi * r / 2 ^ k * 2 ^ w := by positivity
  have hs1 : 2 * Real.pi * r / 2 ^ k * 2 ^ w ≤ 6.3 * (2 ^ w / 2 ^ k) := by
    have : 2 * Real.pi * r / 2 ^ k * 2 ^ w = 2 * Real.pi * r * (2 ^ w / 2 ^ k) := by ring
    rw [this]
    gcongr
    nlinarith
  have e : 8 * 2 ^ w / (2 : ℝ) ^ k = 8 * (2 ^ w / 2 ^ k) := by ring
  rw [e, abs_le]
  rw [abs_le] at hclose
  constructor <;> linarith [hclose.1, hclose.2]

theorem cosSmall_encloses {w k : ℕ} (hw : 64 ≤ w) (hk : k = w / 4 + 1) {r : ℚ} (h0 : 0 ≤ r) (h1 : r < 1) :
    Encloses w (cosSmall w k r) (2 * Real.pi * r / 2 ^ k) := by
  have hb := smallAngle_bound (w := w) (k := k) h0 h1
  have hsz := (smallAngle_size hw hk h0 h1).2
  have hW : (0 : ℝ) < 2 ^ w := by positivity
  set A := smallAngle w k r with hA
  set s := 2 * Real.pi * (r : ℝ) / 2 ^ k with hs
  simp only [Encloses, cosSmall, ← hA]
  have d1 := intDiv_real (A * A) (2 ^ (w + 1)) (by positivity)
  have d2 := natDiv_real (A.natAbs ^ 4 * 5) (96 * 2 ^ (3 * w)) (by positivity)
  have d3 := natDiv_real (40 * (w / 4 + 3)) (2 ^ k) (by positivity)
  have hAabs : ((A.natAbs : ℕ) : ℝ) = |(A : ℝ)| := by rw [Nat.cast_natAbs]; push_cast; rfl
  push_cast at d1 d2 d3
  rw [hAabs] at d2
  set a : ℝ := (A : ℝ) / 2 ^ w with ha
  have hAW : (A : ℝ) = a * 2 ^ w := by rw [ha]; field_simp
  have ha1 : |a| ≤ 1 := by
    rw [ha, abs_div, abs_of_pos hW, div_le_one hW]
    refine hsz.trans ?_
    rw [div_le_iff₀ (by positivity)]
    have : (8 : ℝ) ≤ 2 ^ k := by
      calc (8 : ℝ) = 2 ^ 3 := by norm_num
        _ ≤ 2 ^ k := pow_le_pow_right₀ (by norm_num) (by omega)
    nlinarith
  have hcos := Real.cos_bound ha1
  have hlip := Real.abs_cos_sub_cos_le s a
  have hlip2 : |Real.cos s - Real.cos a| * 2 ^ w ≤ 40 * ((w / 4 : ℕ) + 3) / 2 ^ k + 1 := by
    calc |Real.cos s - Real.cos a| * 2 ^ w ≤ |s - a| * 2 ^ w := by gcongr
      _ = |(A : ℝ) - s * 2 ^ w| := by
        rw [hAW, ← sub_mul, abs_mul, abs_of_pos hW, abs_sub_comm]
      _ ≤ _ := hb
  have hcos2 : |Real.cos a - (1 - a ^ 2 / 2)| * 2 ^ w ≤ |(A : ℝ)| ^ 4 * 5 / (96 * 2 ^ (3 * w)) := by
    calc |Real.cos a - (1 - a ^ 2 / 2)| * 2 ^ w ≤ |a| ^ 4 * (5 / 96) * 2 ^ w := by gcongr
      _ = |(A : ℝ)| ^ 4 * 5 / (96 * 2 ^ (3 * w)) := by
        rw [hAW, abs_mul, abs_of_pos hW, mul_pow, pow_mul']
        field_simp
  have e1 : (1 - a ^ 2 / 2) * 2 ^ w = 2 ^ w - (A : ℝ) * A / 2 ^ (w + 1) := by
    have h2 : (2 : ℝ) ^ (w + 1) = 2 ^ w * 2 := pow_succ _ _
    rw [hAW, h2]; field_simp
  have habs : ∀ x : ℝ, |x| * 2 ^ w = |x * 2 ^ w| := fun x => by rw [abs_mul, abs_of_pos hW]
  rw [habs] at hlip2 hcos2
  have hlip3 := abs_le.1 hlip2
  have hcos3 := abs_le.1 hcos2
  have e2 : (Real.cos a - (1 - a ^ 2 / 2)) * 2 ^ w = Real.cos a * 2 ^ w - (2 ^ w - (A : ℝ) * A / 2 ^ (w + 1)) := by
    rw [sub_mul, e1]
  rw [e2] at hcos3
  rw [sub_mul] at hlip3
  push_cast
  rw [abs_le]
  constructor <;> linarith [hlip3.1, hlip3.2, hcos3.1, hcos3.2, d1.1, d1.2, d2.1, d2.2, d3.1, d3.2]

/-- The error `cosSmall` reports. -/
theorem cosSmall_error {w k : ℕ} (hw : 64 ≤ w) (hk : k = w / 4 + 1) {r : ℚ} (h0 : 0 ≤ r) (h1 : r < 1) :
    (cosSmall w k r).2 ≤ 120 ∧ 4 ≤ (cosSmall w k r).2 := by
  have hsz := (smallAngle_size hw hk h0 h1).2
  simp only [cosSmall]
  set A := smallAngle w k r with hA
  have hAabs : ((A.natAbs : ℕ) : ℝ) = |(A : ℝ)| := by rw [Nat.cast_natAbs]; push_cast; rfl
  have d2 := (natDiv_real (A.natAbs ^ 4 * 5) (96 * 2 ^ (3 * w)) (by positivity)).1
  have h3 : 40 * (w / 4 + 3) / 2 ^ k ≤ 1 := by
    have := pow_beats k (by omega)
    apply Nat.div_le_of_le_mul
    omega
  have h4 : A.natAbs ^ 4 * 5 / (96 * 2 ^ (3 * w)) ≤ 107 := by
    clear h3
    have : ((A.natAbs ^ 4 * 5 / (96 * 2 ^ (3 * w)) : ℕ) : ℝ) ≤ 107 := by
      refine d2.trans ?_
      push_cast
      rw [hAabs, div_le_iff₀ (by positivity)]
      have hp : |(A : ℝ)| ^ 4 ≤ (8 * 2 ^ w / 2 ^ k) ^ 4 := pow_le_pow_left₀ (abs_nonneg _) hsz 4
      have hk4 : (2 : ℝ) * 2 ^ w ≤ (2 ^ k) ^ 4 := by
        rw [← pow_succ', ← pow_mul]
        exact pow_le_pow_right₀ (by norm_num) (by omega)
      have hk0 : (0 : ℝ) < (2 ^ k) ^ 4 := by positivity
      have e : (8 * 2 ^ w / (2 : ℝ) ^ k) ^ 4 = 4096 * (2 ^ w) ^ 4 / (2 ^ k) ^ 4 := by
        rw [div_pow, mul_pow]; norm_num
      have e3 : (2 : ℝ) ^ (3 * w) = (2 ^ w) ^ 3 := by rw [← pow_mul, mul_comm]
      rw [e] at hp
      have hq : 4096 * ((2 : ℝ) ^ w) ^ 4 / (2 ^ k) ^ 4 ≤ 2048 * (2 ^ w) ^ 3 := by
        rw [div_le_iff₀ hk0]
        have hW3 : (0 : ℝ) < (2 ^ w) ^ 3 := by positivity
        nlinarith [mul_le_mul_of_nonneg_left hk4 hW3.le]
      rw [e3]
      have hW3 : (0 : ℝ) < (2 ^ w) ^ 3 := by positivity
      nlinarith
    exact_mod_cast this
  generalize A.natAbs ^ 4 * 5 / (96 * 2 ^ (3 * w)) = x at h4 ⊢
  generalize 40 * (w / 4 + 3) / 2 ^ k = y at h3 ⊢
  omega

/-- Doubling at most multiplies the error by 8 while it is small. -/
theorem cosDouble_error {w : ℕ} {b : ℤ × ℕ} {θ : ℝ} (h : Encloses w b θ) (h4 : 4 ≤ b.2) (hs : 6 * b.2 ≤ 2 ^ w) :
    (cosDouble w b).2 ≤ 8 * b.2 := by
  obtain ⟨c, e⟩ := b
  simp only at h4 hs
  simp only [Encloses] at h
  have hW : (0 : ℝ) < 2 ^ w := by positivity
  have hcabs : ((c.natAbs : ℕ) : ℝ) = |(c : ℝ)| := by rw [Nat.cast_natAbs]; push_cast; rfl
  have hc : |(c : ℝ)| ≤ 2 ^ w + e := by
    have h1 : |Real.cos θ * 2 ^ w| ≤ 2 ^ w := by
      rw [abs_mul, abs_of_pos hW]
      exact mul_le_of_le_one_left hW.le (Real.abs_cos_le_one θ)
    calc |(c : ℝ)| = |Real.cos θ * 2 ^ w - (Real.cos θ * 2 ^ w - c)| := by congr 1; ring
      _ ≤ 2 ^ w + e := (abs_sub _ _).trans (add_le_add h1 h)
  have hcN : c.natAbs ≤ 2 ^ w + e := by
    have : ((c.natAbs : ℕ) : ℝ) ≤ ((2 ^ w + e : ℕ) : ℝ) := by rw [hcabs]; push_cast; exact hc
    exact_mod_cast this
  simp only [cosDouble]
  have hd : 2 * e * (2 * c.natAbs + e) / 2 ^ w ≤ 5 * e := by
    apply Nat.div_le_of_le_mul
    have h1 : 2 * c.natAbs + e ≤ 2 * 2 ^ w + 3 * e := by omega
    calc 2 * e * (2 * c.natAbs + e) ≤ 2 * e * (2 * 2 ^ w + 3 * e) := Nat.mul_le_mul_left _ h1
      _ = e * (4 * 2 ^ w + 6 * e) := by ring
      _ ≤ e * (4 * 2 ^ w + 2 ^ w) := Nat.mul_le_mul_left _ (by omega)
      _ = 2 ^ w * (5 * e) := by ring
  generalize 2 * e * (2 * c.natAbs + e) / 2 ^ w = y at hd ⊢
  omega

/-- The enclosure after j doublings, with its error. -/
theorem cosDouble_iterate {w k : ℕ} (hw : 64 ≤ w) (hk : k = w / 4 + 1) {r : ℚ} (h0 : 0 ≤ r) (h1 : r < 1) (j : ℕ)
    (hj : j ≤ k) :
    Encloses w ((List.range j).foldl (fun b _ => cosDouble w b) (cosSmall w k r)) (2 ^ j * (2 * Real.pi * r / 2 ^ k)) ∧
      ((List.range j).foldl (fun b _ => cosDouble w b) (cosSmall w k r)).2 ≤ 120 * 8 ^ j := by
  induction j with
  | zero => simpa using ⟨cosSmall_encloses hw hk h0 h1, (cosSmall_error hw hk h0 h1).1⟩
  | succ j ih =>
    obtain ⟨ih1, ih2⟩ := ih (by omega)
    rw [List.range_succ, List.foldl_append, List.foldl_cons, List.foldl_nil]
    set b := (List.range j).foldl (fun b _ => cosDouble w b) (cosSmall w k r)
    refine ⟨?_, ?_⟩
    · have := cosDouble_encloses ih1
      have e : 2 * (2 ^ j * (2 * Real.pi * (r : ℝ) / 2 ^ k)) = 2 ^ (j + 1) * (2 * Real.pi * r / 2 ^ k) := by
        rw [pow_succ]; ring
      rwa [e] at this
    · have hbig : 6 * (120 * 8 ^ j) ≤ 2 ^ w := by
        calc 6 * (120 * 8 ^ j) = 720 * 8 ^ j := by ring
          _ ≤ 720 * 8 ^ k := by
            apply Nat.mul_le_mul_left
            exact Nat.pow_le_pow_right (by norm_num) (by omega)
          _ ≤ 2 ^ w := by
            have h2 : 11520 ≤ 2 ^ k := by
              calc 11520 ≤ 2 ^ 17 := by norm_num
                _ ≤ 2 ^ k := Nat.pow_le_pow_right (by norm_num) (by omega)
            have h3 : 2 ^ (4 * k) ≤ 16 * 2 ^ w := by
              have : 2 ^ (4 * k) ≤ 2 ^ (w + 4) := Nat.pow_le_pow_right (by norm_num) (by omega)
              rw [pow_add] at this
              omega
            have h4 : 2 ^ (4 * k) = 8 ^ k * 2 ^ k := by
              rw [show (8 : ℕ) = 2 ^ 3 from rfl, ← pow_mul, ← pow_add]; congr 1; omega
            have h5 : 8 ^ k * 11520 ≤ 8 ^ k * 2 ^ k := Nat.mul_le_mul_left _ h2
            omega
      have h6 : 6 * b.2 ≤ 2 ^ w := le_trans (Nat.mul_le_mul_left 6 ih2) hbig
      rw [pow_succ]
      by_cases h4 : 4 ≤ b.2
      · have := cosDouble_error ih1 h4 h6
        omega
      · have hcr : (cosDouble w b).2 ≤ 8 * 4 := by
          have hmono : (cosDouble w b).2 ≤ (cosDouble w (b.1, 4)).2 := by
            simp only [cosDouble]
            have : 2 * b.2 * (2 * b.1.natAbs + b.2) ≤ 2 * 4 * (2 * b.1.natAbs + 4) :=
              Nat.mul_le_mul (by omega) (by omega)
            have := Nat.div_le_div_right (c := 2 ^ w) this
            omega
          have henc : Encloses w (b.1, 4) (2 ^ j * (2 * Real.pi * r / 2 ^ k)) := by
            simp only [Encloses] at ih1 ⊢
            refine ih1.trans ?_
            have : b.2 ≤ 4 := by omega
            exact_mod_cast this
          have h64 : 6 * 4 ≤ 2 ^ w := by
            calc 6 * 4 ≤ 2 ^ 64 := by norm_num
              _ ≤ 2 ^ w := Nat.pow_le_pow_right (by norm_num) hw
          exact hmono.trans (cosDouble_error henc (le_refl 4) h64)
        have : 1 ≤ 8 ^ j := Nat.one_le_pow _ _ (by norm_num)
        omega

theorem cosEnclosure_spec {w : ℕ} (hw : 64 ≤ w) {r : ℚ} (h0 : 0 ≤ r) (h1 : r < 1) :
    Encloses w (cosEnclosure w r) (2 * Real.pi * r) ∧ (cosEnclosure w r).2 ≤ 120 * 8 ^ (w / 4 + 1) := by
  have h := cosDouble_iterate hw rfl h0 h1 (w / 4 + 1) (le_refl _)
  have e : (2 : ℝ) ^ (w / 4 + 1) * (2 * Real.pi * r / 2 ^ (w / 4 + 1)) = 2 * Real.pi * r := by field_simp
  rw [e] at h
  exact h

end Sys2Proof.Machine
end

