-- ==== Sys2Proof/Laws/Sign.lean ====
section
/-! SUPPORT. `Cx.sign` is exact: a number in canonical form that is real and not 0 lies further from 0 than its norm
allows, and the last precision `signSearch` tries is finer than that. -/

namespace Sys2Proof.Machine

open Polynomial

/-! The enclosure of a list of terms -/

theorem turnPoint_re (r : ℚ) : (turnPoint r).re = Real.cos (2 * Real.pi * r) := by
  have e : 2 * (Real.pi : ℂ) * Complex.I * (r : ℂ) = ((2 * Real.pi * (r : ℝ) : ℝ) : ℂ) * Complex.I := by
    push_cast; ring
  rw [turnPoint, e, Complex.exp_ofReal_mul_I_re]

theorem norm_turnPoint (r : ℚ) : ‖turnPoint r‖ = 1 := by
  have e : 2 * (Real.pi : ℂ) * Complex.I * (r : ℂ) = ((2 * Real.pi * (r : ℝ) : ℝ) : ℂ) * Complex.I := by
    push_cast; ring
  rw [turnPoint, e, Complex.norm_exp_ofReal_mul_I]

/-- The sum of the sizes of the coefficients. -/
def sizeOfTerms (ts : List Term) : ℚ := (ts.map fun t => |t.coeff|).sum

theorem enclosure_spec {w : ℕ} (hw : 64 ≤ w) (ts : List Term) (h : ∀ t ∈ ts, 0 ≤ t.turn ∧ t.turn < 1) :
    |(termsValue ts).re * 2 ^ w - ((enclosure w ts).1 : ℝ)| ≤ ((enclosure w ts).2 : ℝ) ∧
      ((enclosure w ts).2 : ℝ) ≤ 120 * 8 ^ (w / 4 + 1) * (sizeOfTerms ts : ℝ) := by
  induction ts with
  | nil => simp [enclosure, sizeOfTerms]
  | cons t ts ih =>
    obtain ⟨ih1, ih2⟩ := ih fun u hu => h u (List.mem_cons_of_mem t hu)
    obtain ⟨h0, h1⟩ := h t List.mem_cons_self
    obtain ⟨hc, he⟩ := cosEnclosure_spec hw h0 h1
    have e : enclosure w (t :: ts) = (t.coeff * ((cosEnclosure w t.turn).1 : ℚ) + (enclosure w ts).1,
      |t.coeff| * ((cosEnclosure w t.turn).2 : ℚ) + (enclosure w ts).2) := rfl
    rw [e]
    set b := cosEnclosure w t.turn
    have hre : ((t.coeff : ℂ) * turnPoint t.turn).re = (t.coeff : ℝ) * Real.cos (2 * Real.pi * t.turn) := by
      have hcast : (t.coeff : ℂ) = ((t.coeff : ℝ) : ℂ) := by push_cast; rfl
      rw [hcast, Complex.re_ofReal_mul, turnPoint_re]
    have hsz : (sizeOfTerms (t :: ts) : ℝ) = |(t.coeff : ℝ)| + (sizeOfTerms ts : ℝ) := by
      simp [sizeOfTerms]
    constructor
    · rw [termsValue_cons, Complex.add_re, hre]
      push_cast
      have h2 : |(t.coeff : ℝ) * (Real.cos (2 * Real.pi * t.turn) * 2 ^ w - b.1)| ≤ |(t.coeff : ℝ)| * b.2 := by
        rw [abs_mul]
        exact mul_le_mul_of_nonneg_left hc (abs_nonneg _)
      rw [abs_le] at h2 ih1 ⊢
      constructor <;> linarith [h2.1, h2.2, ih1.1, ih1.2]
    · rw [hsz]
      push_cast
      have h3 : (b.2 : ℝ) ≤ 120 * 8 ^ (w / 4 + 1) := by exact_mod_cast he
      have := mul_le_mul_of_nonneg_left h3 (abs_nonneg (t.coeff : ℝ))
      linarith

/-! What the search answers -/

theorem signSearch_gt (fuel w : ℕ) (hw : 64 ≤ w) (ts : List Term) (h : ∀ t ∈ ts, 0 ≤ t.turn ∧ t.turn < 1)
    (hs : signSearch fuel w ts = .gt) : 0 < (termsValue ts).re := by
  induction fuel generalizing w with
  | zero => simp [signSearch] at hs
  | succ fuel ih =>
    have hb := (enclosure_spec hw ts h).1
    rw [abs_le] at hb
    simp only [signSearch] at hs
    split at hs
    · rename_i hlt
      have hlt' : ((enclosure w ts).2 : ℝ) < ((enclosure w ts).1 : ℝ) := by exact_mod_cast hlt
      have : 0 < (termsValue ts).re * 2 ^ w := by linarith [hb.1]
      exact (pos_iff_pos_of_mul_pos this).2 (by positivity)
    · split at hs
      · cases hs
      · exact ih (2 * w) (by omega) hs

theorem signSearch_lt (fuel w : ℕ) (hw : 64 ≤ w) (ts : List Term) (h : ∀ t ∈ ts, 0 ≤ t.turn ∧ t.turn < 1)
    (hs : signSearch fuel w ts = .lt) : (termsValue ts).re < 0 := by
  induction fuel generalizing w with
  | zero => simp [signSearch] at hs
  | succ fuel ih =>
    have hb := (enclosure_spec hw ts h).1
    rw [abs_le] at hb
    simp only [signSearch] at hs
    split at hs
    · cases hs
    · split at hs
      · rename_i hlt
        have hlt' : ((enclosure w ts).1 : ℝ) < -((enclosure w ts).2 : ℝ) := by exact_mod_cast hlt
        have : (termsValue ts).re * 2 ^ w < 0 := by linarith [hb.2]
        by_contra hc
        push Not at hc
        have : 0 ≤ (termsValue ts).re * 2 ^ w := by positivity
        linarith
      · exact ih (2 * w) (by omega) hs

theorem signSearch_eq (fuel w : ℕ) (hw : 64 ≤ w) (ts : List Term) (h : ∀ t ∈ ts, 0 ≤ t.turn ∧ t.turn < 1)
    (hs : signSearch (fuel + 1) w ts = .eq) :
    |(termsValue ts).re| * 2 ^ (2 ^ fuel * w) ≤ 240 * 8 ^ (2 ^ fuel * w / 4 + 1) * (sizeOfTerms ts : ℝ) := by
  induction fuel generalizing w with
  | zero =>
    obtain ⟨hb, he⟩ := enclosure_spec hw ts h
    simp only [signSearch] at hs
    split at hs
    · cases hs
    · split at hs
      · cases hs
      · rename_i h1 h2
        have h1' : ((enclosure w ts).1 : ℝ) ≤ ((enclosure w ts).2 : ℝ) := by exact_mod_cast not_lt.1 h1
        have h2' : -((enclosure w ts).2 : ℝ) ≤ ((enclosure w ts).1 : ℝ) := by exact_mod_cast not_lt.1 h2
        rw [pow_zero, one_mul]
        have e : |(termsValue ts).re| * 2 ^ w = |(termsValue ts).re * 2 ^ w| := by
          rw [abs_mul, abs_of_pos (by positivity : (0 : ℝ) < 2 ^ w)]
        rw [e]
        have : |(termsValue ts).re * 2 ^ w| ≤ 2 * ((enclosure w ts).2 : ℝ) := by
          rw [abs_le] at hb ⊢
          constructor <;> linarith [hb.1, hb.2]
        linarith
  | succ fuel ih =>
    rw [signSearch] at hs
    split at hs
    · cases hs
    · split at hs
      · cases hs
      · have := ih (2 * w) (by omega) hs
        rwa [← mul_assoc, ← pow_succ] at this

/-! How near to 0 a number can be -/

/-- The least common multiple of the denominators of the coefficients. -/
def coeffDen (ts : List Term) : ℕ := ts.foldr (fun t n => Nat.lcm t.coeff.den n) 1

theorem coeffDen_pos (ts : List Term) : 0 < coeffDen ts := by
  induction ts with
  | nil => simp [coeffDen]
  | cons t ts ih => exact Nat.lcm_pos t.coeff.den_pos ih

theorem den_dvd_coeffDen (ts : List Term) : ∀ t ∈ ts, t.coeff.den ∣ coeffDen ts := by
  induction ts with
  | nil => simp
  | cons t ts ih =>
    intro u hu
    rcases List.mem_cons.1 hu with rfl | hu
    · exact Nat.dvd_lcm_left _ _
    · exact (ih u hu).trans (Nat.dvd_lcm_right _ _)

theorem mul_den_int {q : ℚ} {d : ℕ} (h : q.den ∣ d) : q * d = (((q * d).num : ℤ) : ℚ) := by
  obtain ⟨k, rfl⟩ := h
  have e : q * ((q.den * k : ℕ) : ℚ) = ((q.num * k : ℤ) : ℚ) := by
    push_cast
    rw [← mul_assoc, Rat.mul_den_eq_num]
  rw [e, Rat.num_intCast]

theorem turnPoint_integral (r : ℚ) : IsIntegral ℤ (turnPoint r) := by
  refine ⟨X ^ r.den - 1, monic_X_pow_sub_C 1 r.den_pos.ne', ?_⟩
  have e : turnPoint r ^ r.den = turnPoint ((r.num : ℤ) : ℚ) := by
    rw [turnPoint, ← Complex.exp_nat_mul, turnPoint]
    congr 1
    have h : ((r.den : ℂ)) * (r : ℂ) = ((r.num : ℤ) : ℂ) := by
      have : (r.den : ℚ) * r = r.num := by rw [mul_comm, Rat.mul_den_eq_num]
      exact_mod_cast congrArg (Rat.cast : ℚ → ℂ) this
    push_cast
    linear_combination 2 * Real.pi * Complex.I * h
  simp [e, turnPoint_int]

theorem scaled_integral (d : ℕ) (ts : List Term) (h : ∀ t ∈ ts, t.coeff.den ∣ d) :
    IsIntegral ℤ ((d : ℂ) * termsValue ts) := by
  induction ts with
  | nil => simpa using isIntegral_zero
  | cons t ts ih =>
    have ih' := ih fun u hu => h u (List.mem_cons_of_mem t hu)
    have hc := mul_den_int (h t List.mem_cons_self)
    have e : (d : ℂ) * termsValue (t :: ts)
        = (((t.coeff * d).num : ℤ) : ℂ) * turnPoint t.turn + (d : ℂ) * termsValue ts := by
      have : ((t.coeff * d : ℚ) : ℂ) = (((t.coeff * d).num : ℤ) : ℂ) := by
        conv_lhs => rw [hc]
        push_cast; rfl
      rw [termsValue_cons, ← this]
      push_cast
      ring
    rw [e]
    exact ((isIntegral_algebraMap (R := ℤ) (A := ℂ)).mul (turnPoint_integral _)).add ih'

theorem norm_termsValue_le (ts : List Term) : ‖termsValue ts‖ ≤ (sizeOfTerms ts : ℝ) := by
  induction ts with
  | nil => simp [sizeOfTerms]
  | cons t ts ih =>
    rw [termsValue_cons]
    refine (norm_add_le _ _).trans ?_
    rw [norm_mul, norm_turnPoint, mul_one]
    have hcast : (t.coeff : ℂ) = ((t.coeff : ℝ) : ℂ) := by push_cast; rfl
    rw [hcast, Complex.norm_real, Real.norm_eq_abs]
    have e : (sizeOfTerms (t :: ts) : ℝ) = |(t.coeff : ℝ)| + (sizeOfTerms ts : ℝ) := by simp [sizeOfTerms]
    rw [e]
    linarith

/-- The sum of the sizes of the coefficients over their common denominator. -/
def scaledSize (ts : List Term) : ℕ :=
  ts.foldr (fun t n => (t.coeff * (coeffDen ts : ℚ)).num.natAbs + n) 0

theorem scaledSize_eq (ts : List Term) : (scaledSize ts : ℚ) = coeffDen ts * sizeOfTerms ts := by
  have key : ∀ (d : ℕ) (us : List Term), (∀ t ∈ us, t.coeff.den ∣ d) →
      ((us.foldr (fun t n => (t.coeff * (d : ℚ)).num.natAbs + n) 0 : ℕ) : ℚ) = d * sizeOfTerms us := by
    intro d us h
    induction us with
    | nil => simp [sizeOfTerms]
    | cons t us ih =>
      have ih' := ih fun u hu => h u (List.mem_cons_of_mem t hu)
      have hc := mul_den_int (h t List.mem_cons_self)
      have habs : (((t.coeff * (d : ℚ)).num.natAbs : ℕ) : ℚ) = |t.coeff| * d := by
        have h1 : (((t.coeff * (d : ℚ)).num.natAbs : ℕ) : ℚ) = |((t.coeff * d).num : ℚ)| := by
          rw [Nat.cast_natAbs]; push_cast; rfl
        rw [h1, ← hc, abs_mul, Nat.abs_cast]
      rw [List.foldr_cons]
      push_cast
      rw [ih', habs]
      simp only [sizeOfTerms, List.map_cons, List.sum_cons]
      ring
  exact key _ _ (den_dvd_coeffDen ts)

theorem sizeOfTerms_map (f : ℚ → ℚ) (ts : List Term) :
    sizeOfTerms (ts.map fun t => (⟨f t.turn, t.coeff⟩ : Term)) = sizeOfTerms ts := by
  rw [sizeOfTerms, sizeOfTerms, List.map_map]; rfl

/-- A number other than 0 is no nearer to 0 than its norm allows. -/
theorem separation {x : Cx} (hx : x.canonical = true) (h0 : x.value ≠ 0) :
    1 ≤ coeffDen x.terms * ‖x.value‖ * (scaledSize x.terms : ℝ) ^ x.level ∧ 1 ≤ scaledSize x.terms := by
  set n := x.level with hn
  set d := coeffDen x.terms with hd
  set S := scaledSize x.terms with hS
  have hpos : 0 < n := level_pos x
  have hζ := primitive_turnPoint hpos
  obtain ⟨q, hq⟩ := norm_rational hpos hζ (polyOf n x.terms)
  set g : ℕ → ℂ := fun a => aeval (turnPoint (1 / (n : ℚ)) ^ a) (polyOf n x.terms) with hg
  have hgt : ∀ a, g a = termsValue (x.terms.map fun t => ⟨((a : ℤ) : ℚ) * t.turn, t.coeff⟩) := fun a =>
    aeval_polyOf hpos a x.terms (Canonical.turns hx)
  have hval : x.value = aeval (turnPoint (1 / (n : ℚ))) (polyOf n x.terms) := value_eq_aeval hx
  have hdR : (0 : ℝ) < d := by exact_mod_cast coeffDen_pos x.terms
  have hSR : (S : ℝ) = d * (sizeOfTerms x.terms : ℝ) := by exact_mod_cast scaledSize_eq x.terms
  have hint : ∀ a, IsIntegral ℤ ((d : ℂ) * g a) := by
    intro a
    rw [hgt]
    apply scaled_integral
    intro t ht
    obtain ⟨u, hu, rfl⟩ := List.mem_map.1 ht
    exact den_dvd_coeffDen _ u hu
  have hle : ∀ a, ‖(d : ℂ) * g a‖ ≤ S := by
    intro a
    rw [norm_mul, Complex.norm_natCast, hSR]
    refine mul_le_mul_of_nonneg_left ?_ hdR.le
    rw [hgt]
    refine (norm_termsValue_le _).trans (le_of_eq ?_)
    rw [sizeOfTerms_map fun r => ((a : ℤ) : ℚ) * r]
  have hne : ∀ a ∈ unitsBelow n, g a ≠ 0 := by
    intro a ha
    rw [unitsBelow, Finset.mem_filter] at ha
    rw [hval] at h0
    exact aeval_pow_ne_zero hpos hζ h0 ha.2
  obtain ⟨a0, ha0, hv0⟩ : ∃ a0 ∈ unitsBelow n, g a0 = x.value := by
    rcases Nat.lt_or_ge n 2 with hlt | hge
    · have hn1 : n = 1 := by omega
      refine ⟨0, by rw [hn1]; decide, ?_⟩
      have hz : turnPoint (1 / (n : ℚ)) = 1 := by rw [hn1]; simpa using turnPoint_int 1
      rw [hval, hg]
      simp only [hz, one_pow]
    · refine ⟨1, ?_, ?_⟩
      · rw [unitsBelow, Finset.mem_filter, Finset.mem_range]
        exact ⟨hge, Nat.coprime_one_left n⟩
      · rw [hval, hg]; simp only [pow_one]
  -- the product of the conjugates is an integer other than 0
  have hprod1 : (1 : ℝ) ≤ ‖∏ a ∈ unitsBelow n, (d : ℂ) * g a‖ := by
    have hI : IsIntegral ℤ (∏ a ∈ unitsBelow n, (d : ℂ) * g a) := IsIntegral.prod _ fun a _ => hint a
    have hQ : ∏ a ∈ unitsBelow n, (d : ℂ) * g a = (((d : ℚ) ^ (unitsBelow n).card * q : ℚ) : ℂ) := by
      rw [Finset.prod_mul_distrib, Finset.prod_const, hq]
      push_cast
      rfl
    have hnz : ∏ a ∈ unitsBelow n, (d : ℂ) * g a ≠ 0 := by
      rw [Finset.prod_ne_zero_iff]
      intro a ha
      refine mul_ne_zero ?_ (hne a ha)
      exact_mod_cast (coeffDen_pos x.terms).ne'
    rw [hQ] at hI hnz ⊢
    set Q := (d : ℚ) ^ (unitsBelow n).card * q
    have hIQ : IsIntegral ℤ Q := by
      have h2 : IsIntegral ℤ ((algebraMap ℚ ℂ) Q) := hI
      exact (isIntegral_algebraMap_iff (algebraMap ℚ ℂ).injective).1 h2
    obtain ⟨z, hz⟩ := IsIntegrallyClosed.isIntegral_iff.1 hIQ
    have hzQ : Q = ((z : ℤ) : ℚ) := by rw [← hz]; rfl
    rw [hzQ] at hnz ⊢
    have hz0 : z ≠ 0 := by rintro rfl; exact hnz (by simp)
    have h1 : (1 : ℤ) ≤ |z| := Int.one_le_abs hz0
    have e : (((z : ℤ) : ℚ) : ℂ) = (z : ℂ) := by push_cast; rfl
    rw [e, Complex.norm_intCast]
    exact_mod_cast h1
  have hS1 : 1 ≤ S := by
    rw [Nat.one_le_iff_ne_zero]
    intro hz
    have h1 := hle a0
    rw [hz, hv0, Nat.cast_zero] at h1
    have h2 : (d : ℂ) * x.value = 0 := norm_le_zero_iff.1 h1
    rcases mul_eq_zero.1 h2 with h3 | h3
    · exact (coeffDen_pos x.terms).ne' (by exact_mod_cast h3)
    · exact h0 h3
  refine ⟨?_, hS1⟩
  have hS1R : (1 : ℝ) ≤ S := by exact_mod_cast hS1
  rw [← Finset.mul_prod_erase _ _ ha0, norm_mul, hv0, norm_mul, Complex.norm_natCast] at hprod1
  refine hprod1.trans (mul_le_mul_of_nonneg_left ?_ (by positivity))
  rw [norm_prod]
  calc ∏ a ∈ (unitsBelow n).erase a0, ‖(d : ℂ) * g a‖ ≤ ∏ _a ∈ (unitsBelow n).erase a0, (S : ℝ) :=
        Finset.prod_le_prod (fun _ _ => norm_nonneg _) fun a _ => hle a
    _ = (S : ℝ) ^ ((unitsBelow n).erase a0).card := Finset.prod_const _
    _ ≤ (S : ℝ) ^ n := by
      apply pow_le_pow_right₀ hS1R
      refine (Finset.card_le_card (Finset.erase_subset _ _)).trans ?_
      refine (Finset.card_filter_le _ _).trans ?_
      rw [Finset.card_range]

/-! The last precision suffices -/

theorem precision_suffices {n S : ℕ} (hn : 1 ≤ n) :
    1920 * S ^ (n + 1) < 2 ^ (16 * 2 ^ Nat.log2 (n * (Nat.log2 S + 2) + 16)) := by
  set L := Nat.log2 S with hL
  set Y := n * (L + 2) + 16 with hY
  have h1 : S < 2 ^ (L + 1) := Nat.lt_log2_self
  have h2 : Y < 2 ^ (Nat.log2 Y + 1) := Nat.lt_log2_self
  have h3 : S ^ (n + 1) ≤ 2 ^ ((L + 1) * (n + 1)) := by
    rw [pow_mul]; exact Nat.pow_le_pow_left h1.le _
  have h4 : 11 + (L + 1) * (n + 1) ≤ 16 * 2 ^ Nat.log2 Y := by
    rw [pow_succ] at h2
    have h5 : L ≤ n * L := Nat.le_mul_of_pos_left L hn
    have h6 : (L + 1) * (n + 1) = n * L + L + n + 1 := by ring
    have h7 : n * (L + 2) = n * L + 2 * n := by ring
    rw [hY, h7] at h2
    rw [hY, h7, h6]
    generalize 2 ^ Nat.log2 (n * L + 2 * n + 16) = P at h2 ⊢
    generalize n * L = Q at h2 h5 ⊢
    omega
  calc 1920 * S ^ (n + 1) < 2 ^ 11 * 2 ^ ((L + 1) * (n + 1)) := by
        have : 0 < 2 ^ ((L + 1) * (n + 1)) := by positivity
        omega
    _ = 2 ^ (11 + (L + 1) * (n + 1)) := (pow_add _ _ _).symm
    _ ≤ _ := Nat.pow_le_pow_right (by norm_num) h4

theorem signFuel_eq (x : Cx) :
    signFuel x = Nat.log2 (x.level * (Nat.log2 (scaledSize x.terms) + 2) + 16) + 1 := rfl

theorem turns_lt {x : Cx} (hx : x.canonical = true) : ∀ t ∈ x.terms, 0 ≤ t.turn ∧ t.turn < 1 := by
  intro t ht
  have hb := (((canonical_iff x).1 hx).basis t ht).2
  simp only [basisTurn, Bool.and_eq_true, decide_eq_true_eq] at hb
  exact ⟨hb.1.1, hb.1.2⟩

/-- With the fuel of `signFuel` the search ends without an answer on 0 alone. -/
theorem signSearch_decides {x : Cx} (hx : x.canonical = true) {r : ℝ} (hr : x.value = (r : ℂ))
    (hs : signSearch (signFuel x) 64 x.terms = .eq) : r = 0 := by
  by_contra hne
  have h0 : x.value ≠ 0 := by rw [hr]; exact_mod_cast hne
  obtain ⟨hsep, hS1⟩ := separation hx h0
  rw [signFuel_eq] at hs
  have hb := signSearch_eq _ 64 (le_refl _) x.terms (turns_lt hx) hs
  have hre : (termsValue x.terms).re = r := by
    have : termsValue x.terms = (r : ℂ) := hr
    rw [this, Complex.ofReal_re]
  have hprec := precision_suffices (S := scaledSize x.terms) (level_pos x)
  have hnorm : ‖x.value‖ = |r| := by rw [hr, Complex.norm_real, Real.norm_eq_abs]
  have hSR : (scaledSize x.terms : ℝ) = coeffDen x.terms * (sizeOfTerms x.terms : ℝ) := by
    exact_mod_cast scaledSize_eq x.terms
  rw [hre] at hb
  rw [hnorm] at hsep
  set S := scaledSize x.terms
  set n := x.level
  set d := coeffDen x.terms
  set J := 2 ^ Nat.log2 (n * (Nat.log2 S + 2) + 16) with hJ
  have hdR : (0 : ℝ) < d := by exact_mod_cast coeffDen_pos x.terms
  have e1 : J * 64 / 4 + 1 = 16 * J + 1 := by omega
  have e2 : J * 64 = 16 * J + 3 * (16 * J) := by ring
  rw [e1, e2, pow_add, pow_mul 2 3, pow_succ 8] at hb
  have e3 : ((2 : ℝ) ^ 3) = 8 := by norm_num
  rw [e3] at hb
  have h8 : (0 : ℝ) < 8 ^ (16 * J) := by positivity
  have hb2 : |r| * 2 ^ (16 * J) ≤ 1920 * (sizeOfTerms x.terms : ℝ) := by
    have : (|r| * 2 ^ (16 * J)) * 8 ^ (16 * J) ≤ (1920 * (sizeOfTerms x.terms : ℝ)) * 8 ^ (16 * J) := by
      linarith
    exact le_of_mul_le_mul_right this h8
  have hSn : (0 : ℝ) < (S : ℝ) ^ n := by
    have : (1 : ℝ) ≤ S := by exact_mod_cast hS1
    positivity
  have hb3 : (d * |r| * (S : ℝ) ^ n) * 2 ^ (16 * J) ≤ 1920 * (S : ℝ) ^ (n + 1) := by
    calc (d * |r| * (S : ℝ) ^ n) * 2 ^ (16 * J) = (d * (S : ℝ) ^ n) * (|r| * 2 ^ (16 * J)) := by ring
      _ ≤ (d * (S : ℝ) ^ n) * (1920 * (sizeOfTerms x.terms : ℝ)) := mul_le_mul_of_nonneg_left hb2 (by positivity)
      _ = 1920 * (S : ℝ) ^ n * (d * (sizeOfTerms x.terms : ℝ)) := by ring
      _ = 1920 * (S : ℝ) ^ (n + 1) := by rw [← hSR, pow_succ]; ring
  have hprecR : 1920 * (S : ℝ) ^ (n + 1) < 2 ^ (16 * J) := by exact_mod_cast hprec
  have : (1 : ℝ) * 2 ^ (16 * J) ≤ (d * |r| * (S : ℝ) ^ n) * 2 ^ (16 * J) :=
    mul_le_mul_of_nonneg_right hsep (by positivity)
  linarith

/-! The sign -/

/-- The sign of a real number, as a comparison with 0. -/
noncomputable def signOf (r : ℝ) : Ordering := if 0 < r then .gt else if r < 0 then .lt else .eq

/-- `Cx.sign` of a number in canonical form that is real is the number's sign. -/
theorem sign_eq {x : Cx} (hx : x.canonical = true) {r : ℝ} (hr : x.value = (r : ℂ)) : x.sign = signOf r := by
  have hsearch : signSearch (signFuel x) 64 x.terms = signOf r := by
    have hre : (termsValue x.terms).re = r := by
      have : termsValue x.terms = (r : ℂ) := hr
      rw [this, Complex.ofReal_re]
    rcases h : signSearch (signFuel x) 64 x.terms with _ | _ | _
    · have := signSearch_lt _ 64 (le_refl _) _ (turns_lt hx) h
      rw [hre] at this
      rw [signOf, if_neg (by linarith), if_pos this]
    · have := signSearch_decides hx hr h
      rw [signOf, this]; simp
    · have := signSearch_gt _ 64 (le_refl _) _ (turns_lt hx) h
      rw [hre] at this
      rw [signOf, if_pos this]
  rw [Cx.sign]
  split
  · rename_i h
    have : x.value = 0 := by
      have e : x = Cx.zero := by cases x; simp_all [Cx.zero]
      rw [e, value_zero]
    have hr0 : r = 0 := by rw [hr] at this; exact_mod_cast this
    rw [signOf, hr0]; simp
  · rename_i t h
    split
    · rename_i ht
      have hv : x.value = (t.coeff : ℂ) := by
        rw [Cx.value, h]
        simp [ht]
      have hrt : r = (t.coeff : ℝ) := by
        rw [hr] at hv
        have e : ((r : ℝ) : ℂ) = (((t.coeff : ℚ) : ℝ) : ℂ) := by rw [hv]; push_cast; rfl
        exact_mod_cast e
      rw [signOf, hrt]
      simp only [Rat.cast_pos, Rat.cast_lt_zero]
    · exact hsearch
  · exact hsearch

/-- `Cx.le` compares real numbers (R9). -/
theorem le_iff {x y : Cx} (hx : x.canonical = true) (hy : y.canonical = true) {r s : ℝ} (hr : x.value = (r : ℂ))
    (hs : y.value = (s : ℂ)) : Cx.le x y = true ↔ r ≤ s := by
  have hv : (Cx.sub y x).value = ((s - r : ℝ) : ℂ) := by rw [value_sub, hr, hs]; push_cast; rfl
  rw [Cx.le, sign_eq (canonical_sub hy hx) hv, signOf]
  by_cases h1 : 0 < s - r
  · rw [if_pos h1]
    simp
    linarith
  · rw [if_neg h1]
    by_cases h2 : s - r < 0
    · rw [if_pos h2]
      simp
      linarith
    · rw [if_neg h2]
      simp
      linarith

end Sys2Proof.Machine
end

