-- ==== Sys2Proof/Laws/Correlate.lean ====
section
/-! SUPPORT. The correlation as complex numbers, the comparison of magnitudes, and that a finite sequence correlates with
itself most at no shift. -/

namespace Sys2Proof.Machine

/-! The correlation (R181) -/

theorem valueAt_of_le {a : List Cx} {i : ℕ} (h : a.length ≤ i) : valueAt a i = 0 := by
  simp [valueAt, elemAt, List.getD_eq_getElem?_getD, h]

@[simp] theorem numbersOf_length (a : List Cx) : (numbersOf a).length = a.length := List.length_map _

/-- The number at an index of a sequence of elements is that of the sequence it stands for. -/
@[simp] theorem numberAt_numbersOf (a : List Cx) (i : ℕ) : numberAt (numbersOf a) i = valueAt a i := by
  by_cases h : i < a.length <;> simp [numberAt, numbersOf, valueAt, elemAt, List.getD_eq_getElem?_getD, h]

theorem value_streamAt (rx : List Cx) (i : ℤ) : (streamAt rx i).value = streamValue (numbersOf rx) i := by
  unfold streamAt streamValue
  rw [numbersOf_length, numberAt_numbersOf]
  by_cases h0 : 0 ≤ i
  · by_cases h1 : i < rx.length
    · rw [if_pos h0, if_pos ⟨h0, h1⟩, valueAt]
    · rw [if_pos h0, if_neg (fun h => h1 h.2)]
      exact valueAt_of_le (by omega)
  · rw [if_neg h0, if_neg (fun h => h0 h.1), value_zero]

/-- A term of the correlation is the number R181 gives. -/
theorem value_correlationAt (rx ref : List Cx) (k : ℕ) :
    (correlationAt rx ref k).value = correlationValue (numbersOf rx) (numbersOf ref) k := by
  rw [correlationAt, value_sum, List.map_map, sum_map_range, correlationValue, numbersOf_length]
  apply Finset.sum_congr rfl
  intro m _
  simp only [Function.comp_apply, value_mul, value_conj, value_streamAt, numberAt_numbersOf, valueAt]

theorem canonical_correlationAt (rx ref : List Cx) (k : ℕ) : (correlationAt rx ref k).canonical = true := by
  apply canonical_sum
  intro z hz
  obtain ⟨m, -, rfl⟩ := List.mem_map.1 hz
  exact canonical_mul _ _

@[simp] theorem correlation_length (rx ref : List Cx) : (correlation rx ref).length = rx.length + ref.length - 1 := by
  simp [correlation]

theorem elemAt_correlation {rx ref : List Cx} {k : ℕ} (h : k < rx.length + ref.length - 1) :
    elemAt (correlation rx ref) k = correlationAt rx ref k := by
  simp [correlation, elemAt, List.getD_eq_getElem?_getD, h]

/-- The peak is exactly 0 as data when it is 0 as a number (R189). -/
theorem correlationAt_eq_zero_iff (rx ref : List Cx) (k : ℕ) :
    correlationAt rx ref k = Cx.zero ↔ correlationValue (numbersOf rx) (numbersOf ref) k = 0 := by
  rw [← value_correlationAt, value_eq_zero_iff (canonical_correlationAt _ _ _)]

/-! Magnitudes (R187) -/

/-- `abs2` compared as the machine compares it. -/
theorem abs2_le_iff (x y : Cx) : Cx.le x.abs2 y.abs2 = true ↔ Complex.normSq x.value ≤ Complex.normSq y.value :=
  le_iff (canonical_abs2 _) (canonical_abs2 _) (value_abs2 _) (value_abs2 _)

/-- A window has one peak. -/
theorem IsPeak.unique {c : ℕ → ℂ} {width k l : ℕ} (hk : IsPeak c width k) (hl : IsPeak c width l) : k = l := by
  obtain ⟨hk1, hk2, hk3⟩ := hk
  obtain ⟨hl1, hl2, hl3⟩ := hl
  rcases Nat.lt_trichotomy k l with h | h | h
  · exact absurd (hk2 l hl1) (not_le.2 (hl3 k h))
  · exact h
  · exact absurd (hl2 k hk1) (not_le.2 (hk3 l h))

/-! A shifted copy (R182) -/

/-- A finite sequence that is not all 0 correlates with a shifted copy of itself less than with itself. -/
theorem shifted_product_lt {r : ℤ → ℂ} {m : ℕ} (hr : ∀ i : ℤ, i < 0 ∨ (m : ℤ) ≤ i → r i = 0) (hne : ∃ i, r i ≠ 0) {d : ℤ}
    (hd : d ≠ 0) :
    ‖∑ i ∈ Finset.range m, r ((i : ℤ) + d) * (starRingEnd ℂ) (r i)‖ < ∑ i ∈ Finset.range m, Complex.normSq (r i) := by
  set A := ∑ i ∈ Finset.range m, Complex.normSq (r i) with hA
  -- both sums are sums over all the integers
  have hsupp : ∀ e : ℤ, (Function.support fun i : ℤ => Complex.normSq (r (i + e))) ⊆
      ((Finset.Ico (-e) ((m : ℤ) - e) : Finset ℤ) : Set ℤ) := by
    intro e i hi
    rw [Finset.mem_coe, Finset.mem_Ico]
    by_contra hc
    apply hi
    have : r (i + e) = 0 := hr _ (by omega)
    simp [this]
  have htotal : ∀ e : ℤ, ∑ᶠ i : ℤ, Complex.normSq (r (i + e)) = A := by
    intro e
    have h0 : ∑ᶠ i : ℤ, Complex.normSq (r (i + e)) = ∑ᶠ i : ℤ, Complex.normSq (r i) :=
      finsum_comp_equiv (f := fun i : ℤ => Complex.normSq (r i)) (Equiv.addRight e)
    rw [h0]
    have hs := hsupp 0
    simp only [add_zero, neg_zero, sub_zero] at hs
    rw [finsum_eq_sum_of_support_subset _ hs, hA]
    rw [← Finset.sum_image (s := Finset.range m) (g := fun i : ℕ => (i : ℤ)) (f := fun i : ℤ => Complex.normSq (r i))
      (fun a _ b _ h => Int.ofNat_inj.1 h)]
    apply Finset.sum_congr _ fun _ _ => rfl
    ext i
    simp only [Finset.mem_Ico, Finset.mem_image, Finset.mem_range]
    constructor
    · rintro ⟨h1, h2⟩; exact ⟨i.toNat, by omega, by omega⟩
    · rintro ⟨a, ha, rfl⟩; omega
  have hle : ∑ i ∈ Finset.range m, Complex.normSq (r ((i : ℤ) + d)) ≤ A := by
    rw [← htotal d, finsum_eq_sum_of_support_subset (s := Finset.Ico (-d) ((m : ℤ) - d) ∪ Finset.Ico 0 (m : ℤ))]
    · rw [← Finset.sum_image (s := Finset.range m) (g := fun i : ℕ => (i : ℤ))
        (f := fun i : ℤ => Complex.normSq (r (i + d))) (fun a _ b _ h => Int.ofNat_inj.1 h)]
      apply Finset.sum_le_sum_of_subset_of_nonneg
      · intro i hi
        obtain ⟨a, ha, rfl⟩ := Finset.mem_image.1 hi
        rw [Finset.mem_range] at ha
        rw [Finset.mem_union, Finset.mem_Ico, Finset.mem_Ico]
        right; omega
      · intro i _ _; exact Complex.normSq_nonneg _
    · intro i hi
      rw [Finset.mem_coe, Finset.mem_union]
      left
      exact hsupp d hi
  -- some index has different sizes, since the sequence does not repeat
  have hdiff : ∃ i ∈ Finset.range m, ‖r ((i : ℤ) + d)‖ ≠ ‖r i‖ := by
    by_contra hc
    push Not at hc
    obtain ⟨i0, hi0⟩ := hne
    have hin : ∀ i : ℤ, r i ≠ 0 → 0 ≤ i ∧ i < m := by
      intro i hi
      by_contra hcc
      exact hi (hr i (by omega))
    have hstep : ∀ j : ℕ, r (i0 + j * d) ≠ 0 := by
      intro j
      induction j with
      | zero => simpa using hi0
      | succ j ih =>
        obtain ⟨h1, h2⟩ := hin _ ih
        have h3 := hc (i0 + j * d).toNat (by rw [Finset.mem_range]; omega)
        have h4 : (((i0 + j * d).toNat : ℕ) : ℤ) = i0 + j * d := by omega
        rw [h4] at h3
        have e : i0 + ((j + 1 : ℕ) : ℤ) * d = i0 + j * d + d := by push_cast; ring
        rw [e]
        intro hz
        rw [hz, norm_zero] at h3
        exact ih (norm_eq_zero.1 h3.symm)
    obtain ⟨h1, h2⟩ := hin i0 hi0
    obtain ⟨h3, h4⟩ := hin _ (hstep m)
    rcases lt_or_gt_of_ne hd with hneg | hpos
    · nlinarith
    · nlinarith
  obtain ⟨i1, hi1, hne1⟩ := hdiff
  calc ‖∑ i ∈ Finset.range m, r ((i : ℤ) + d) * (starRingEnd ℂ) (r i)‖
      ≤ ∑ i ∈ Finset.range m, ‖r ((i : ℤ) + d)‖ * ‖r i‖ := by
        refine (norm_sum_le _ _).trans (Finset.sum_le_sum fun i _ => ?_)
        rw [norm_mul, RCLike.norm_conj]
    _ < ∑ i ∈ Finset.range m, (Complex.normSq (r ((i : ℤ) + d)) + Complex.normSq (r i)) / 2 := by
        apply Finset.sum_lt_sum
        · intro i _
          rw [Complex.normSq_eq_norm_sq, Complex.normSq_eq_norm_sq]
          nlinarith [sq_nonneg (‖r ((i : ℤ) + d)‖ - ‖r i‖)]
        · refine ⟨i1, hi1, ?_⟩
          rw [Complex.normSq_eq_norm_sq, Complex.normSq_eq_norm_sq]
          have : 0 < (‖r ((i1 : ℤ) + d)‖ - ‖r i1‖) ^ 2 := by
            have := sub_ne_zero.2 hne1
            positivity
          nlinarith
    _ = (∑ i ∈ Finset.range m, Complex.normSq (r ((i : ℤ) + d)) + A) / 2 := by
        rw [← Finset.sum_div, Finset.sum_add_distrib]
    _ ≤ A := by linarith

end Sys2Proof.Machine
end

