-- ==== Sys2Proof/Laws/Ofdm.lean ====
section
/-! SUPPORT. The transforms as complex numbers, and the lengths and the elements of frames and blocks. -/

namespace Sys2Proof.Machine

/-! The transforms (R141, R142) -/

/-- A sample of the inverse transform is the number R141 gives. -/
theorem value_idftAt (size : ℕ) (xs : List Cx) (n : ℕ) :
    (idftAt size xs n).value = inverseTransform size (valueAt xs) n := by
  rw [idftAt, value_scale, value_sum, List.map_map, sum_map_range, inverseTransform]
  push_cast
  congr 1
  apply Finset.sum_congr rfl
  intro k _
  simp only [Function.comp_apply, value_mul, value_cis, valueAt]
  rw [turnPoint]
  push_cast
  rfl

/-- A bin of the forward transform is the number R142 gives. -/
theorem value_dftAt (size : ℕ) (xs : List Cx) (k : ℕ) :
    (dftAt size xs k).value = forwardTransform size (valueAt xs) k := by
  rw [dftAt, value_sum, List.map_map, sum_map_range, forwardTransform]
  apply Finset.sum_congr rfl
  intro n _
  simp only [Function.comp_apply, value_mul, value_cis, valueAt]
  congr 1
  rw [turnPoint]
  congr 1
  push_cast
  ring

theorem canonical_idftAt (size : ℕ) (xs : List Cx) (n : ℕ) : (idftAt size xs n).canonical = true := by
  apply canonical_scale
  apply canonical_sum
  intro z hz
  obtain ⟨k, -, rfl⟩ := List.mem_map.1 hz
  exact canonical_mul _ _

theorem canonical_dftAt (size : ℕ) (xs : List Cx) (k : ℕ) : (dftAt size xs k).canonical = true := by
  apply canonical_sum
  intro z hz
  obtain ⟨n, -, rfl⟩ := List.mem_map.1 hz
  exact canonical_mul _ _

@[simp] theorem idft_length (size : ℕ) (xs : List Cx) : (idft size xs).length = size := by simp [idft]

@[simp] theorem dft_length (size : ℕ) (xs : List Cx) : (dft size xs).length = size := by simp [dft]

theorem elemAt_idft {size n : ℕ} (xs : List Cx) (h : n < size) : elemAt (idft size xs) n = idftAt size xs n := by
  simp [idft, elemAt, List.getD_eq_getElem?_getD, h]

theorem elemAt_dft {size k : ℕ} (xs : List Cx) (h : k < size) : elemAt (dft size xs) k = dftAt size xs k := by
  simp [dft, elemAt, List.getD_eq_getElem?_getD, h]

/-- The powers of a turn by `a/n` sum to 0 unless n divides a, when each is 1. -/
theorem sum_turns {n : ℕ} (hn : 0 < n) (a : ℤ) :
    ∑ k ∈ Finset.range n, turnPoint ((k : ℚ) * (a : ℚ) / (n : ℚ)) = if (n : ℤ) ∣ a then (n : ℂ) else 0 := by
  have hnQ : (n : ℚ) ≠ 0 := by exact_mod_cast hn.ne'
  have hpow : ∀ k : ℕ, turnPoint ((k : ℚ) * (a : ℚ) / (n : ℚ)) = turnPoint ((a : ℚ) / n) ^ k := by
    intro k
    rw [turnPoint, turnPoint, ← Complex.exp_nat_mul]
    congr 1
    push_cast
    ring
  simp only [hpow]
  split
  · rename_i hd
    obtain ⟨m, rfl⟩ := hd
    have e : turnPoint ((((n : ℤ) * m : ℤ) : ℚ) / n) = 1 := by
      have : (((n : ℤ) * m : ℤ) : ℚ) / n = ((m : ℤ) : ℚ) := by push_cast; field_simp
      rw [this, turnPoint_int]
    rw [e]
    simp
  · rename_i hd
    have hne : turnPoint ((a : ℚ) / n) ≠ 1 := by
      intro h
      apply hd
      rw [turnPoint, Complex.exp_eq_one_iff] at h
      obtain ⟨m, hm⟩ := h
      have h2 : (2 * (Real.pi : ℂ) * Complex.I) ≠ 0 := Complex.two_pi_I_ne_zero
      have h3 : (((a : ℚ) / n : ℚ) : ℂ) = (m : ℂ) := by
        apply mul_left_cancel₀ h2
        rw [hm]; ring
      have h4 : (a : ℚ) / n = ((m : ℤ) : ℚ) := by exact_mod_cast h3
      refine ⟨m, ?_⟩
      rw [div_eq_iff hnQ] at h4
      have h5 : (a : ℚ) = ((m * n : ℤ) : ℚ) := by push_cast; exact h4
      have h6 : a = m * n := by exact_mod_cast h5
      rw [h6]; ring
    have hone : turnPoint ((a : ℚ) / n) ^ n = 1 := by
      rw [← hpow]
      have : (n : ℚ) * (a : ℚ) / n = ((a : ℤ) : ℚ) := by field_simp
      rw [this, turnPoint_int]
    have hgeo := geom_sum_mul (turnPoint ((a : ℚ) / n)) n
    rw [hone, sub_self] at hgeo
    exact (mul_eq_zero.1 hgeo).resolve_right (sub_ne_zero.2 hne)

/-! Frames and blocks (R144 to R149) -/

theorem frame_block (f : Frame) : f.block = f.nsc.toNat + f.ng.toNat := rfl

theorem guardInsert_length {f : Frame} {x : List Cx} (hx : x.length = f.size)
    (h : f.gtype ≠ .zeroPad → f.ng.toNat ≤ f.nsc.toNat) : (guardInsert f x).length = f.block := by
  unfold guardInsert Frame.block
  cases hg : f.gtype with
  | zeroPad => simp [hx]; omega
  | cyclicPrefix =>
    have := h (by simp [hg])
    simp only [List.length_append, List.length_drop, hx, Frame.size, Frame.guardLen]
    omega
  | cyclicSuffix =>
    have := h (by simp [hg])
    simp only [List.length_append, List.length_take, hx, Frame.size, Frame.guardLen]
    omega

theorem guardRemove_length {f : Frame} {y : List Cx} (hy : y.length = f.block) : (guardRemove f y).length = f.size := by
  unfold guardRemove
  cases f.gtype <;> simp [hy, Frame.block]

theorem framed_length {f : Frame} (xs : List Cx) (h : f.gtype ≠ .zeroPad → f.ng.toNat ≤ f.nsc.toNat) :
    (framed f xs).length = xs.length / f.size * f.block :=
  flatMap_range_length _ _ _ fun _ _ => guardInsert_length (idft_length _ _) h

theorem deframed_length (f : Frame) (ys : List Cx) : (deframed f ys).length = ys.length / f.block * f.size :=
  flatMap_range_length _ _ _ fun _ _ => dft_length _ _

/-- Sample `q*T + n` of the frames is sample n of the frame of block q. -/
theorem elemAt_framed {f : Frame} {xs : List Cx} (h : f.gtype ≠ .zeroPad → f.ng.toNat ≤ f.nsc.toNat) {q n : ℕ}
    (hq : q < xs.length / f.size) (hn : n < f.block) :
    elemAt (framed f xs) (q * f.block + n) = elemAt (guardInsert f (idft f.size (piece xs (q * f.size) f.size))) n := by
  simp only [elemAt, List.getD_eq_getElem?_getD, framed]
  rw [flatMap_range_get? _ f.block _ (fun _ _ => guardInsert_length (idft_length _ _) h) hq hn]

/-- Bin `q*N + k` of the blocks is bin k of block q. -/
theorem elemAt_deframed {f : Frame} {ys : List Cx} {q k : ℕ} (hq : q < ys.length / f.block) (hk : k < f.size) :
    elemAt (deframed f ys) (q * f.size + k) = dftAt f.size (guardRemove f (piece ys (q * f.block) f.block)) k := by
  rw [← elemAt_dft _ hk]
  simp only [elemAt, List.getD_eq_getElem?_getD, deframed]
  rw [flatMap_range_get? _ f.size _ (fun _ _ => dft_length _ _) hq hk]

theorem canonical_guardInsert {f : Frame} {x : List Cx} (h : ∀ z ∈ x, z.canonical = true) :
    ∀ z ∈ guardInsert f x, z.canonical = true := by
  intro z hz
  unfold guardInsert at hz
  cases hg : f.gtype <;> rw [hg] at hz <;> simp only [List.mem_append, List.mem_replicate] at hz
  · rcases hz with ⟨-, rfl⟩ | hz
    · exact canonical_zero
    · exact h z hz
  · rcases hz with hz | hz
    · exact h z (List.mem_of_mem_drop hz)
    · exact h z hz
  · rcases hz with hz | hz
    · exact h z hz
    · exact h z (List.mem_of_mem_take hz)

theorem canonical_idft (size : ℕ) (xs : List Cx) : ∀ z ∈ idft size xs, z.canonical = true := by
  intro z hz
  obtain ⟨n, -, rfl⟩ := List.mem_map.1 hz
  exact canonical_idftAt _ _ _

theorem canonical_dft (size : ℕ) (xs : List Cx) : ∀ z ∈ dft size xs, z.canonical = true := by
  intro z hz
  obtain ⟨n, -, rfl⟩ := List.mem_map.1 hz
  exact canonical_dftAt _ _ _

theorem canonical_framed (f : Frame) (xs : List Cx) : ∀ z ∈ framed f xs, z.canonical = true := by
  intro z hz
  obtain ⟨q, -, hq⟩ := List.mem_flatMap.1 hz
  exact canonical_guardInsert (canonical_idft _ _) z hq

theorem canonical_deframed (f : Frame) (ys : List Cx) : ∀ z ∈ deframed f ys, z.canonical = true := by
  intro z hz
  obtain ⟨q, -, hq⟩ := List.mem_flatMap.1 hz
  exact canonical_dft _ _ z hq

/-- Two sequences of numbers are equal when they have one length and their elements stand for the same numbers. -/
theorem list_eq_of_value {xs ys : List Cx} (hx : ∀ x ∈ xs, x.canonical = true) (hy : ∀ y ∈ ys, y.canonical = true)
    (hl : xs.length = ys.length) (h : ∀ i, i < xs.length → valueAt xs i = valueAt ys i) : xs = ys := by
  apply List.ext_getElem hl
  intro i h1 h2
  have hv := h i h1
  simp only [valueAt, elemAt, List.getD_eq_getElem?_getD, List.getElem?_eq_getElem h1, List.getElem?_eq_getElem h2,
    Option.getD_some] at hv
  exact eq_of_value_eq (hx _ (List.getElem_mem h1)) (hy _ (List.getElem_mem h2)) hv

end Sys2Proof.Machine
end

