-- ==== Sys2Proof/Laws/PerInstr.lean ====
section
/-! SUPPORT. For every command: the number its encoding is, which lies below 2^20, so that bits 31:20 are 0 (R81, R92). -/

namespace Sys2Proof.Laws.EncodeOpcode

open Sys2Proof

/-- The encoding of a command is `opcode + rd*2^8 + rs1*2^11 + rs2*2^14 + rs3*2^17`, below 2^20. -/
def Statement (i : Instr) : Prop :=
  (encode i).toNat = i.opcode + i.fields.1.val * 2 ^ 8 + i.fields.2.1.val * 2 ^ 11 + i.fields.2.2.1.val * 2 ^ 14
    + i.fields.2.2.2.val * 2 ^ 17 ∧ (encode i).toNat < 2 ^ 20

/-- An opcode fits its eight bits. -/
theorem opcode_lt (i : Instr) : i.opcode < 2 ^ 8 := by cases i <;> simp [Instr.opcode]

theorem of_fields (i : Instr) : Statement i := by
  have h0 := opcode_lt i
  have h1 := i.fields.1.isLt
  have h2 := i.fields.2.1.isLt
  have h3 := i.fields.2.2.1.isLt
  have h4 := i.fields.2.2.2.isLt
  have hlt : i.opcode + i.fields.1.val * 2 ^ 8 + i.fields.2.1.val * 2 ^ 11 + i.fields.2.2.1.val * 2 ^ 14
      + i.fields.2.2.2.val * 2 ^ 17 < 2 ^ 20 := by omega
  have e : (encode i).toNat = i.opcode + i.fields.1.val * 2 ^ 8 + i.fields.2.1.val * 2 ^ 11
      + i.fields.2.2.1.val * 2 ^ 14 + i.fields.2.2.2.val * 2 ^ 17 := by
    unfold encode
    rw [BitVec.toNat_ofNat]
    exact Nat.mod_eq_of_lt (lt_trans hlt (by norm_num))
  exact ⟨e, by rw [e]; exact hlt⟩

theorem nop : Statement .nop := of_fields _

theorem cbuild : Statement .cbuild := of_fields _

theorem fbuild : Statement .fbuild := of_fields _

theorem qmod (rd rs1 : BufIdx) : Statement (.qmod rd rs1) := of_fields _

theorem qdem (rd rs1 : BufIdx) : Statement (.qdem rd rs1) := of_fields _

theorem oftx (rd rs1 : BufIdx) : Statement (.oftx rd rs1) := of_fields _

theorem ofrx (rd rs1 : BufIdx) : Statement (.ofrx rd rs1) := of_fields _

theorem chest (rd rs1 : BufIdx) : Statement (.chest rd rs1) := of_fields _

theorem eq (rd rs1 rs2 : BufIdx) : Statement (.eq rd rs1 rs2) := of_fields _

theorem xcorr (rd rs1 rs2 rs3 : BufIdx) : Statement (.xcorr rd rs1 rs2 rs3) := of_fields _

end Sys2Proof.Laws.EncodeOpcode
end

