-- ==== Sys2Proof/Laws/Qam.lean ====
section
/-! SUPPORT. The constellation tables and the bit groups: dimensions, coordinates, lengths, and what a border test says. -/

namespace Sys2Proof.Machine

/-! Dimensions (R46) -/

theorem bpsOf_two_pow (k : ℕ) : bpsOf (2 ^ k) = k := Nat.log2_two_pow

/-- `isPowerOfTwo` says what R104 says. -/
theorem isPowerOfTwo_iff {o : ℕ} : isPowerOfTwo o = true ↔ ∃ k, o = 2 ^ k := by
  unfold isPowerOfTwo
  rw [decide_eq_true_eq]
  constructor
  · intro h; exact ⟨_, h.symm⟩
  · rintro ⟨k, rfl⟩; rw [Nat.log2_two_pow]

theorem yTicks_two_pow (k : ℕ) : yTicks (2 ^ k) = rowsOf k := by rw [yTicks, bpsOf_two_pow, rowsOf]

theorem xTicks_two_pow (k : ℕ) : xTicks (2 ^ k) = columnsOf k := by rw [xTicks, yTicks_two_pow, columnsOf]

theorem columnsOf_eq (k : ℕ) : columnsOf k = 2 ^ ((k + 1) / 2) := by
  rw [columnsOf, rowsOf, Nat.pow_div (by omega) (by norm_num)]
  congr 1; omega

theorem columnsOf_mul_rowsOf (k : ℕ) : columnsOf k * rowsOf k = 2 ^ k := by
  rw [columnsOf_eq, rowsOf, ← pow_add]; congr 1; omega

theorem rowsOf_pos (k : ℕ) : 0 < rowsOf k := Nat.two_pow_pos _

theorem columnsOf_pos (k : ℕ) : 0 < columnsOf k := by rw [columnsOf_eq]; exact Nat.two_pow_pos _

theorem two_le_columnsOf {k : ℕ} (hk : 1 ≤ k) : 2 ≤ columnsOf k := by
  rw [columnsOf_eq]
  calc 2 = 2 ^ 1 := rfl
    _ ≤ 2 ^ ((k + 1) / 2) := Nat.pow_le_pow_right (by norm_num) (by omega)

/-! Coordinates and points (R47) -/

theorem coord_cast (n i : ℕ) : ((coord n i : ℚ) : ℝ) = axisCoord n i := by
  unfold coord axisCoord
  split <;> push_cast <;> rfl

/-- The point of a value is the complex number R47 gives. -/
theorem value_point (k v : ℕ) : (point (2 ^ k) v).value = symbolPoint k v := by
  rw [point, value_ofParts, xCoord, yCoord, xTicks_two_pow, yTicks_two_pow, symbolPoint, ← coord_cast, ← coord_cast]
  push_cast
  rfl

@[simp] theorem canonical_point (o v : ℕ) : (point o v).canonical = true := canonical_ofParts _ _

theorem re_symbolPoint (k v : ℕ) : (symbolPoint k v).re = axisCoord (columnsOf k) (v % columnsOf k) := by
  simp [symbolPoint]

theorem im_symbolPoint (k v : ℕ) : (symbolPoint k v).im = axisCoord (rowsOf k) (v / columnsOf k) := by
  simp [symbolPoint]

/-- Coordinate i of an axis of at least two ticks. -/
theorem axisCoord_of_two_le {n : ℕ} (hn : 2 ≤ n) (i : ℕ) : axisCoord n i = -1 + 2 * (i : ℝ) / ((n : ℝ) - 1) :=
  if_neg (by omega)

/-- Border k of an axis of at least two ticks (R49). -/
theorem axisBorder_of_two_le {n k : ℕ} (hn : 2 ≤ n) (hk : 1 ≤ k) :
    axisBorder n k = -1 + (2 * (k : ℝ) - 1) / ((n : ℝ) - 1) := by
  rw [axisBorder, axisCoord_of_two_le hn, axisCoord_of_two_le hn, Nat.cast_sub hk]
  push_cast
  ring

/-! Borders (R49, R125) -/

@[simp] theorem borders_length (n : ℕ) : (borders n).length = n := by simp [borders]

theorem borders_get (n k : ℕ) (hk : k < n) :
    (borders n).getD k none = if k = 0 then none else some ((coord n (k - 1) + coord n k) / 2) := by
  simp [borders, List.getD_eq_getElem?_getD, hk]

/-- What a border test says of a real number in canonical form. -/
theorem borderLe_iff {n k : ℕ} (hk : k < n) {z : Cx} (hz : z.canonical = true) {x : ℝ} (hx : z.value = (x : ℂ)) :
    borderLe ((borders n).getD k none) z = true ↔ k = 0 ∨ axisBorder n k ≤ x := by
  rw [borders_get n k hk]
  by_cases h0 : k = 0
  · simp [h0, borderLe]
  · rw [if_neg h0, borderLe]
    have hq : (Cx.ofRat ((coord n (k - 1) + coord n k) / 2)).value = ((axisBorder n k : ℝ) : ℂ) := by
      rw [value_ofRat, axisBorder, ← coord_cast, ← coord_cast]
      push_cast
      rfl
    rw [le_iff (canonical_ofRat _) hz hq hx]
    simp [h0]

/-! Bits and symbols (R120, R124) -/

theorem groupValue_eq (p : ℕ) (b : List Bool) (i : ℕ) : groupValue p b i = bitGroup p b i := by
  rw [groupValue, bitGroup, sum_map_range]

theorem groupValue_lt (p : ℕ) (b : List Bool) (i : ℕ) : groupValue p b i < 2 ^ p := by
  rw [groupValue_eq, bitGroup]
  generalize i * p = m
  induction p with
  | zero => simp
  | succ p ih =>
    rw [Finset.sum_range_succ, pow_succ]
    have : (b.getD (m + p) false).toNat ≤ 1 := Bool.toNat_le _
    nlinarith [Nat.two_pow_pos p]

@[simp] theorem modulate_length (o : ℕ) (b : List Bool) : (modulate o b).length = b.length / bpsOf o := by simp [modulate]

theorem modulate_get (o : ℕ) (b : List Bool) (i : ℕ) (hi : i < b.length / bpsOf o) :
    elemAt (modulate o b) i = point o (groupValue (bpsOf o) b i) := by
  simp [modulate, elemAt, List.getD_eq_getElem?_getD, hi]

theorem canonical_modulate (o : ℕ) (b : List Bool) : ∀ x ∈ modulate o b, x.canonical = true := by
  intro x hx
  obtain ⟨i, -, rfl⟩ := List.mem_map.1 hx
  exact canonical_point _ _

@[simp] theorem unpackValue_length (p v : ℕ) : (unpackValue p v).length = p := by simp [unpackValue]

/-- Bit `i*p + j` of the demodulated bits is bit j of the value decided for symbol i. -/
theorem demodulate_get (o : ℕ) (zs : List Cx) {i j : ℕ} (hi : i < zs.length) (hj : j < bpsOf o) :
    (demodulate o zs).getD (i * bpsOf o + j) false = decide (decideValue o (elemAt zs i) / 2 ^ j % 2 = 1) := by
  rw [demodulate, List.getD_eq_getElem?_getD,
    flatMap_get? _ (bpsOf o) _ (fun _ _ => by simp [unpackValue]) hi hj]
  simp [unpackValue, hj, elemAt, hi]

@[simp] theorem demodulate_length (o : ℕ) (zs : List Cx) : (demodulate o zs).length = zs.length * bpsOf o := by
  induction zs with
  | nil => simp [demodulate]
  | cons z zs ih =>
    rw [demodulate] at ih ⊢
    rw [List.flatMap_cons, List.length_append, ih, unpackValue_length, List.length_cons]
    ring

end Sys2Proof.Machine
end

