-- ==== Sys2Proof/ReferenceMachine.lean ====
section
/-! DEFINITION. The reference meaning of the commands and transactions over all complex numbers (R9): CORE with buffers of
arbitrary complex elements, each command written from its rule over Mathlib's complex numbers. It is no machine, since
complex numbers are no plain data; Laws/Refinement.lean proves that the machine, on elements, is this one. -/

namespace Sys2Proof.Machine

/-- A stream buffer with any complex numbers for elements (R21, R9). -/
inductive RefBuffer where
  | none
  | bits (data : List Bool)
  | cplx (data : List ℂ)

/-- The state of CORE (R20) with any complex numbers for elements. -/
structure RefCore where
  bufs : Vector RefBuffer 8
  staging : Staging
  constel : Option Constellation
  frame : Option Frame
  fault : Option FaultRecord
  cseq : Word
  syncoff : Word
  svalid : Bool

/-- The content a machine buffer stands for. -/
noncomputable def Buffer.toRef : Buffer → RefBuffer
  | .none => .none
  | .bits d => .bits d
  | .cplx d => .cplx (numbersOf d)

/-- The state the machine's CORE stands for. -/
noncomputable def CoreState.toRef (c : CoreState) : RefCore where
  bufs := c.bufs.map Buffer.toRef
  staging := c.staging
  constel := c.constel
  frame := c.frame
  fault := c.fault
  cseq := c.cseq
  syncoff := c.syncoff
  svalid := c.svalid

/-- The kind and the length of a buffer, its complex elements all 0. -/
def RefBuffer.shape : RefBuffer → Buffer
  | .none => .none
  | .bits d => .bits d
  | .cplx d => .cplx (d.map fun _ => Cx.zero)

/-- What the control registers and the configuration commands see of CORE: they look into no element (R30 to R41, R104,
R108). -/
def RefCore.shape (c : RefCore) : CoreState where
  bufs := c.bufs.map RefBuffer.shape
  staging := c.staging
  constel := c.constel
  frame := c.frame
  fault := c.fault
  cseq := c.cseq
  syncoff := c.syncoff
  svalid := c.svalid

/-- CORE after reset (R55). -/
noncomputable def RefCore.reset : RefCore := CoreState.reset.toRef

/-- The checks and the effect of one command (R10). -/
abbrev RefRule := RefCore → Except Raise RefCore

/-! Operations -/

/-- `s[b] <- (kind, data)` (R10). -/
def RefCore.writeBuf (c : RefCore) (b : BufIdx) (d : RefBuffer) : RefCore := { c with bufs := c.bufs.set b d }

/-- Fault entry (R207). -/
def RefCore.raise (c : RefCore) (w : Word) (r : Raise) : RefCore :=
  { c with fault := some ⟨r.cause, w, BitVec.ofNat 32 r.info⟩ }

/-- Normal completion (R206). -/
def RefCore.done (c : RefCore) : RefCore := { c with cseq := c.cseq + 1 }

/-- A command's outcome: refused while a fault is recorded (R208), completed (R206) or faulted (R207). -/
def RefCore.carryOut (c : RefCore) (w : Word) (rule : RefRule) : RefCore :=
  match c.fault with
  | some _ => c
  | none =>
    match rule c with
    | .ok c' => c'.done
    | .error r => c.raise w r

/-- A source of kind `BITS` (R24, R205). -/
def RefCore.sourceBits (c : RefCore) (field : Nat) (b : BufIdx) : Except Raise (List Bool) :=
  match c.bufs[b] with
  | .bits d => .ok d
  | .none => .error ⟨.badOperand, field⟩
  | .cplx _ => .error ⟨.badOperand, field⟩

/-- A source of kind `CPLX` (R24, R205). -/
def RefCore.sourceCplx (c : RefCore) (field : Nat) (b : BufIdx) : Except Raise (List ℂ) :=
  match c.bufs[b] with
  | .cplx d => .ok d
  | .none => .error ⟨.badOperand, field⟩
  | .bits _ => .error ⟨.badOperand, field⟩

/-! The commands -/

/-- `NOP`, `CBUILD` and `FBUILD`, which look into no buffer (R100, R104, R108). -/
def refConfigure (rule : Rule) : RefRule := fun c =>
  (rule c.shape).map fun d => { c with constel := d.constel, frame := d.frame }

/-- `QMOD rd, rs1` (R120). -/
noncomputable def refQmod (rd rs1 : BufIdx) : RefRule := fun c => do
  let p := bpsOf (← c.shape.needOrder)
  let b ← c.sourceBits 1 rs1
  require (b.length % p = 0) ⟨.misalignedBitLength, b.length⟩
  pure (c.writeBuf rd (.cplx ((List.range (b.length / p)).map fun (i : Nat) => symbolPoint p (bitGroup p b i))))

/-- `QDEM rd, rs1` (R124). -/
noncomputable def refQdem (rd rs1 : BufIdx) : RefRule := fun c => do
  let p := bpsOf (← c.shape.needOrder)
  let z ← c.sourceCplx 1 rs1
  require (Config.fitsCap (z.length * p) = true) ⟨.capacityExceeded, z.length * p⟩
  pure (c.writeBuf rd (.bits (z.flatMap fun x => unpackValue p (decided p x))))

/-- `OFTX rd, rs1` (R144). -/
noncomputable def refOftx (rd rs1 : BufIdx) : RefRule := fun c => do
  let f ← c.shape.needFrame
  let x ← c.sourceCplx 1 rs1
  require (x.length % f.size = 0) ⟨.misalignedSymbolLength, x.length⟩
  require (Config.fitsCap (x.length / f.size * f.block) = true) ⟨.capacityExceeded, x.length / f.size * f.block⟩
  pure (c.writeBuf rd (.cplx ((List.range (x.length / f.size)).flatMap fun (q : Nat) =>
    (List.range f.block).map fun (n : Nat) =>
      frameSample f.gtype f.size f.guardLen (inverseTransform f.size fun k => numberAt x (q * f.size + k)) n)))

/-- `OFRX rd, rs1` (R148). -/
noncomputable def refOfrx (rd rs1 : BufIdx) : RefRule := fun c => do
  let f ← c.shape.needFrame
  let y ← c.sourceCplx 1 rs1
  pure (c.writeBuf rd (.cplx ((List.range (y.length / f.block)).flatMap fun (q : Nat) =>
    (List.range f.size).map fun (k : Nat) =>
      forwardTransform f.size (fun n => numberAt y (q * f.block + (guardBefore f.gtype f.guardLen + n))) k)))

/-- `CHEST rd, rs1` (R160). -/
noncomputable def refChest (rd rs1 : BufIdx) : RefRule := fun c => do
  let _ ← c.sourceCplx 1 rs1
  let e := c.staging.estsel.toNat
  require (e ≤ 1) ⟨.invalidParameter, 12⟩
  if e = 0 then do
    let f ← c.shape.needFrame
    require (Config.fitsCap f.size = true) ⟨.capacityExceeded, f.size⟩
    pure (c.writeBuf rd (.cplx (List.replicate f.size 1)))
  else
    pure (c.writeBuf rd (.cplx [1]))

open Classical in
/-- `DivideByZero(least such k)` when there is a symbol to divide and `g[k] = 0` for some k (R164, R167). -/
noncomputable def refRequireGain (z g : List ℂ) : Except Raise Unit :=
  match g.findIdx? (fun x => decide (x = 0)) with
  | some k => require (z.length = 0) ⟨.divideByZero, k⟩
  | none => .ok ()

/-- `z[i] / h(i)`, the gain taken at `i mod n` (R164). -/
noncomputable def quotients (n : Nat) (z g : List ℂ) : List ℂ :=
  (List.range z.length).map fun (i : Nat) => numberAt z i / numberAt g (i % n)

/-- `EQ rd, rs1, rs2` (R164). -/
noncomputable def refEq (rd rs1 rs2 : BufIdx) : RefRule := fun c => do
  let z ← c.sourceCplx 1 rs1
  let g ← c.sourceCplx 2 rs2
  if g.length = 1 then do
    refRequireGain z g
    pure (c.writeBuf rd (.cplx (quotients 1 z g)))
  else do
    let f ← c.shape.needFrame
    require (g.length = f.size) ⟨.dimensionMismatch, g.length⟩
    require (z.length % f.size = 0) ⟨.dimensionMismatch, z.length⟩
    refRequireGain z g
    pure (c.writeBuf rd (.cplx (quotients f.size z g)))

/-- `argmax_abs(c, W)` (R187). -/
noncomputable def peakOf (c : Nat → ℂ) (width : Nat) : Nat := sInf {k | IsPeak c width k}

/-- The peak index and the offset of the strategy that `SYNCSEL` selects, among `len` terms of the correlation (R184 to
R186). -/
noncomputable def refSearch (g : Staging) (c : Nat → ℂ) (len refLen : Nat) : Except Raise (Nat × Int) :=
  if g.syncsel.toNat = 0 then
    .ok (peakOf c len, (peakOf c len : Int) - (refLen : Int))
  else do
    let f := g.sflen.toNat
    let r := g.srows.toNat
    require (f ≠ 0) ⟨.invalidParameter, 14⟩
    require (r ≠ 0 ∧ r * f ≤ len) ⟨.invalidParameter, 15⟩
    pure (peakOf c (r * f), (peakOf c (r * f) : Int))

open Classical in
/-- `XCORR rd, rs1, rs2, rs3` (R184). -/
noncomputable def refXcorr (rd rs1 rs2 rs3 : BufIdx) : RefRule := fun c => do
  let rx ← c.sourceCplx 1 rs1
  let ref ← c.sourceCplx 2 rs2
  let ev ← c.sourceCplx 3 rs3
  require (c.staging.syncsel.toNat ≤ 1) ⟨.invalidParameter, 13⟩
  require (ev.length = 1) ⟨.badOperand, 3⟩
  require (ref.length ≠ 0) ⟨.badOperand, 2⟩
  require (ref.length ≤ rx.length) ⟨.insufficientSamples, rx.length⟩
  let pk ← refSearch c.staging (correlationValue rx ref) (rx.length + ref.length - 1) ref.length
  require (-(2 ^ 31) ≤ pk.2 ∧ pk.2 ≤ 2 ^ 31 - 1) ⟨.capacityExceeded, pk.1⟩
  require (correlationValue rx ref pk.1 ≠ 0) ⟨.divideByZero, pk.1⟩
  pure { c.writeBuf rd (.cplx [numberAt ev 0 / correlationValue rx ref pk.1]) with
    syncoff := BitVec.ofInt 32 pk.2
    svalid := true }

/-- The rule of each command (R84). -/
noncomputable def refRule : Instr → RefRule
  | .nop => refConfigure nopRule
  | .cbuild => refConfigure cbuildRule
  | .fbuild => refConfigure fbuildRule
  | .qmod rd rs1 => refQmod rd rs1
  | .qdem rd rs1 => refQdem rd rs1
  | .oftx rd rs1 => refOftx rd rs1
  | .ofrx rd rs1 => refOfrx rd rs1
  | .chest rd rs1 => refChest rd rs1
  | .eq rd rs1 rs2 => refEq rd rs1 rs2
  | .xcorr rd rs1 rs2 rs3 => refXcorr rd rs1 rs2 rs3

/-- The reference meaning of a command. -/
noncomputable def refExec (i : Instr) (c : RefCore) : RefCore := c.carryOut (encode i) (refRule i)

/-! The host port -/

/-- The host's transactions and the reset input; the host may write any complex numbers (R61 to R63, R230). -/
inductive RefEvent where
  | csrRead (i : Nat)
  | csrWrite (i : Nat) (w : Word)
  | bufRead (b : BufIdx)
  | bufWrite (b : BufIdx) (d : RefBuffer)
  | resetInput

/-- What CORE gives back (R61 to R63). -/
inductive RefReply where
  | completed
  | value (w : Word)
  | content (d : RefBuffer)

/-- The transaction a machine event stands for. -/
noncomputable def HostEvent.toRef : HostEvent → RefEvent
  | .csrRead i => .csrRead i
  | .csrWrite i w => .csrWrite i w
  | .bufRead b => .bufRead b
  | .bufWrite b d => .bufWrite b d.toRef
  | .resetInput => .resetInput

/-- The answer a machine reply stands for. -/
noncomputable def HostReply.toRef : HostReply → RefReply
  | .completed => .completed
  | .value w => .value w
  | .content d => .content d.toRef

/-- A word written to `CMD` (R31, R205). -/
noncomputable def refIssue (w : Word) (c : RefCore) : RefCore :=
  match decode w with
  | .ok i => refExec i c
  | .error _ => c.carryOut w fun _ => .error ⟨.illegalCommand, w.toNat⟩

/-- A write to a register other than `CMD` (R35, R36, R40). -/
noncomputable def RefCore.writeIndex (c : RefCore) (i : Nat) (w : Word) : RefCore :=
  if i = Csr.ctrl.index ∧ w.getLsbD 1 = true then RefCore.reset
  else { c with staging := (c.shape.writeIndex i w).staging, fault := (c.shape.writeIndex i w).fault }

/-- What a transaction does to CORE (R61 to R63, R230). -/
noncomputable def refPerform (e : RefEvent) (c : RefCore) : RefCore :=
  match e with
  | .csrRead _ => c
  | .csrWrite i w => if i = Csr.cmd.index then refIssue w c else c.writeIndex i w
  | .bufRead _ => c
  | .bufWrite b d => c.writeBuf b d
  | .resetInput => RefCore.reset

/-- What CORE gives back for a transaction (R61 to R63). -/
def refAnswer (e : RefEvent) (c : RefCore) : RefReply :=
  match e with
  | .csrRead i => .value (c.shape.readIndex i)
  | .csrWrite _ _ => .completed
  | .bufRead b => .content c.bufs[b]
  | .bufWrite _ _ => .completed
  | .resetInput => .completed

end Sys2Proof.Machine
end

