-- ==== Sys2Proof/Laws/Refinement.lean ====
section
/-! SUPPORT. The machine, on elements, is the reference machine: each command, each transaction and each step commute with
reading an element as the complex number it stands for (R9). -/

namespace Sys2Proof.Machine

/-! Outcomes -/

theorem outcome_map_bind {α β γ : Type} (x : Except Raise α) (f : α → Except Raise β) (g : β → γ) :
    (x >>= f).map g = x >>= fun a => (f a).map g := by
  cases x <;> rfl

theorem outcome_bind_map {α β γ : Type} (x : Except Raise α) (g : α → β) (f : β → Except Raise γ) :
    x.map g >>= f = x >>= fun a => f (g a) := by
  cases x <;> rfl

theorem outcome_congr {α β : Type} {x : Except Raise α} {f g : α → Except Raise β} (h : ∀ a, x = .ok a → f a = g a) :
    x >>= f = x >>= g := by
  cases x with
  | error _ => rfl
  | ok a => exact h a rfl

theorem require_congr {p q : Prop} [Decidable p] [Decidable q] (h : p ↔ q) (r : Raise) : require p r = require q r := by
  unfold require
  by_cases hp : p
  · rw [if_pos hp, if_pos (h.1 hp)]
  · rw [if_neg hp, if_neg (mt h.2 hp)]

/-! The state a machine state stands for -/

theorem toRef_buf (c : CoreState) (b : BufIdx) : c.toRef.bufs[b] = c.bufs[b].toRef := by simp [CoreState.toRef]

theorem toRef_writeBuf (c : CoreState) (b : BufIdx) (d : Buffer) : (c.writeBuf b d).toRef = c.toRef.writeBuf b d.toRef := by
  simp [CoreState.toRef, CoreState.writeBuf, RefCore.writeBuf, Vector.map_set]

theorem toRef_writeBits (c : CoreState) (b : BufIdx) (d : List Bool) :
    (pure (c.writeBuf b (.bits d)) : Except Raise CoreState).map CoreState.toRef = pure (c.toRef.writeBuf b (.bits d)) :=
  congrArg Except.ok (toRef_writeBuf c b (.bits d))

theorem toRef_writeCplx (c : CoreState) (b : BufIdx) (d : List Cx) :
    (pure (c.writeBuf b (.cplx d)) : Except Raise CoreState).map CoreState.toRef =
      pure (c.toRef.writeBuf b (.cplx (numbersOf d))) :=
  congrArg Except.ok (toRef_writeBuf c b (.cplx d))

theorem toRef_sourceBits (c : CoreState) (n : ℕ) (b : BufIdx) : c.toRef.sourceBits n b = c.sourceBits n b := by
  unfold RefCore.sourceBits CoreState.sourceBits
  rw [toRef_buf]
  cases c.bufs[b] <;> rfl

theorem toRef_sourceCplx (c : CoreState) (n : ℕ) (b : BufIdx) :
    c.toRef.sourceCplx n b = (c.sourceCplx n b).map numbersOf := by
  unfold RefCore.sourceCplx CoreState.sourceCplx
  rw [toRef_buf]
  cases c.bufs[b] <;> rfl

theorem toRef_needOrder (c : CoreState) : c.toRef.shape.needOrder = c.needOrder := rfl

theorem toRef_needFrame (c : CoreState) : c.toRef.shape.needFrame = c.needFrame := rfl

/-- A command carried out is its rule carried out, whatever complex numbers the elements are. -/
theorem toRef_carryOut {c : CoreState} {rule : Rule} {refRule : RefRule}
    (h : refRule c.toRef = (rule c).map CoreState.toRef) (w : Word) :
    (c.carryOut w rule).toRef = c.toRef.carryOut w refRule := by
  unfold CoreState.carryOut RefCore.carryOut
  rw [h]
  have hf : c.toRef.fault = c.fault := rfl
  rw [hf]
  cases c.fault with
  | some r => rfl
  | none => cases rule c <;> rfl

/-! Sequences -/

theorem numbersOf_eq_range {a : List Cx} {n : ℕ} {g : ℕ → ℂ} (hl : a.length = n) (h : ∀ i, i < n → valueAt a i = g i) :
    numbersOf a = (List.range n).map g := by
  subst hl
  apply List.ext_getElem (by simp)
  intro i h1 h2
  have hi : i < a.length := by simpa using h1
  have := h i hi
  simp only [valueAt, elemAt, List.getD_eq_getElem?_getD, List.getElem?_eq_getElem hi, Option.getD_some] at this
  simp [numbersOf, this]

theorem numbersOf_flatMap (n : ℕ) (f : ℕ → List Cx) :
    numbersOf ((List.range n).flatMap f) = (List.range n).flatMap fun q => numbersOf (f q) := by
  simp [numbersOf, List.map_flatMap]

theorem valueAt_piece (a : List Cx) (i n j : ℕ) (h : j < n) : valueAt (piece a i n) j = valueAt a (i + j) := by
  rw [valueAt, elemAt_piece a i n j h, valueAt]

/-- The elements a source holds are numbers in canonical form (R9). -/
theorem canonical_of_source {c : CoreState} (h : c.Inv) {n : ℕ} {b : BufIdx} {d : List Cx}
    (hd : c.sourceCplx n b = .ok d) : ∀ x ∈ d, x.canonical = true := by
  have := h.numbers b
  rw [sourceCplx_ok_iff.1 hd] at this
  simpa [Buffer.numbers] using this

/-! QAM (R120, R124) -/

theorem numbersOf_modulate (k : ℕ) (b : List Bool) :
    numbersOf (modulate (2 ^ k) b) = (List.range (b.length / k)).map fun i => symbolPoint k (bitGroup k b i) := by
  apply numbersOf_eq_range (by simp [bpsOf_two_pow])
  intro i hi
  rw [valueAt, modulate_get _ _ _ (by rwa [bpsOf_two_pow]), value_point, bpsOf_two_pow, groupValue_eq]

theorem axisBorder_lt {n j k : ℕ} (hj : 1 ≤ j) (hjk : j < k) (hk : k < n) : axisBorder n j < axisBorder n k := by
  have hn : 2 ≤ n := by omega
  rw [axisBorder_of_two_le hn hj, axisBorder_of_two_le hn (by omega)]
  have h1 : (0 : ℝ) < (n : ℝ) - 1 := by
    have : (2 : ℝ) ≤ n := by exact_mod_cast hn
    linarith
  have h2 : (j : ℝ) < k := by exact_mod_cast hjk
  gcongr

/-- The last index of a list filtered by a test that 0 passes, when the test is passed on an initial part, is the number of
the others that pass. -/
theorem getLastD_filter_range (p : ℕ → Bool) (n : ℕ) (hp : ∀ j k, 1 ≤ j → j < k → k < n → p k = true → p j = true) :
    ((List.range n).filter fun k => k = 0 || p k).getLastD 0 =
      ((Finset.range n).filter fun k => 1 ≤ k ∧ p k = true).card := by
  induction n with
  | zero => rfl
  | succ n ih =>
    rw [List.range_succ, List.filter_append, Finset.range_add_one, Finset.filter_insert]
    have ih := ih fun j k h1 h2 h3 => hp j k h1 h2 (by omega)
    by_cases h0 : n = 0
    · subst h0; simp
    cases hn : p n with
    | false => rw [if_neg (by simp)]; simpa only [List.filter, hn, h0, decide_false, Bool.or_false, List.append_nil] using ih
    | true =>
      have hall : ((Finset.range n).filter fun k => 1 ≤ k ∧ p k = true) = Finset.Ico 1 n := by
        ext k
        simp only [Finset.mem_filter, Finset.mem_range, Finset.mem_Ico]
        constructor
        · rintro ⟨h1, h2, -⟩; exact ⟨h2, h1⟩
        · rintro ⟨h1, h2⟩; exact ⟨h2, h1, hp k n h1 h2 (by omega) hn⟩
      rw [if_pos ⟨by omega, rfl⟩, Finset.card_insert_of_notMem (by simp), hall]
      simp [List.filter, hn]
      omega

theorem region_eq_bordersBelow {n : ℕ} {z : Cx} {x : ℝ} (hz : z.canonical = true) (hx : z.value = (x : ℂ)) :
    region (borders n) z = bordersBelow n x := by
  classical
  have h := getLastD_filter_range (fun k => decide (axisBorder n k ≤ x)) n fun j k h1 h2 h3 h4 => by
    rw [decide_eq_true_eq] at h4 ⊢
    exact (axisBorder_lt h1 h2 h3).le.trans h4
  rw [region, borders_length]
  have e : (List.range n).filter (fun k => borderLe ((borders n).getD k none) z)
      = (List.range n).filter fun k => k = 0 || decide (axisBorder n k ≤ x) := by
    apply List.filter_congr
    intro k hk
    rw [Bool.eq_iff_iff, borderLe_iff (List.mem_range.1 hk) hz hx]
    simp
  rw [e, h, bordersBelow]
  congr 1
  ext k
  simp

theorem decideValue_eq_decided (k : ℕ) {z : Cx} (hz : z.canonical = true) : decideValue (2 ^ k) z = decided k z.value := by
  rw [decideValue, gridValue, decided, xTicks_two_pow, yTicks_two_pow,
    region_eq_bordersBelow (canonical_im z) (value_im z), region_eq_bordersBelow (canonical_re hz) (value_re z)]

theorem demodulate_eq (k : ℕ) {zs : List Cx} (h : ∀ z ∈ zs, z.canonical = true) :
    demodulate (2 ^ k) zs = (numbersOf zs).flatMap fun x => unpackValue k (decided k x) := by
  rw [demodulate, numbersOf, List.flatMap_map, bpsOf_two_pow]
  apply List.flatMap_congr
  intro z hz
  rw [decideValue_eq_decided k (h z hz)]

/-! OFDM (R144, R148) -/

theorem inverseTransform_congr {size : ℕ} {x y : ℕ → ℂ} (h : ∀ k, k < size → x k = y k) (n : ℕ) :
    inverseTransform size x n = inverseTransform size y n := by
  unfold inverseTransform
  congr 1
  exact Finset.sum_congr rfl fun k hk => by rw [h k (Finset.mem_range.1 hk)]

theorem forwardTransform_congr {size : ℕ} {x y : ℕ → ℂ} (h : ∀ n, n < size → x n = y n) (k : ℕ) :
    forwardTransform size x k = forwardTransform size y k := by
  unfold forwardTransform
  exact Finset.sum_congr rfl fun n hn => by rw [h n (Finset.mem_range.1 hn)]

theorem frameSample_congr {t : GuardType} {size guard : ℕ} {x y : ℕ → ℂ} (h : ∀ n, n < size → x n = y n)
    (hg : t ≠ .zeroPad → guard ≤ size) {n : ℕ} (hn : n < size + guard) :
    frameSample t size guard x n = frameSample t size guard y n := by
  unfold frameSample
  cases t with
  | zeroPad =>
    simp only
    split
    · rfl
    · exact h _ (by omega)
  | cyclicPrefix =>
    have := hg (by simp)
    simp only; split <;> exact h _ (by omega)
  | cyclicSuffix =>
    have := hg (by simp)
    simp only; split <;> exact h _ (by omega)

theorem sample_guardInsert {f : Frame} {x : List Cx} (hx : x.length = f.size)
    (h : f.gtype ≠ .zeroPad → f.ng.toNat ≤ f.nsc.toNat) {n : ℕ} (hn : n < f.block) :
    valueAt (guardInsert f x) n = frameSample f.gtype f.size f.guardLen (valueAt x) n := by
  have hb : f.block = f.size + f.guardLen := rfl
  unfold guardInsert frameSample
  cases hg : f.gtype with
  | zeroPad =>
    simp only [valueAt, elemAt, List.getD_eq_getElem?_getD]
    split
    · rename_i h1
      rw [List.getElem?_append_left (by simpa using h1)]
      simp [h1]
    · rename_i h1
      rw [List.getElem?_append_right (by simp; omega)]
      simp
  | cyclicPrefix =>
    have hle : f.guardLen ≤ f.size := h (by simp [hg])
    simp only [valueAt, elemAt, List.getD_eq_getElem?_getD]
    split
    · rename_i h1
      rw [List.getElem?_append_left (by simp [hx]; omega)]
      simp
    · rename_i h1
      rw [List.getElem?_append_right (by simp [hx]; omega)]
      simp only [List.length_drop, hx]
      congr 3
      omega
  | cyclicSuffix =>
    have hle : f.guardLen ≤ f.size := h (by simp [hg])
    simp only [valueAt, elemAt, List.getD_eq_getElem?_getD]
    split
    · rename_i h1
      rw [List.getElem?_append_left (by omega)]
    · rename_i h1
      rw [List.getElem?_append_right (by omega), List.getElem?_take_of_lt (by omega), hx]

theorem numbersOf_framed {f : Frame} (h : f.gtype ≠ .zeroPad → f.ng.toNat ≤ f.nsc.toNat) (xs : List Cx) :
    numbersOf (framed f xs) = (List.range (xs.length / f.size)).flatMap fun q =>
      (List.range f.block).map fun n =>
        frameSample f.gtype f.size f.guardLen
          (inverseTransform f.size fun k => numberAt (numbersOf xs) (q * f.size + k)) n := by
  rw [framed, numbersOf_flatMap]
  apply List.flatMap_congr
  intro q _
  apply numbersOf_eq_range (guardInsert_length (idft_length _ _) h)
  intro n hn
  rw [sample_guardInsert (idft_length _ _) h hn]
  refine frameSample_congr (size := f.size) (guard := f.guardLen) (fun m hm => ?_) h hn
  rw [valueAt, elemAt_idft _ hm, value_idftAt]
  refine inverseTransform_congr (fun k hk => ?_) m
  rw [valueAt_piece _ _ _ _ hk, numberAt_numbersOf]

theorem sample_guardRemove (f : Frame) (y : List Cx) {n : ℕ} (hn : n < f.size) :
    valueAt (guardRemove f y) n = valueAt y (guardBefore f.gtype f.guardLen + n) := by
  unfold guardRemove guardBefore
  cases f.gtype <;> simp [valueAt, elemAt, List.getD_eq_getElem?_getD, List.getElem?_take_of_lt, hn]

theorem guardBefore_add_lt (f : Frame) {n : ℕ} (hn : n < f.size) : guardBefore f.gtype f.guardLen + n < f.block := by
  have hb : f.block = f.size + f.guardLen := rfl
  unfold guardBefore
  cases f.gtype <;> simp only <;> omega

theorem numbersOf_deframed (f : Frame) (ys : List Cx) :
    numbersOf (deframed f ys) = (List.range (ys.length / f.block)).flatMap fun q =>
      (List.range f.size).map fun k =>
        forwardTransform f.size
          (fun n => numberAt (numbersOf ys) (q * f.block + (guardBefore f.gtype f.guardLen + n))) k := by
  rw [deframed, numbersOf_flatMap]
  apply List.flatMap_congr
  intro q _
  apply numbersOf_eq_range (dft_length _ _)
  intro k hk
  rw [valueAt, elemAt_dft _ hk, value_dftAt]
  refine forwardTransform_congr (fun n hn => ?_) k
  rw [sample_guardRemove f _ hn, valueAt_piece _ _ _ _ (guardBefore_add_lt f hn), numberAt_numbersOf]

/-! Equalization (R164) -/

theorem numbersOf_equalized (n : ℕ) (z g : List Cx) :
    numbersOf (equalized n z g) = quotients n (numbersOf z) (numbersOf g) := by
  rw [quotients, numbersOf_length]
  apply numbersOf_eq_range (by simp [equalized])
  intro i hi
  simp [equalized, valueAt, elemAt, List.getD_eq_getElem?_getD, hi]

theorem refRequireGain_eq {z g : List Cx} (h : ∀ x ∈ g, x.canonical = true) :
    refRequireGain (numbersOf z) (numbersOf g) = requireGain z g := by
  classical
  unfold refRequireGain requireGain
  have e : (numbersOf g).findIdx? (fun x => decide (x = 0)) = g.findIdx? fun x => decide (x = Cx.zero) := by
    induction g with
    | nil => rfl
    | cons x g ih =>
      have hx : decide (x.value = 0) = decide (x = Cx.zero) := by
        rw [Bool.eq_iff_iff, decide_eq_true_eq, decide_eq_true_eq, value_eq_zero_iff (h x List.mem_cons_self)]
      have ih := ih fun y hy => h y (List.mem_cons_of_mem x hy)
      rw [numbersOf] at ih ⊢
      rw [List.map_cons, List.findIdx?_cons, List.findIdx?_cons, hx, ih]
  rw [numbersOf_length]
  cases hf : g.findIdx? fun x => decide (x = Cx.zero) <;> simp only [e, hf]

/-! The correlation (R184, R187) -/

theorem peakOf_eq {c : ℕ → ℂ} {width k : ℕ} (h : IsPeak c width k) : peakOf c width = k := by
  have : {l | IsPeak c width l} = {k} := by
    ext l
    exact ⟨fun hl => hl.unique h, fun hl => by rw [Set.mem_singleton_iff.1 hl]; exact h⟩
  rw [peakOf, this, csInf_singleton]

/-- The machine's peak of a window of a sequence of elements (R187). -/
theorem argmaxAbs_eq_peakOf {a : List Cx} {width : ℕ} (h1 : 1 ≤ width) (h2 : width ≤ a.length) :
    argmaxAbs a width = peakOf (valueAt a) width := by
  have hv : ∀ i (hi : i < a.length), valueAt a i = a[i].value := fun i hi => by
    simp [valueAt, elemAt, List.getD_eq_getElem?_getD, hi]
  -- what the machine tests of an index of the window
  have ht : ∀ i (hi : i < a.length), (((a.take width).map Cx.abs2).all fun n => Cx.le n a[i].abs2) = true ↔
      ∀ j, j < width → Complex.normSq (valueAt a j) ≤ Complex.normSq (valueAt a i) := by
    intro i hi
    rw [List.all_eq_true, hv i hi]
    constructor
    · intro h j hj
      rw [hv j (by omega), ← abs2_le_iff]
      exact h _ (List.mem_map.2 ⟨_, List.mem_take_iff_getElem.2 ⟨j, by omega, rfl⟩, rfl⟩)
    · intro h m hm
      obtain ⟨x, hx, rfl⟩ := List.mem_map.1 hm
      obtain ⟨j, hj, rfl⟩ := List.mem_take_iff_getElem.1 hx
      rw [abs2_le_iff, ← hv j (by omega)]
      exact h j (by omega)
  unfold argmaxAbs
  simp only
  cases hf : ((a.take width).map Cx.abs2).findIdx? fun m => ((a.take width).map Cx.abs2).all fun n => Cx.le n m with
  | none =>
    exfalso
    rw [List.findIdx?_eq_none_iff] at hf
    obtain ⟨m, hm, hmax⟩ := (Finset.range width).exists_max_image (fun i => Complex.normSq (valueAt a i)) ⟨0, by simpa⟩
    rw [Finset.mem_range] at hm
    have := hf _ (List.mem_map.2 ⟨_, List.mem_take_iff_getElem.2 ⟨m, by omega, rfl⟩, rfl⟩)
    rw [(ht m (by omega)).2 fun j hj => hmax j (Finset.mem_range.2 hj)] at this
    cases this
  | some k =>
    rw [List.findIdx?_eq_some_iff_getElem] at hf
    obtain ⟨hk, hp, hlt⟩ := hf
    have hkw : k < width ∧ k < a.length := by simpa using hk
    have hge : ∀ i (_ : i ≤ k) (h), ((a.take width).map Cx.abs2)[i]'h = (a[i]'(by omega)).abs2 := by intro i _ h; simp
    rw [hge k le_rfl] at hp
    have hmax := (ht k hkw.2).1 hp
    refine (peakOf_eq ⟨hkw.1, hmax, fun i hi => ?_⟩).symm
    have hn := hlt i hi
    rw [hge i hi.le, ht i (by omega)] at hn
    push Not at hn
    obtain ⟨j, hj, hlj⟩ := hn
    exact hlj.trans_le (hmax j hj)

theorem argmaxAbs_lt {a : List Cx} {width : ℕ} (h1 : 1 ≤ width) : argmaxAbs a width < width := by
  unfold argmaxAbs
  simp only
  cases hf : ((a.take width).map Cx.abs2).findIdx? fun m => ((a.take width).map Cx.abs2).all fun n => Cx.le n m with
  | none => exact h1
  | some k =>
    have := (List.findIdx?_eq_some_iff_getElem.1 hf).1
    simp at this
    simp
    omega

theorem peakOf_congr {c d : ℕ → ℂ} {width : ℕ} (h : ∀ i, i < width → c i = d i) : peakOf c width = peakOf d width := by
  have : ∀ k, IsPeak c width k ↔ IsPeak d width k := by
    intro k
    unfold IsPeak
    refine and_congr_right fun hk => and_congr ?_ ?_
    · exact forall₂_congr fun i hi => by rw [h i hi, h k hk]
    · exact forall₂_congr fun i hi => by rw [h i (by omega), h k hk]
  simp only [peakOf, this]

theorem valueAt_correlation {rx ref : List Cx} {k : ℕ} (h : k < rx.length + ref.length - 1) :
    valueAt (correlation rx ref) k = correlationValue (numbersOf rx) (numbersOf ref) k := by
  rw [valueAt, elemAt_correlation h, value_correlationAt]

theorem argmaxAbs_correlation {rx ref : List Cx} {width : ℕ} (h1 : 1 ≤ width) (h2 : width ≤ rx.length + ref.length - 1) :
    argmaxAbs (correlation rx ref) width = peakOf (correlationValue (numbersOf rx) (numbersOf ref)) width := by
  rw [argmaxAbs_eq_peakOf h1 (by rwa [correlation_length])]
  exact peakOf_congr fun i hi => valueAt_correlation (by omega)

/-- Either strategy finds the reference machine's peak (R185, R186). -/
theorem searchPeak_eq {g : Staging} {rx ref : List Cx} (h0 : ref.length ≠ 0) (h1 : ref.length ≤ rx.length) :
    searchPeak g (correlation rx ref) ref.length =
      refSearch g (correlationValue (numbersOf rx) (numbersOf ref)) (rx.length + ref.length - 1) ref.length := by
  unfold searchPeak refSearch
  rw [correlation_length]
  split
  · rw [argmaxAbs_correlation (by omega) le_rfl]
  · refine outcome_congr fun _ hf => outcome_congr fun _ hr => ?_
    rw [require_ok_iff] at hf hr
    rw [argmaxAbs_correlation (Nat.mul_pos (Nat.pos_of_ne_zero hr.1) (Nat.pos_of_ne_zero hf)) hr.2]

theorem searchPeak_lt {g : Staging} {a : List Cx} {m : ℕ} {pk : ℕ × ℤ} (ha : 1 ≤ a.length) (h : searchPeak g a m = .ok pk) :
    pk.1 < a.length := by
  rcases searchPeak_ok h with ⟨-, rfl⟩ | ⟨-, hf, hr, hw, rfl⟩
  · exact argmaxAbs_lt ha
  · exact (argmaxAbs_lt (Nat.mul_pos (Nat.pos_of_ne_zero hr) (Nat.pos_of_ne_zero hf))).trans_le hw

/-! The commands -/

/-- Every command's rule on elements is the reference rule on the numbers they stand for (R9). -/
theorem refRule_toRef (i : Instr) {c : CoreState} (h : c.Inv) : refRule i c.toRef = (ruleOf i c).map CoreState.toRef := by
  cases i with
  | nop => rfl
  | cbuild =>
    simp only [refRule, ruleOf, refConfigure, cbuildRule, outcome_map_bind]
    rfl
  | fbuild =>
    simp only [refRule, ruleOf, refConfigure, fbuildRule, outcome_map_bind]
    rfl
  | qmod rd rs1 =>
    simp only [refRule, ruleOf, refQmod, qmodRule, outcome_map_bind, toRef_sourceBits, toRef_needOrder]
    refine outcome_congr fun o ho => outcome_congr fun b _ => outcome_congr fun _ _ => ?_
    obtain ⟨k, hk, rfl⟩ := needOrder_ok_iff.1 ho
    obtain ⟨n, -, hn, -⟩ := h.order k hk
    rw [hn, bpsOf_two_pow, ← numbersOf_modulate, toRef_writeCplx]
  | qdem rd rs1 =>
    simp only [refRule, ruleOf, refQdem, qdemRule, outcome_map_bind, outcome_bind_map, toRef_sourceCplx,
      toRef_needOrder, numbersOf_length]
    refine outcome_congr fun o ho => outcome_congr fun z hz => outcome_congr fun _ _ => ?_
    obtain ⟨k, hk, rfl⟩ := needOrder_ok_iff.1 ho
    obtain ⟨n, -, hn, -⟩ := h.order k hk
    rw [hn, bpsOf_two_pow, ← demodulate_eq n (canonical_of_source h hz), toRef_writeBits]
  | oftx rd rs1 =>
    simp only [refRule, ruleOf, refOftx, oftxRule, outcome_map_bind, outcome_bind_map, toRef_sourceCplx,
      toRef_needFrame, numbersOf_length]
    refine outcome_congr fun f hf => outcome_congr fun x _ => outcome_congr fun _ _ => outcome_congr fun _ _ => ?_
    rw [← numbersOf_framed (h.frame f (needFrame_ok_iff.1 hf)).2, toRef_writeCplx]
  | ofrx rd rs1 =>
    simp only [refRule, ruleOf, refOfrx, ofrxRule, outcome_map_bind, outcome_bind_map, toRef_sourceCplx,
      toRef_needFrame, numbersOf_length]
    refine outcome_congr fun f _ => outcome_congr fun y _ => ?_
    rw [← numbersOf_deframed, toRef_writeCplx]
  | chest rd rs1 =>
    simp only [refRule, ruleOf, refChest, chestRule, outcome_map_bind, outcome_bind_map, toRef_sourceCplx, toRef_needFrame]
    refine outcome_congr fun _ _ => outcome_congr fun _ _ => ?_
    change (if c.staging.estsel.toNat = 0 then _ else _) = _
    split
    · simp only [outcome_map_bind]
      refine outcome_congr fun f _ => outcome_congr fun _ _ => ?_
      rw [toRef_writeCplx]
      simp [numbersOf]
    · rw [toRef_writeCplx]
      simp [numbersOf]
  | eq rd rs1 rs2 =>
    simp only [refRule, ruleOf, refEq, eqRule, outcome_map_bind, outcome_bind_map, toRef_sourceCplx,
      toRef_needFrame, numbersOf_length]
    refine outcome_congr fun z _ => outcome_congr fun g hg => ?_
    rw [refRequireGain_eq (canonical_of_source h hg)]
    split
    · simp only [outcome_map_bind]
      refine outcome_congr fun _ _ => ?_
      rw [← numbersOf_equalized, toRef_writeCplx]
    · simp only [outcome_map_bind]
      refine outcome_congr fun f _ => outcome_congr fun _ _ => outcome_congr fun _ _ => outcome_congr fun _ _ => ?_
      rw [← numbersOf_equalized, toRef_writeCplx]
  | xcorr rd rs1 rs2 rs3 =>
    simp only [refRule, ruleOf, refXcorr, xcorrRule, outcome_map_bind, outcome_bind_map, toRef_sourceCplx, numbersOf_length]
    refine outcome_congr fun rx _ => outcome_congr fun ref _ => outcome_congr fun ev _ => outcome_congr fun _ _ =>
      outcome_congr fun _ _ => outcome_congr fun _ h0 => outcome_congr fun _ h1 => ?_
    rw [require_ok_iff] at h0 h1
    rw [← searchPeak_eq h0 h1]
    refine outcome_congr fun pk hp => outcome_congr fun _ _ => ?_
    have hk : pk.1 < rx.length + ref.length - 1 := by
      rw [← correlation_length]
      exact searchPeak_lt (by rw [correlation_length]; omega) hp
    rw [elemAt_correlation hk, require_congr (correlationAt_eq_zero_iff rx ref pk.1).not]
    refine outcome_congr fun _ _ => ?_
    have e : numbersOf [Cx.div (elemAt ev 0) (correlationAt rx ref pk.1)] =
        [numberAt (numbersOf ev) 0 / correlationValue (numbersOf rx) (numbersOf ref) pk.1] := by
      rw [numberAt_numbersOf, ← value_correlationAt]
      simp [numbersOf, valueAt]
    rw [← e]
    refine congrArg Except.ok ?_
    rw [show RefBuffer.cplx (numbersOf [Cx.div (elemAt ev 0) (correlationAt rx ref pk.1)]) =
      (Buffer.cplx [Cx.div (elemAt ev 0) (correlationAt rx ref pk.1)]).toRef from rfl, ← toRef_writeBuf]
    rfl

/-- Executing a command on elements is executing it on the numbers they stand for (R9). -/
theorem exec_toRef {i : Instr} {s t : State} (h : s.core.Inv) (he : exec i s = .next t) :
    t.core.toRef = refExec i s.core.toRef := by
  rw [exec_eq] at he
  cases he
  exact toRef_carryOut (refRule_toRef i h) _

/-! The host port -/

theorem shape_buf (c : CoreState) (b : BufIdx) :
    c.toRef.shape.bufs[b].kindCode = c.bufs[b].kindCode ∧ c.toRef.shape.bufs[b].len = c.bufs[b].len := by
  have e : c.toRef.shape.bufs[b] = c.bufs[b].toRef.shape := by simp [RefCore.shape, CoreState.toRef]
  rw [e]
  cases c.bufs[b] <;> simp [Buffer.toRef, RefBuffer.shape, Buffer.kindCode, Buffer.len]

/-- Registers show nothing of an element (R30 to R41). -/
theorem shape_readIndex (c : CoreState) (i : ℕ) : c.toRef.shape.readIndex i = c.readIndex i := by
  unfold CoreState.readIndex
  cases Csr.ofIndex i with
  | none => rfl
  | some r =>
    cases r with
    | bkind b => simp only [CoreState.readCsr, (shape_buf c b).1]
    | blen b => simp only [CoreState.readCsr, (shape_buf c b).2]
    | _ => rfl

theorem toRef_writeIndex (c : CoreState) (i : ℕ) (w : Word) : (c.writeIndex i w).toRef = c.toRef.writeIndex i w := by
  unfold RefCore.writeIndex
  split
  · rename_i h
    obtain ⟨rfl, hw⟩ := h
    rw [writeIndex_index]
    simp [CoreState.writeCsr, CoreState.writeCtrl, hw, RefCore.reset]
  · rename_i h
    unfold CoreState.writeIndex
    cases hr : Csr.ofIndex i with
    | none => rfl
    | some r =>
      cases r
      case ctrl =>
        have hi := index_ofIndex hr
        have hw : w.getLsbD 1 = false := by
          cases e : w.getLsbD 1 with
          | false => rfl
          | true => exact absurd ⟨hi.symm, e⟩ h
        simp only [CoreState.writeCsr, CoreState.writeCtrl, hw]
        cases w.getLsbD 0 <;> rfl
      all_goals rfl

/-- A word written to `CMD`, on elements and on the numbers they stand for (R31, R205). -/
theorem issue_toRef {w : Word} {s t : State} (h : s.core.Inv) (he : issue w s = .next t) :
    t.core.toRef = refIssue w s.core.toRef := by
  unfold refIssue
  cases hf : s.core.fault with
  | some r =>
    rw [issue_refused hf] at he
    cases he
    have hr : s.core.toRef.fault = some r := hf
    cases decode w <;> simp [refExec, RefCore.carryOut, hr]
  | none =>
    cases hd : decode w with
    | ok i =>
      rw [issue_decoded hf hd] at he
      exact exec_toRef h he
    | error e =>
      simp only [issue, CoreState.faultFlag, hf, Option.isSome_none, Bool.false_eq_true, if_false, hd, issueIllegal,
        state_carryOut] at he
      cases he
      exact toRef_carryOut rfl w

/-- Issuing a word gives no answer of its own. -/
theorem issue_replies {w : Word} {s t : State} (he : issue w s = .next t) : t.replies = s.replies := by
  unfold issue issueIllegal at he
  split at he
  · cases he; rfl
  · split at he
    · rw [exec_eq] at he; cases he; rfl
    · rw [state_carryOut] at he; cases he; rfl

/-- A step that takes a transaction does what the reference machine does, and gives its answer, on the numbers the elements
stand for (R9). -/
theorem step_toRef {s t : State} {e : HostEvent} {rest : List HostEvent} (h : s.core.Inv) (hs : s.script = e :: rest)
    (ht : step s = .next t) :
    t.core.toRef = refPerform e.toRef s.core.toRef ∧
      t.replies.map HostReply.toRef = s.replies.map HostReply.toRef ++ [refAnswer e.toRef s.core.toRef] := by
  rw [step_cons hs] at ht
  cases e with
  | csrRead i =>
    cases ht
    exact ⟨rfl, by simp [HostReply.toRef, HostEvent.toRef, refAnswer, shape_readIndex]⟩
  | csrWrite i w =>
    simp only [perform] at ht
    by_cases hi : i = Csr.cmd.index
    · rw [if_pos hi] at ht
      have hr : t.replies = s.replies ++ [.completed] := issue_replies (s := s.answer .completed) ht
      refine ⟨?_, by simp [hr, HostReply.toRef, HostEvent.toRef, refAnswer]⟩
      simp only [HostEvent.toRef, refPerform, if_pos hi]
      exact issue_toRef (s := s.answer .completed) h ht
    · rw [if_neg hi] at ht
      cases ht
      refine ⟨?_, by simp [HostReply.toRef, HostEvent.toRef, refAnswer]⟩
      simp only [HostEvent.toRef, refPerform, if_neg hi]
      exact toRef_writeIndex _ _ _
  | bufRead b =>
    cases ht
    exact ⟨rfl, by simpa [HostReply.toRef, HostEvent.toRef, refAnswer] using (toRef_buf s.core b).symm⟩
  | bufWrite b d =>
    rcases hostBufWrite_cases b d (s.answer .completed) with ⟨-, e⟩ | ⟨r, -, e⟩
    · have ht := e.symm.trans ht
      cases ht
      exact ⟨toRef_writeBuf _ _ _, by simp [HostReply.toRef, HostEvent.toRef, refAnswer]⟩
    · cases e.symm.trans ht
  | resetInput =>
    cases ht
    exact ⟨rfl, by simp [HostReply.toRef, HostEvent.toRef, refAnswer]⟩

end Sys2Proof.Machine
end

