-- ==== Sys2Proof/Tests/Slice0.lean ====
section
/-! SUPPORT. Tests of the model on worked values of spec/95_test_vectors.md, ill-formed terms for the checks of WellFormed,
and a witness for the hypotheses of each statement, clause by clause. -/

namespace Sys2Proof.Tests

-- One theorem after the other: each waits for the kernel, and a waiting theorem holds a thread.
set_option Elab.async false

open Sys2Proof Sys2Proof.Machine

/-! ## Helpers -/

/-- CORE from reset with three buffers written. -/
def bench (d0 d1 d2 : Buffer) : CoreState := ((CoreState.reset.writeBuf 0 d0).writeBuf 1 d1).writeBuf 2 d2

/-- A state of the machine with no events to come. -/
def idle (c : CoreState) : State := ⟨c, [], []⟩

/-- A state of the machine with events to come. -/
def scripted (c : CoreState) (es : List HostEvent) : State := ⟨c, es, []⟩

/-- CORE after one command. -/
def after (i : Instr) (c : CoreState) : CoreState :=
  match exec i (idle c) with
  | .next t => t.core
  | .fault _ => c
  | .refused _ => c

/-- Complex data of rational parts. -/
def cx (l : List (Rat × Rat)) : Buffer := .cplx (l.map fun p => Cx.ofParts p.1 p.2)

/-- Bits written as numbers. -/
def bits (l : List Nat) : Buffer := .bits (l.map fun n => n == 1)

/-- CORE with order `o` latched. -/
def withOrder (o : Word) (c : CoreState) : CoreState := { c with constel := some ⟨o⟩ }

/-- CORE with frame parameters latched. -/
def withFrame (n g : Word) (t : GuardType) (c : CoreState) : CoreState := { c with frame := some ⟨n, g, t⟩ }

/-- The fault record as numbers: cause code, `FCMD`, `FINFO`. -/
def record (c : CoreState) : Option (Nat × Nat × Nat) := c.fault.map fun r => (r.cause.code, r.fcmd.toNat, r.finfo.toNat)

/-! ## Decoding (95_test_vectors.md 2.6, words written out from R81 and R84) -/

theorem test_decode_nop : decode 0x00000000#32 = .ok .nop := by decide +kernel

theorem test_decode_cbuild : decode 0x00000001#32 = .ok .cbuild := by decide +kernel

theorem test_decode_fbuild : decode 0x00000002#32 = .ok .fbuild := by decide +kernel

theorem test_decode_qmod : decode 0x00003F10#32 = .ok (.qmod 7 7) := by decide +kernel

theorem test_decode_qdem : decode 0x00003811#32 = .ok (.qdem 0 7) := by decide +kernel

theorem test_decode_oftx : decode 0x00000120#32 = .ok (.oftx 1 0) := by decide +kernel

theorem test_decode_ofrx : decode 0x00003F21#32 = .ok (.ofrx 7 7) := by decide +kernel

theorem test_decode_chest : decode 0x00003930#32 = .ok (.chest 1 7) := by decide +kernel

theorem test_decode_eq : decode 0x00011D31#32 = .ok (.eq 5 3 4) := by decide +kernel

theorem test_decode_xcorr : decode 0x00044340#32 = .ok (.xcorr 3 0 1 2) := by decide +kernel

theorem test_decode_illegal :
    decode 0x00000003#32 = .error .unknownOpcode ∧ decode 0x00000100#32 = .error .unusedFieldSet ∧
    decode 0x00004010#32 = .error .unusedFieldSet ∧ decode 0x00020031#32 = .error .unusedFieldSet ∧
    decode 0x00100040#32 = .error .reservedBitsSet := by decide +kernel

theorem test_encode_example : encode (.eq 5 3 4) = 0x00011D31#32 := by decide +kernel

theorem test_table_word : decodeTableWord 32 0x000FFF40 = some (.xcorr 7 7 7 7) ∧ decodeTableWord 32 0x12 = none := by
  decide +kernel

/-! ## WellFormed: a term each check refuses -/

theorem test_host_write_none : hostWriteProblem .none = some .hostWroteKindNone := by decide

theorem test_host_write_too_many (h : Config.capSlack = some 0) :
    hostWriteProblem (.bits (List.replicate 65 false)) = some (.hostWroteTooMany 65) := by
  simp [hostWriteProblem, Buffer.len, fitsCap_of_slack h]

theorem test_host_write_no_number :
    hostWriteProblem (.cplx [⟨[⟨1 / 2, 1⟩]⟩]) = some .hostWroteNoNumber ∧
    hostWriteProblem (.cplx [⟨[⟨0, 0⟩]⟩]) = some .hostWroteNoNumber ∧
    hostWriteProblem (.cplx [⟨[⟨1 / 4, 1⟩, ⟨0, 1⟩]⟩]) = some .hostWroteNoNumber := by decide +kernel

theorem test_host_write_accepted : hostWriteProblem (cx [(1, -1)]) = none := by decide +kernel

theorem test_rxchain_scratch : rxChainWellFormed 3 3 = false ∧ rxChainWellFormed 3 4 = true := by decide

/-! ## Commands -/

/-- R100, the example. -/
theorem test_nop_advances : after .nop { CoreState.reset with cseq := 4 } = { CoreState.reset with cseq := 5 } := by
  decide +kernel

/-- R33: the count wraps. -/
theorem test_nop_wraps : (after .nop { CoreState.reset with cseq := 0xFFFFFFFF#32 }).cseq = 0 := by decide +kernel

/-- F2. -/
theorem test_cbuild_latches :
    let c := after .cbuild { CoreState.reset with staging := { Staging.reset with order := 16 } }
    (c.readIndex 1, c.readIndex 16, c.readIndex 17, c.cseq) = (2#32, 16#32, 4#32, 1#32) := by decide +kernel

/-- F2b: a build that fails leaves the old half. -/
theorem test_cbuild_keeps_old :
    let c := after .cbuild (withOrder 16 { CoreState.reset with staging := { Staging.reset with order := 6 } })
    (c.readIndex 1, c.readIndex 16, record c) = (0x103#32, 16#32, some (1, 1, 6)) := by decide +kernel

/-- F6: a cyclic guard longer than the block. -/
theorem test_fbuild_guard_too_long :
    record (after .fbuild { CoreState.reset with staging := { Staging.reset with nsc := 4, ng := 5, gtype := 1 } })
      = some (18, 2, 10) := by decide +kernel

/-- F6b: the same with zero padding. -/
theorem test_fbuild_zero_pad_long :
    (after .fbuild { CoreState.reset with staging := { Staging.reset with nsc := 4, ng := 5 } }).frame
      = some ⟨4, 5, .zeroPad⟩ := by decide +kernel

/-- Q3: order 8, a rectangular grid. -/
theorem test_qmod_order_8 :
    (after (.qmod 1 0) (withOrder 8 (bench (bits [0, 0, 0, 1, 0, 0, 1, 1, 0, 0, 0, 1, 1, 1, 1]) .none .none))).bufs[1]
      = cx [(-1, -1), (-1 / 3, -1), (1, -1), (-1, 1), (1, 1)] := by decide +kernel

/-- Q10: the destination is the source. -/
theorem test_qmod_in_place :
    (after (.qmod 0 0) (withOrder 4 (bench (bits [1, 1]) .none .none))).bufs[0] = cx [(1, 1)] := by decide +kernel

/-- D1: on the borders and outside the grid. -/
theorem test_qdem_borders :
    (after (.qdem 2 1) (withOrder 16 (bench .none (cx [(1 / 5, -9 / 10), (-2 / 3, 0), (0, 2 / 3), (5, 5), (-5, -5),
      (-67 / 100, 67 / 100), (0, 0)]) .none))).bufs[2]
      = bits [0, 1, 0, 0, 1, 0, 0, 1, 0, 1, 1, 1, 1, 1, 1, 1, 0, 0, 0, 0, 0, 0, 1, 1, 0, 1, 0, 1] := by decide +kernel

/-- D3: order 2 has no border on the imaginary axis. -/
theorem test_qdem_order_2 :
    (after (.qdem 2 1) (withOrder 2 (bench .none (cx [(-3 / 10, 7), (0, -9), (1 / 100, 0)]) .none))).bufs[2]
      = bits [0, 1, 1] := by decide +kernel

/-- T2. -/
theorem test_oftx_prefix :
    (after (.oftx 1 0) (withFrame 4 2 .cyclicPrefix (bench (cx [(1, 1), (-1, 1), (1, -1), (-1, -1)]) .none .none))).bufs[1]
      = cx [(1, 0), (1 / 2, 1 / 2), (0, 0), (-1 / 2, 1 / 2), (1, 0), (1 / 2, 1 / 2)] := by decide +kernel

/-- T9: a block whose length is no power of two, with a suffix. -/
theorem test_oftx_three_tones :
    (after (.oftx 1 0) (withFrame 3 1 .cyclicSuffix (bench (cx [(3, 0), (0, 0), (0, 0)]) .none .none))).bufs[1]
      = cx [(1, 0), (1, 0), (1, 0), (1, 0)] := by decide +kernel

/-- R1: the guard is dropped whatever it holds, and so is a trailing partial block. -/
theorem test_ofrx_truncates :
    (after (.ofrx 2 1) (withFrame 2 1 .zeroPad
      (bench .none (cx [(9, 0), (1, 0), (1, 0), (9, 0), (2, 0), (0, 0), (7, 0), (7, 0)]) .none))).bufs[2]
      = cx [(2, 0), (0, 0), (2, 0), (2, 0)] := by decide +kernel

/-- R3: a suffix is dropped from the end. -/
theorem test_ofrx_suffix :
    (after (.ofrx 2 1) (withFrame 2 1 .cyclicSuffix
      (bench .none (cx [(1, 0), (1, 0), (9, 0), (2, 0), (0, 0), (9, 0)]) .none))).bufs[2]
      = cx [(2, 0), (0, 0), (2, 0), (2, 0)] := by decide +kernel

/-- H1. -/
theorem test_chest_per_tone :
    (after (.chest 1 0) (withFrame 4 0 .zeroPad (bench (cx [(7, 0), (0, 7)]) .none .none))).bufs[1]
      = cx [(1, 0), (1, 0), (1, 0), (1, 0)] := by decide +kernel

/-- H4. -/
theorem test_chest_reserved_strategy :
    record (after (.chest 1 0) { bench (cx [(1, 0)]) .none .none with staging := { Staging.reset with estsel := 2 } })
      = some (18, 0x130, 12) := by decide +kernel

/-- E1: per tone. -/
theorem test_eq_per_tone :
    (after (.eq 2 0 1) (withFrame 2 0 .zeroPad
      (bench (cx [(2, 2), (0, -1), (4, 0), (0, 3)]) (cx [(2, 0), (0, 1)]) .none))).bufs[2]
      = cx [(1, 1), (-1, 0), (2, 0), (3, 0)] := by decide +kernel

/-- E5. -/
theorem test_eq_zero_gain :
    record (after (.eq 2 0 1) (withFrame 2 0 .zeroPad (bench (cx [(1, 0), (2, 0)]) (cx [(1, 0), (0, 0)]) .none)))
      = some (21, 0x4231, 1) := by decide +kernel

/-- X3: a preamble at the start reports a negative offset. -/
theorem test_xcorr_negative_offset :
    let c := after (.xcorr 3 0 1 2)
      (bench (cx [(1, 0), (-1, 0), (1, 0), (0, 0), (0, 0)]) (cx [(1, 0), (-1, 0), (1, 0)]) (cx [(3, 0)]))
    (c.syncoff, c.svalid, c.bufs[3]) = (0xFFFFFFFF#32, true, cx [(1, 0)]) := by decide +kernel

/-- X8: the peak inside the window of the grid alone. -/
theorem test_xcorr_grid_window :
    let c := after (.xcorr 3 0 1 2) { bench
      (cx [(0, 0), (0, 0), (0, 0), (-1 / 2, 1 / 2), (1 / 2, 1 / 2), (-1 / 2, -1 / 2), (0, 1), (0, 0), (0, 0)])
      (cx [(1, 1), (1, -1), (-1, 1), (2, 0)]) (cx [(10, 0)]) with
      staging := { Staging.reset with syncsel := 1, sflen := 4, srows := 1 } }
    (c.syncoff, c.bufs[3]) = (3#32, cx [(-5, -5)]) := by decide +kernel

/-! ## Port and step -/

/-- M1: the configuration check is before the operand check; the step runs the word a host places. -/
theorem test_step_runs_word :
    (match step (State.reset.withFetchWord 32 0x110) with
      | .next t => (record t.core, t.replies.length)
      | .fault _ => (none, 0)
      | .refused _ => (none, 0)) = (some (17, 0x110, 1), 1) := by decide +kernel

/-- M4: a second fault is not recorded. -/
theorem test_refused_while_pending :
    (match step (scripted { CoreState.reset with fault := some ⟨.notConfigured, 0x110, 1⟩ } [.csrWrite 0 3]) with
      | .next t => record t.core
      | .fault _ => none
      | .refused _ => none) = some (17, 0x110, 1) := by decide +kernel

/-- M6: `SRST` wins over `CLRFAULT`. -/
theorem test_reset_wins :
    (match step (scripted (withOrder 4 CoreState.reset) [.csrWrite 2 3]) with
      | .next t => decide (t.core = CoreState.reset)
      | .fault _ => false
      | .refused _ => false) = true := by decide +kernel

/-- R65: carriage of a word in bytes, the low byte first, and of bits in words, bit 32 in the second word. -/
theorem test_carriage :
    wordBytes 0x12345678#32 = [0x78, 0x56, 0x34, 0x12] ∧ packBits [true, false, true] = [5#32] ∧
      packBits (List.replicate 32 false ++ [true]) = [0#32, 1#32] := by decide +kernel

/-- R65: the real part is carried first, the imaginary part second. -/
theorem test_carriage_complex :
    carryComplex (fun x => [x]) (Cx.ofParts (1 / 2) (-3)) = [Cx.ofRat (1 / 2), Cx.ofRat (-3)] := by decide +kernel

/-! ## Witnesses: for each statement with hypotheses, a state and operands that meet them, clause by clause. The clauses on
what does not fit are met only where the platform bounds `CAP` or `ORDER_MAX` (entries 6 and 7), which their witnesses
assume. -/

/-- The bytes of nothing: a buffer that was never written is of neither kind. -/
theorem none_is_no_bits (c : CoreState) (b : BufIdx) (h : c.bufs[b] = .none) : ∀ d, c.bufs[b] ≠ .bits d := by
  intro d e; rw [h] at e; cases e

theorem none_is_no_cplx (c : CoreState) (b : BufIdx) (h : c.bufs[b] = .none) : ∀ d, c.bufs[b] ≠ .cplx d := by
  intro d e; rw [h] at e; cases e

theorem no_command {w : Word} {r : Reject} (h : decode w = .error r) : ∀ i, decode w ≠ .ok i := by
  intro i e; rw [h] at e; cases e

/-- A state with a recorded fault. -/
def pendingState (es : List HostEvent) : State :=
  scripted { CoreState.reset with fault := some ⟨.invalidOrder, 1, 0⟩ } es

theorem witness_EncodeOfDecode : decode 0x0001FF31#32 = .ok (.eq 7 7 7) := by decide +kernel

theorem witness_OperandFields : decode 0x00003F10#32 = .ok (.qmod 7 7) ∧ decode 0x00003811#32 = .ok (.qdem 0 7) ∧
    decode 0x0001FF31#32 = .ok (.eq 7 7 7) ∧ decode 0x000FFF40#32 = .ok (.xcorr 7 7 7 7) := by decide +kernel

theorem witness_IllegalWords :
    let s := scripted CoreState.reset [.csrWrite 0 0x80000000#32]
    s.core.fault = none ∧ s.script = .csrWrite 0 0x80000000#32 :: [] ∧ ∀ i, decode 0x80000000#32 ≠ .ok i :=
  ⟨rfl, rfl, no_command (r := .reservedBitsSet) (by decide +kernel)⟩

theorem witness_ElementsAreComplexNumbers :
    Cx.zero.canonical = true ∧ Cx.one.canonical = true ∧ Cx.one.value ≠ 0 ∧ Cx.zero.value = ((0 : ℝ) : ℂ) ∧
      Cx.one.value = ((1 : ℝ) : ℂ) ∧ (0 : ℝ) < 1 :=
  ⟨by decide +kernel, by decide +kernel, by simp, by simp, by simp, one_pos⟩

theorem witness_StepRunsDecodedCommand :
    let s := scripted CoreState.reset [.csrWrite 0 0x00000110#32]
    s.core.fault = none ∧ s.script = .csrWrite 0 0x00000110#32 :: [] ∧ decode 0x00000110#32 = .ok (.qmod 1 0) := by
  decide +kernel

theorem witness_ReadsHaveNoSideEffect :
    (scripted CoreState.reset [.csrRead 65536, .csrRead 65536]).script = .csrRead 65536 :: .csrRead 65536 :: [] ∧
    (scripted CoreState.reset [.bufRead 7, .bufRead 7]).script = .bufRead 7 :: .bufRead 7 :: [] := ⟨rfl, rfl⟩

theorem witness_PendingFaultRefusesCommands :
    (pendingState []).core.fault = some ⟨.invalidOrder, 1, 0⟩ ∧
    (pendingState [.csrWrite 0 0]).script = .csrWrite 0 0 :: [] ∧
    (pendingState [.csrRead 1]).script = .csrRead 1 :: [] ∧
    (pendingState [.bufRead 0]).script = .bufRead 0 :: [] ∧
    (pendingState [.csrWrite 8 5]).script = .csrWrite 8 5 :: [] ∧
    (pendingState [.csrWrite 15 5]).script = .csrWrite 15 5 :: [] ∧
    ((1#32).getLsbD 1 = false ∧ (1#32).getLsbD 0 = true ∧ (pendingState [.csrWrite 2 1]).script = .csrWrite 2 1 :: []) ∧
    ((2#32).getLsbD 1 = true ∧ (pendingState [.csrWrite 2 2]).script = .csrWrite 2 2 :: []) ∧
    ((4#32).getLsbD 1 = false ∧ (4#32).getLsbD 0 = false ∧ (pendingState [.csrWrite 2 4]).script = .csrWrite 2 4 :: []) ∧
    (hostWriteProblem (.bits []) = none ∧ (pendingState [.bufWrite 0 (.bits [])]).script = .bufWrite 0 (.bits []) :: []) := by
  decide +kernel

/-- `CBUILD` straight after reset faults (R233). -/
theorem witness_FaultIsPrecise :
    let s := scripted CoreState.reset [.csrWrite 0 1]
    s.core.fault = none ∧ s.script = .csrWrite 0 1 :: [] ∧ ∃ t r, step s = .next t ∧ t.core.fault = some r :=
  ⟨rfl, rfl, _, _, rfl, rfl⟩

theorem witness_CseqCountsCompletions :
    (∃ t, step (scripted CoreState.reset [.csrWrite 0 0]) = .next t ∧ t.core.fault = none) ∧
    (∃ t, step (pendingState [.csrWrite 0 0]) = .next t ∧ (pendingState [.csrWrite 0 0]).core.fault ≠ none) ∧
    (∃ t, step (scripted CoreState.reset [.csrWrite 0 1]) = .next t ∧ t.core.fault ≠ none) ∧
    (∃ t, step (scripted CoreState.reset [.csrWrite 2 1]) = .next t ∧ (1#32).getLsbD 1 = false) ∧
    (∃ t, step (scripted CoreState.reset [.csrRead 3]) = .next t) ∧
    (∃ t, step (scripted CoreState.reset [.bufRead 0]) = .next t) ∧
    (∃ t, step (scripted CoreState.reset [.bufWrite 0 (.bits [])]) = .next t) ∧
    (∃ t, step (scripted CoreState.reset [.resetInput]) = .next t) ∧
    (∃ t, step (scripted CoreState.reset [.csrWrite 2 2]) = .next t ∧ (2#32).getLsbD 1 = true) :=
  ⟨⟨_, rfl, rfl⟩, ⟨_, rfl, by simp [pendingState, scripted]⟩, ⟨_, rfl, by decide +kernel⟩, ⟨_, rfl, rfl⟩, ⟨_, rfl⟩, ⟨_, rfl⟩,
    ⟨_, rfl⟩, ⟨_, rfl⟩, ⟨_, rfl, rfl⟩⟩

theorem witness_ScriptsRunToTheirEnd :
    ∀ e ∈ (scripted CoreState.reset [.bufWrite 0 (.bits [true]), .csrWrite 8 2, .csrWrite 0 1, .csrWrite 0 0x110,
      .bufRead 1, .csrRead 1, .resetInput]).script, e.wellFormed = true := by decide +kernel

theorem witness_FaultTable :
    ∃ t r, exec .cbuild (idle CoreState.reset) = .next t ∧ t.core.fault = some r := ⟨_, _, rfl, rfl⟩

theorem witness_FrameOfConfigurationCommands :
    (∃ t, exec .nop (idle CoreState.reset) = .next t) ∧ (∃ t, exec .cbuild (idle CoreState.reset) = .next t) ∧
    ∃ t, exec .fbuild (idle CoreState.reset) = .next t := ⟨⟨_, rfl⟩, ⟨_, rfl⟩, ⟨_, rfl⟩⟩

theorem witness_FrameOfBufferCommands :
    ∀ i ∈ [Instr.qmod 0 0, .qdem 7 0, .oftx 0 7, .ofrx 7 7, .chest 1 1, .eq 2 2 2], ∃ t, exec i (idle CoreState.reset) = .next t :=
  fun i _ => ⟨_, exec_eq i _⟩

theorem witness_FrameOfXcorr : ∃ t, exec (.xcorr 7 0 1 2) (idle CoreState.reset) = .next t := ⟨_, rfl⟩

theorem witness_CommandsReadOnlyTheirStagingRegisters :
    sameStagingFor .cbuild Staging.reset { Staging.reset with nsc := 5, syncsel := 1 } ∧
    sameStagingFor .fbuild Staging.reset { Staging.reset with order := 5 } ∧
    sameStagingFor (.chest 0 0) Staging.reset { Staging.reset with order := 5 } ∧
    sameStagingFor (.xcorr 0 0 0 0) Staging.reset { Staging.reset with order := 5 } ∧
    ∃ t, exec .cbuild (idle CoreState.reset) = .next t :=
  ⟨rfl, ⟨rfl, rfl, rfl⟩, rfl, ⟨rfl, rfl, rfl⟩, _, rfl⟩

theorem witness_NopCommand :
    (idle CoreState.reset).core.fault = none ∧ (pendingState []).core.fault ≠ none ∧
    slice 0x00000100#32 7 0 = 0 ∧ slice 0x00000100#32 31 8 ≠ 0 ∧ slice 0x80000000#32 7 0 = 0 ∧ slice 0x80000000#32 31 8 ≠ 0 := by
  decide +kernel

/-- CORE from reset with a value in `ORDER`. -/
def staged (o : Word) : State := idle { CoreState.reset with staging := { Staging.reset with order := o } }

theorem witness_CbuildCommand :
    ((staged 2).core.fault = none ∧ (staged 2).core.staging.order.toNat = 2 ^ 1 ∧ Config.fitsOrder (2 ^ 1) = true) ∧
    ((staged 64).core.staging.order.toNat = 2 ^ 6 ∧ Config.fitsOrder (2 ^ 6) = true) ∧
    (staged 1).core.staging.order.toNat < 2 := by decide +kernel

/-- 3 is no power of two. -/
theorem witness_CbuildCommand_invalid : ∀ k, (staged 3).core.staging.order.toNat ≠ 2 ^ k := by
  intro k h
  have h3 : (staged 3).core.staging.order.toNat = 3 := rfl
  rw [h3] at h
  rcases k with _ | _ | k
  · simp at h
  · simp at h
  · have : 0 < 2 ^ k := Nat.two_pow_pos k
    rw [pow_succ, pow_succ] at h
    omega

theorem witness_CbuildCommand_capacity (h : Config.orderSlack = some 0) :
    (staged 128).core.staging.order.toNat = 2 ^ 7 ∧ Config.fitsOrder (2 ^ 7) = false :=
  ⟨rfl, fitsOrder_of_slack h (by norm_num)⟩

/-- CORE from reset with values in `NSC`, `NG` and `GTYPE`. -/
def stagedFrame (n g t : Word) : State :=
  idle { CoreState.reset with staging := { Staging.reset with nsc := n, ng := g, gtype := t } }

theorem witness_FbuildCommand :
    ((stagedFrame 1 1 2).core.fault = none ∧ (stagedFrame 1 1 2).core.staging.nsc.toNat ≠ 0 ∧
      (stagedFrame 1 1 2).core.staging.gtype.toNat ≤ 2 ∧
      (stagedFrame 1 1 2).core.staging.ng.toNat ≤ (stagedFrame 1 1 2).core.staging.nsc.toNat) ∧
    ((stagedFrame 1 9 0).core.staging.gtype.toNat = 0 ∧ (stagedFrame 1 9 0).core.staging.nsc.toNat ≠ 0) ∧
    (stagedFrame 0 9 7).core.staging.nsc.toNat = 0 ∧
    ((stagedFrame 1 9 3).core.staging.nsc.toNat ≠ 0 ∧ 2 < (stagedFrame 1 9 3).core.staging.gtype.toNat) ∧
    ((stagedFrame 4 5 1).core.staging.gtype.toNat = 1 ∧
      (stagedFrame 4 5 1).core.staging.nsc.toNat < (stagedFrame 4 5 1).core.staging.ng.toNat) ∧
    ((stagedFrame 4 5 2).core.staging.gtype.toNat = 2 ∧
      (stagedFrame 4 5 2).core.staging.nsc.toNat < (stagedFrame 4 5 2).core.staging.ng.toNat) := by decide +kernel

/-- The order 2, a single row: its values 0 and 1, and the rows and columns of its grid. -/
theorem witness_ConstellationGrid : (1 ≤ 1) ∧ 0 < yTicks (2 ^ 1) ∧ 1 < xTicks (2 ^ 1) ∧ (0 : Nat) < 2 ^ 1 ∧ (1 : Nat) < 2 ^ 1 := by
  decide +kernel

theorem witness_ConstellationPoints : (1 ≤ 1) ∧ (0 : Nat) < 2 ^ 1 ∧ (1 : Nat) < 2 ^ 1 ∧ (2 ≤ 2) ∧ 0 < 1 ∧ 1 < 2 := by decide

theorem witness_DecisionBorders : (1 ≤ 1) ∧ (1 ≤ 2) ∧ (1 ≤ 1) ∧ 1 < 2 := by decide

/-- On a border of the axis of two ticks, and on a single tick. -/
theorem witness_FloorSearch :
    (1 ≤ 1) ∧ (1 ≤ 2) ∧ Cx.zero.canonical = true ∧ Cx.zero.value = ((0 : ℝ) : ℂ) ∧ axisBorder 2 1 = 0 := by
  refine ⟨le_refl 1, by norm_num, canonical_zero, by simp, ?_⟩
  norm_num [axisBorder, axisCoord]

theorem witness_DecisionIsNearestPoint : (1 ≤ 1) ∧ Cx.zero.canonical = true ∧ 1 < 2 ^ 1 :=
  ⟨le_refl 1, canonical_zero, by norm_num⟩

theorem witness_QmodCommand :
    (let s := idle (withOrder 2 (bench (bits [1]) .none .none));
      s.core.fault = none ∧ s.core.constel = some ⟨2⟩ ∧ (2#32).toNat = 2 ^ 1 ∧ s.core.bufs[(0 : BufIdx)] = .bits [true] ∧
        [true].length % 1 = 0) ∧
    (let s := idle (withOrder 64 (bench (bits []) .none .none));
      s.core.constel = some ⟨64⟩ ∧ (64#32).toNat = 2 ^ 6 ∧ s.core.bufs[(0 : BufIdx)] = .bits [] ∧
        ([] : List Bool).length % 6 = 0) ∧
    (idle CoreState.reset).core.constel = none ∧
    (let s := idle (withOrder 4 (bench (bits [1]) .none .none));
      s.core.constel = some ⟨4⟩ ∧ (4#32).toNat = 2 ^ 2 ∧ s.core.bufs[(0 : BufIdx)] = .bits [true] ∧
        [true].length % 2 ≠ 0) := by decide +kernel

theorem witness_QmodCommand_badOperand :
    (idle (withOrder 2 CoreState.reset)).core.constel ≠ none ∧
      ∀ b, (idle (withOrder 2 CoreState.reset)).core.bufs[(0 : BufIdx)] ≠ .bits b :=
  ⟨by decide +kernel, none_is_no_bits _ _ (by decide +kernel)⟩

theorem witness_QdemCommand :
    let s := idle (withOrder 2 (bench (cx [(0, 0)]) .none .none))
    s.core.fault = none ∧ s.core.constel = some ⟨2⟩ ∧ (2#32).toNat = 2 ^ 1 ∧ s.core.bufs[(0 : BufIdx)] = .cplx [Cx.zero] ∧
      (∀ x ∈ [Cx.zero], x.canonical = true) ∧ Config.fitsCap ([Cx.zero].length * 1) = true ∧
      (idle CoreState.reset).core.constel = none := by decide +kernel

theorem witness_QdemCommand_badOperand :
    (idle (withOrder 2 CoreState.reset)).core.constel ≠ none ∧
      ∀ z, (idle (withOrder 2 CoreState.reset)).core.bufs[(7 : BufIdx)] ≠ .cplx z :=
  ⟨by decide +kernel, none_is_no_cplx _ _ (by decide +kernel)⟩

theorem witness_QdemCommand_capacity (h : Config.capSlack = some 0) :
    ∃ z, (idle (withOrder 2 (bench (.cplx z) .none .none))).core.bufs[(0 : BufIdx)] = .cplx z ∧
      Config.fitsCap (z.length * 1) = false :=
  ⟨List.replicate 65 Cx.zero, rfl, fitsCap_of_slack h (by simp)⟩

theorem witness_QamRoundTrip :
    let s := idle (withOrder 4 (bench (bits [1, 0]) .none .none))
    s.core.fault = none ∧ s.core.constel = some ⟨4⟩ ∧ (4#32).toNat = 2 ^ 2 ∧
      s.core.bufs[(0 : BufIdx)] = .bits [true, false] ∧ [true, false].length % 2 = 0 ∧
      Config.fitsCap [true, false].length = true := by decide +kernel

theorem witness_TransformsInvertEachOther : 1 ≤ 1 ∧ [Cx.one].length = 1 ∧ ∀ x ∈ [Cx.one], x.canonical = true := by
  decide +kernel

/-- A guard as long as the block, and a zero guard longer than it. -/
theorem witness_GuardInsertion :
    (let f : Frame := ⟨1, 1, .cyclicPrefix⟩;
      [Cx.one].length = f.nsc.toNat ∧ (f.gtype ≠ .zeroPad → f.ng.toNat ≤ f.nsc.toNat) ∧ 1 < f.nsc.toNat + f.ng.toNat) ∧
    (let f : Frame := ⟨1, 0, .cyclicSuffix⟩;
      [Cx.one].length = f.nsc.toNat ∧ (f.gtype ≠ .zeroPad → f.ng.toNat ≤ f.nsc.toNat) ∧ f.ng = 0) ∧
    (let f : Frame := ⟨1, 3, .zeroPad⟩;
      [Cx.one].length = f.nsc.toNat ∧ (f.gtype ≠ .zeroPad → f.ng.toNat ≤ f.nsc.toNat)) := by decide +kernel

theorem witness_GuardRemoval :
    (let f : Frame := ⟨1, 1, .cyclicPrefix⟩;
      (f.gtype ≠ .zeroPad → f.ng.toNat ≤ f.nsc.toNat) ∧ [Cx.one].length = f.nsc.toNat ∧
        [Cx.one, Cx.zero].length = f.nsc.toNat + f.ng.toNat ∧ 0 < f.nsc.toNat) ∧
    (let f : Frame := ⟨1, 1, .cyclicSuffix⟩;
      (f.gtype ≠ .zeroPad → f.ng.toNat ≤ f.nsc.toNat) ∧ [Cx.one].length = f.nsc.toNat ∧
        [Cx.one, Cx.zero].length = f.nsc.toNat + f.ng.toNat) := by decide +kernel

/-- One tone, one guard sample, one block. -/
theorem witness_OftxCommand :
    let s := idle (withFrame 1 1 .cyclicPrefix (bench (.cplx [Cx.one]) .none .none))
    s.core.fault = none ∧ s.core.frame = some ⟨1, 1, .cyclicPrefix⟩ ∧ (1#32).toNat ≠ 0 ∧ (1#32).toNat ≤ (1#32).toNat ∧
      s.core.bufs[(0 : BufIdx)] = .cplx [Cx.one] ∧ [Cx.one].length % (1#32).toNat = 0 ∧
      Config.fitsCap ([Cx.one].length / (1#32).toNat * ((1#32).toNat + (1#32).toNat)) = true ∧
      (idle CoreState.reset).core.frame = none := by decide +kernel

theorem witness_OftxCommand_badOperand :
    (idle (withFrame 1 1 .cyclicPrefix CoreState.reset)).core.frame ≠ none ∧
      ∀ z, (idle (withFrame 1 1 .cyclicPrefix CoreState.reset)).core.bufs[(0 : BufIdx)] ≠ .cplx z :=
  ⟨by decide +kernel, none_is_no_cplx _ _ (by decide +kernel)⟩

theorem witness_OftxCommand_misaligned :
    let s := idle (withFrame 2 0 .zeroPad (bench (.cplx [Cx.one]) .none .none))
    s.core.frame = some ⟨2, 0, .zeroPad⟩ ∧ s.core.bufs[(0 : BufIdx)] = .cplx [Cx.one] ∧
      [Cx.one].length % (2#32).toNat ≠ 0 := by decide +kernel

/-- One block whose zero guard fills the buffer. -/
theorem witness_OftxCommand_capacity (h : Config.capSlack = some 0) :
    let s := idle (withFrame 1 64 .zeroPad (bench (.cplx [Cx.one]) .none .none))
    s.core.frame = some ⟨1, 64, .zeroPad⟩ ∧ s.core.bufs[(0 : BufIdx)] = .cplx [Cx.one] ∧
      [Cx.one].length % (1#32).toNat = 0 ∧
      Config.fitsCap ([Cx.one].length / (1#32).toNat * ((1#32).toNat + (64#32).toNat)) = false :=
  ⟨rfl, by decide +kernel, by decide +kernel, fitsCap_of_slack h (by decide +kernel)⟩

theorem witness_OfrxCommand :
    let s := idle (withFrame 1 1 .cyclicSuffix (bench (.cplx [Cx.one, Cx.zero, Cx.one]) .none .none))
    s.core.fault = none ∧ s.core.frame = some ⟨1, 1, .cyclicSuffix⟩ ∧ (1#32).toNat ≠ 0 ∧
      s.core.bufs[(0 : BufIdx)] = .cplx [Cx.one, Cx.zero, Cx.one] ∧
      0 < [Cx.one, Cx.zero, Cx.one].length / ((1#32).toNat + (1#32).toNat) ∧
      (idle CoreState.reset).core.frame = none := by decide +kernel

theorem witness_OfrxCommand_badOperand :
    (idle (withFrame 1 1 .zeroPad CoreState.reset)).core.frame ≠ none ∧
      ∀ z, (idle (withFrame 1 1 .zeroPad CoreState.reset)).core.bufs[(0 : BufIdx)] ≠ .cplx z :=
  ⟨by decide +kernel, none_is_no_cplx _ _ (by decide +kernel)⟩

theorem witness_OfdmRoundTrip :
    let s := idle (withFrame 2 2 .cyclicPrefix (bench (.cplx [Cx.one, Cx.zero]) .none .none))
    s.core.fault = none ∧ s.core.frame = some ⟨2, 2, .cyclicPrefix⟩ ∧ (2#32).toNat ≠ 0 ∧ (2#32).toNat ≤ (2#32).toNat ∧
      s.core.bufs[(0 : BufIdx)] = .cplx [Cx.one, Cx.zero] ∧ (∀ x ∈ [Cx.one, Cx.zero], x.canonical = true) ∧
      [Cx.one, Cx.zero].length % (2#32).toNat = 0 ∧
      Config.fitsCap ([Cx.one, Cx.zero].length / (2#32).toNat * ((2#32).toNat + (2#32).toNat)) = true := by decide +kernel

/-- CORE with `ESTSEL` set. -/
def withEstsel (e : Word) (c : CoreState) : CoreState := { c with staging := { c.staging with estsel := e } }

theorem witness_ChestCommand :
    (let s := idle (withFrame 1 0 .zeroPad (bench (.cplx []) .none .none));
      s.core.fault = none ∧ s.core.bufs[(0 : BufIdx)] = .cplx [] ∧ s.core.staging.estsel = 0 ∧
        s.core.frame = some ⟨1, 0, .zeroPad⟩ ∧ Config.fitsCap (1#32).toNat = true ∧ 0 < (1#32).toNat) ∧
    (let s := idle (withEstsel 1 (bench (.cplx []) .none .none));
      s.core.bufs[(0 : BufIdx)] = .cplx [] ∧ s.core.staging.estsel = 1) ∧
    (let s := idle (withEstsel 2 (bench (.cplx []) .none .none));
      s.core.bufs[(0 : BufIdx)] = .cplx [] ∧ 1 < s.core.staging.estsel.toNat) ∧
    (let s := idle (bench (.cplx []) .none .none);
      s.core.bufs[(0 : BufIdx)] = .cplx [] ∧ s.core.staging.estsel = 0 ∧ s.core.frame = none) := by decide +kernel

theorem witness_ChestCommand_badOperand : ∀ d, (idle CoreState.reset).core.bufs[(7 : BufIdx)] ≠ .cplx d :=
  none_is_no_cplx _ _ (by decide +kernel)

theorem witness_ChestCommand_capacity (h : Config.capSlack = some 0) :
    let s := idle (withFrame 65 0 .zeroPad (bench (.cplx []) .none .none))
    s.core.bufs[(0 : BufIdx)] = .cplx [] ∧ s.core.staging.estsel = 0 ∧ s.core.frame = some ⟨65, 0, .zeroPad⟩ ∧
      Config.fitsCap (65#32).toNat = false :=
  ⟨by decide +kernel, rfl, rfl, fitsCap_of_slack h (by decide +kernel)⟩

/-- Two symbols, and the gain given, under two tones. -/
def eqState (z g : List Cx) : State := idle (withFrame 2 0 .zeroPad (bench (.cplx z) (.cplx g) .none))

theorem witness_EqCommand_scalar :
    let s := eqState [Cx.one] [Cx.one]
    s.core.fault = none ∧ s.core.bufs[(0 : BufIdx)] = .cplx [Cx.one] ∧ s.core.bufs[(1 : BufIdx)] = .cplx [Cx.one] ∧
      ([Cx.one] = [] ∨ Cx.one ≠ Cx.zero) := by decide +kernel

/-- Nothing to divide, by a gain of 0 (E6). -/
theorem witness_EqCommand_empty :
    let s := eqState [] [Cx.one, Cx.zero]
    s.core.bufs[(0 : BufIdx)] = .cplx [] ∧ s.core.bufs[(1 : BufIdx)] = .cplx [Cx.one, Cx.zero] ∧
      [Cx.one, Cx.zero].length ≠ 1 ∧ s.core.frame = some ⟨2, 0, .zeroPad⟩ ∧
      [Cx.one, Cx.zero].length = (2#32).toNat ∧ ([] : List Cx).length % (2#32).toNat = 0 ∧
      (([] : List Cx) = [] ∨ Cx.zero ∉ [Cx.one, Cx.zero]) := by decide +kernel

theorem witness_EqCommand_vector :
    let s := eqState [Cx.one, Cx.zero] [Cx.one, Cx.one]
    s.core.bufs[(0 : BufIdx)] = .cplx [Cx.one, Cx.zero] ∧ s.core.bufs[(1 : BufIdx)] = .cplx [Cx.one, Cx.one] ∧
      [Cx.one, Cx.one].length ≠ 1 ∧ s.core.frame = some ⟨2, 0, .zeroPad⟩ ∧
      [Cx.one, Cx.one].length = (2#32).toNat ∧ [Cx.one, Cx.zero].length % (2#32).toNat = 0 ∧
      ([Cx.one, Cx.zero] = [] ∨ Cx.zero ∉ [Cx.one, Cx.one]) := by decide +kernel

theorem witness_EqCommand_notConfigured :
    let s := idle (bench (.cplx []) (.cplx []) .none)
    s.core.bufs[(0 : BufIdx)] = .cplx [] ∧ s.core.bufs[(1 : BufIdx)] = .cplx [] ∧ ([] : List Cx).length ≠ 1 ∧
      s.core.frame = none := by decide +kernel

/-- Gains one shorter than the block would allow and one longer (E3, E7), and a symbol too many (E4). -/
theorem witness_EqCommand_dimension :
    (let s := eqState [] [];
      s.core.bufs[(0 : BufIdx)] = .cplx [] ∧ s.core.bufs[(1 : BufIdx)] = .cplx [] ∧ ([] : List Cx).length ≠ 1 ∧
        s.core.frame = some ⟨2, 0, .zeroPad⟩ ∧ ([] : List Cx).length ≠ (2#32).toNat) ∧
    (let s := eqState [] [Cx.one, Cx.one, Cx.one];
      s.core.bufs[(1 : BufIdx)] = .cplx [Cx.one, Cx.one, Cx.one] ∧ [Cx.one, Cx.one, Cx.one].length ≠ 1 ∧
        [Cx.one, Cx.one, Cx.one].length ≠ (2#32).toNat) ∧
    (let s := eqState [Cx.one, Cx.one, Cx.one] [Cx.one, Cx.one];
      s.core.bufs[(0 : BufIdx)] = .cplx [Cx.one, Cx.one, Cx.one] ∧ s.core.bufs[(1 : BufIdx)] = .cplx [Cx.one, Cx.one] ∧
        [Cx.one, Cx.one].length ≠ 1 ∧ s.core.frame = some ⟨2, 0, .zeroPad⟩ ∧
        [Cx.one, Cx.one].length = (2#32).toNat ∧ [Cx.one, Cx.one, Cx.one].length % (2#32).toNat ≠ 0) := by decide +kernel

/-- A zero gain: the scalar (E8), and the second of two (E5). -/
theorem witness_EqCommand_zeroGain :
    (let s := eqState [Cx.one] [Cx.zero];
      s.core.bufs[(0 : BufIdx)] = .cplx [Cx.one] ∧ s.core.bufs[(1 : BufIdx)] = .cplx [Cx.zero] ∧ [Cx.zero].length = 1 ∧
        [Cx.one] ≠ [] ∧ [Cx.zero][0]? = some Cx.zero ∧ ∀ j, j < 0 → [Cx.zero][j]? ≠ some Cx.zero) ∧
    (let s := eqState [Cx.one, Cx.one] [Cx.one, Cx.zero];
      s.core.bufs[(0 : BufIdx)] = .cplx [Cx.one, Cx.one] ∧ s.core.bufs[(1 : BufIdx)] = .cplx [Cx.one, Cx.zero] ∧
        s.core.frame = some ⟨2, 0, .zeroPad⟩ ∧ [Cx.one, Cx.zero].length = (2#32).toNat ∧
        [Cx.one, Cx.one].length % (2#32).toNat = 0 ∧ [Cx.one, Cx.one] ≠ [] ∧
        [Cx.one, Cx.zero][1]? = some Cx.zero ∧ ∀ j, j < 1 → [Cx.one, Cx.zero][j]? ≠ some Cx.zero) := by decide +kernel

theorem witness_EqCommand_badOperand :
    (∀ z, (idle CoreState.reset).core.bufs[(0 : BufIdx)] ≠ .cplx z) ∧
    (idle (bench (.cplx []) .none .none)).core.bufs[(0 : BufIdx)] = .cplx [] ∧
    ∀ g, (idle (bench (.cplx []) .none .none)).core.bufs[(1 : BufIdx)] ≠ .cplx g :=
  ⟨none_is_no_cplx _ _ (by decide +kernel), by decide +kernel, none_is_no_cplx _ _ (by decide +kernel)⟩

/-- A vector gain of two ones: the received symbols are both the products and the symbols themselves. -/
theorem witness_EqualizerInvertsGain :
    let s := eqState [Cx.one, Cx.zero] [Cx.one, Cx.one]
    s.core.fault = none ∧ (∀ x ∈ [Cx.one, Cx.zero], x.canonical = true) ∧
    (∀ h ∈ [Cx.one, Cx.one], h.canonical = true ∧ h ≠ Cx.zero) ∧ [Cx.one, Cx.one].length = 2 ∧
    (s.core.frame = some ⟨2, 0, .zeroPad⟩ ∧ 2 = (2#32).toNat ∧ 2 ≠ 0 ∧ [Cx.one, Cx.zero].length % 2 = 0) ∧
    s.core.bufs[(1 : BufIdx)] = .cplx [Cx.one, Cx.one] ∧
    s.core.bufs[(0 : BufIdx)] = .cplx ((List.range [Cx.one, Cx.zero].length).map
      fun (i : ℕ) => Cx.mul (elemAt [Cx.one, Cx.zero] i) (elemAt [Cx.one, Cx.one] (i % 2))) ∧
    s.core.bufs[(0 : BufIdx)] = .cplx [Cx.one, Cx.zero] ∧ ∀ h ∈ [Cx.one, Cx.one], h = Cx.one := by decide +kernel

theorem witness_RxChainIsDeframing :
    let s := idle (withFrame 1 1 .zeroPad (bench (.cplx [Cx.one, Cx.one]) .none .none))
    (s.core.fault = none ∧ s.core.frame = some ⟨1, 1, .zeroPad⟩ ∧ (1#32).toNat ≠ 0 ∧
      s.core.bufs[(0 : BufIdx)] = .cplx [Cx.one, Cx.one] ∧ s.core.staging.estsel.toNat ≤ 1 ∧
      Config.fitsCap (1#32).toNat = true ∧ (3 : BufIdx) ≠ 4) ∧ ∃ t, exec (.ofrx 5 0) s = .next t :=
  ⟨by decide +kernel, _, exec_eq _ _⟩

theorem witness_CorrelationSequence : 1 ≤ [Cx.one].length ∧ [Cx.one].length ≤ [Cx.one].length ∧
    0 < [Cx.one].length + [Cx.one].length - 1 := by decide

theorem witness_MatchedFilterIsCorrelation : 1 ≤ [Cx.one].length ∧ [Cx.one].length ≤ [Cx.one, Cx.zero].length ∧
    1 < [Cx.one, Cx.zero].length + [Cx.one].length - 1 := by decide

theorem witness_LeastGreatestMagnitude : 1 ≤ 1 ∧ 1 ≤ [Cx.zero].length := by decide

/-- Against a reference of a single 1 the correlation is the stream. -/
theorem correlation_with_one (rx : List Cx) (k : ℕ) : correlationValue (numbersOf rx) (numbersOf [Cx.one]) k = valueAt rx k := by
  have h1 : valueAt [Cx.one] 0 = 1 := by simp [valueAt, elemAt]
  by_cases h : k < rx.length
  · simp [correlationValue, streamValue, h1, h]
  · simp [correlationValue, streamValue, h, valueAt_of_le (not_lt.1 h)]

/-- The buffers of an `XCORR` with its staging registers. -/
def xcorrState (rx ref ev : List Cx) (sel f r : Word) : State :=
  idle { bench (.cplx rx) (.cplx ref) (.cplx ev) with
    staging := { Staging.reset with syncsel := sel, sflen := f, srows := r } }

/-- The peak of a stream and a reference of a single 1 is at 0. -/
theorem peak_of_one : IsPeak (correlationValue (numbersOf [Cx.one]) (numbersOf [Cx.one])) 1 0 ∧
    correlationValue (numbersOf [Cx.one]) (numbersOf [Cx.one]) 0 ≠ 0 := by
  refine ⟨⟨by norm_num, fun i hi => by rw [show i = 0 by omega], fun i hi => absurd hi (Nat.not_lt_zero i)⟩, ?_⟩
  rw [correlation_with_one]
  simp [valueAt, elemAt]

/-- Both strategies on a stream and a reference of a single 1. -/
theorem witness_XcorrCommand_completes :
    (let s := xcorrState [Cx.one] [Cx.one] [Cx.one] 0 0 0;
      s.core.fault = none ∧ s.core.bufs[(0 : BufIdx)] = .cplx [Cx.one] ∧ s.core.bufs[(1 : BufIdx)] = .cplx [Cx.one] ∧
        s.core.bufs[(2 : BufIdx)] = .cplx [Cx.one] ∧ s.core.staging.syncsel = 0 ∧ [Cx.one].length ≠ 0 ∧
        [Cx.one].length ≤ [Cx.one].length ∧
        IsPeak (correlationValue (numbersOf [Cx.one]) (numbersOf [Cx.one])) ([Cx.one].length + [Cx.one].length - 1) 0 ∧
        correlationValue (numbersOf [Cx.one]) (numbersOf [Cx.one]) 0 ≠ 0 ∧ -(2 ^ 31) ≤ ((0 : ℕ) : ℤ) - ([Cx.one].length : ℤ) ∧
        ((0 : ℕ) : ℤ) - ([Cx.one].length : ℤ) ≤ 2 ^ 31 - 1) ∧
    (let s := xcorrState [Cx.one] [Cx.one] [Cx.one] 1 1 1;
      s.core.bufs[(0 : BufIdx)] = .cplx [Cx.one] ∧ s.core.bufs[(1 : BufIdx)] = .cplx [Cx.one] ∧
        s.core.bufs[(2 : BufIdx)] = .cplx [Cx.one] ∧ s.core.staging.syncsel = 1 ∧
        s.core.staging.sflen.toNat ≠ 0 ∧ s.core.staging.srows.toNat ≠ 0 ∧
        s.core.staging.srows.toNat * s.core.staging.sflen.toNat ≤ [Cx.one].length + [Cx.one].length - 1 ∧
        IsPeak (correlationValue (numbersOf [Cx.one]) (numbersOf [Cx.one])) (s.core.staging.srows.toNat * s.core.staging.sflen.toNat) 0 ∧
        ((0 : ℕ) : ℤ) ≤ 2 ^ 31 - 1) :=
  ⟨⟨rfl, rfl, rfl, rfl, rfl, by decide, le_refl _, peak_of_one.1, peak_of_one.2, by norm_num, by norm_num⟩,
    ⟨rfl, rfl, rfl, rfl, by decide, by decide, by decide, peak_of_one.1, by norm_num⟩⟩

theorem witness_XcorrCommand_badOperand :
    (∀ z, (idle CoreState.reset).core.bufs[(0 : BufIdx)] ≠ .cplx z) ∧
    (∀ z, (idle (bench (.cplx []) .none .none)).core.bufs[(1 : BufIdx)] ≠ .cplx z) ∧
    (∀ z, (idle (bench (.cplx []) (.cplx []) .none)).core.bufs[(2 : BufIdx)] ≠ .cplx z) :=
  ⟨none_is_no_cplx _ _ (by decide +kernel), none_is_no_cplx _ _ (by decide +kernel),
    none_is_no_cplx _ _ (by decide +kernel)⟩

/-- The checks on lengths and staging registers, each at the value next to the one that passes. -/
theorem witness_XcorrCommand_checks :
    1 < (xcorrState [Cx.one] [Cx.one] [Cx.one] 2 0 0).core.staging.syncsel.toNat ∧
    ((xcorrState [Cx.one] [Cx.one] [] 1 0 0).core.staging.syncsel.toNat ≤ 1 ∧ ([] : List Cx).length ≠ 1) ∧
    ((xcorrState [Cx.one] [] [Cx.one] 1 0 0).core.staging.syncsel.toNat ≤ 1 ∧ [Cx.one].length = 1 ∧
      ([] : List Cx).length = 0) ∧
    ((xcorrState [Cx.one] [Cx.one, Cx.one] [Cx.one] 1 0 0).core.staging.syncsel.toNat ≤ 1 ∧
      [Cx.one, Cx.one].length ≠ 0 ∧ [Cx.one].length < [Cx.one, Cx.one].length) ∧
    ((xcorrState [Cx.one] [Cx.one] [Cx.one] 1 0 0).core.staging.syncsel = 1 ∧ [Cx.one].length ≠ 0 ∧
      [Cx.one].length ≤ [Cx.one].length ∧ (xcorrState [Cx.one] [Cx.one] [Cx.one] 1 0 0).core.staging.sflen = 0) ∧
    ((xcorrState [Cx.one] [Cx.one] [Cx.one] 1 1 0).core.staging.sflen ≠ 0 ∧
      (xcorrState [Cx.one] [Cx.one] [Cx.one] 1 1 0).core.staging.srows = 0) ∧
    [Cx.one].length + [Cx.one].length - 1 < (xcorrState [Cx.one] [Cx.one] [Cx.one] 1 1 2).core.staging.srows.toNat *
      (xcorrState [Cx.one] [Cx.one] [Cx.one] 1 1 2).core.staging.sflen.toNat := by decide +kernel

/-- The buffers of those states are the ones they are made of. -/
theorem xcorrState_buffers (rx ref ev : List Cx) (sel f r : Word) :
    (xcorrState rx ref ev sel f r).core.bufs[(0 : BufIdx)] = .cplx rx ∧
    (xcorrState rx ref ev sel f r).core.bufs[(1 : BufIdx)] = .cplx ref ∧
    (xcorrState rx ref ev sel f r).core.bufs[(2 : BufIdx)] = .cplx ev := ⟨rfl, rfl, rfl⟩

/-- Zeros correlate to 0 with anything. -/
theorem correlation_of_zeros (n : ℕ) (ref : List Cx) (k : ℕ) :
    correlationValue (numbersOf (List.replicate n Cx.zero)) (numbersOf ref) k = 0 := by
  apply Finset.sum_eq_zero
  intro m _
  have hz : ∀ i, streamValue (numbersOf (List.replicate n Cx.zero)) i = 0 := by
    intro i
    unfold streamValue
    split
    · rw [numberAt_numbersOf]
      simp only [valueAt, elemAt, List.getD_eq_getElem?_getD, List.getElem?_replicate]
      split <;> simp
    · rfl
  rw [hz, zero_mul]

/-- A stream of zeros has its peak at 0 with value 0: at an offset that fits, and at one below -2^31. -/
theorem witness_XcorrCommand_zeros (n : ℕ) (hn : 1 ≤ n) (ref : List Cx) (h1 : ref.length ≠ 0) (h2 : ref.length ≤ n) :
    IsPeak (correlationValue (numbersOf (List.replicate n Cx.zero)) (numbersOf ref))
      ((List.replicate n Cx.zero).length + ref.length - 1) 0 ∧
    correlationValue (numbersOf (List.replicate n Cx.zero)) (numbersOf ref) 0 = 0 ∧
    (n = 2 ^ 31 + 1 → ref.length = n → (0 : ℤ) - (ref.length : ℤ) < -(2 ^ 31)) := by
  refine ⟨⟨by simp; omega, fun i _ => ?_, fun i hi => absurd hi (Nat.not_lt_zero i)⟩, correlation_of_zeros _ _ _, ?_⟩
  · rw [correlation_of_zeros, correlation_of_zeros]
  · rintro rfl h; omega

/-- A single 1 at sample 2^31 of the stream has its peak there, at an offset above 2^31 - 1 by strategy 1. -/
theorem witness_XcorrCommand_far_peak :
    IsPeak (correlationValue (numbersOf (List.replicate (2 ^ 31) Cx.zero ++ [Cx.one])) (numbersOf [Cx.one]))
      ((0x80000001#32).toNat * (1#32).toNat) (2 ^ 31) ∧
    (0x80000001#32).toNat * (1#32).toNat ≤ (List.replicate (2 ^ 31) Cx.zero ++ [Cx.one]).length + [Cx.one].length - 1 ∧
    2 ^ 31 - 1 < ((2 ^ 31 : ℕ) : ℤ) - ((0 : ℕ) : ℤ) := by
  have hw : (0x80000001#32).toNat * (1#32).toNat = 2 ^ 31 + 1 := by decide
  have hlt : ∀ i, i < 2 ^ 31 → valueAt (List.replicate (2 ^ 31) Cx.zero ++ [Cx.one]) i = 0 := by
    intro i hi
    simp only [valueAt, elemAt, List.getD_eq_getElem?_getD]
    rw [List.getElem?_append_left (by rw [List.length_replicate]; exact hi), List.getElem?_replicate, if_pos hi]
    exact value_zero
  have hat : valueAt (List.replicate (2 ^ 31) Cx.zero ++ [Cx.one]) (2 ^ 31) = 1 := by
    simp only [valueAt, elemAt, List.getD_eq_getElem?_getD]
    rw [List.getElem?_append_right (by rw [List.length_replicate]), List.length_replicate, Nat.sub_self]
    exact value_one
  rw [hw]
  refine ⟨⟨by omega, fun i hi => ?_, fun i hi => ?_⟩, ?_, by norm_num⟩
  · rw [correlation_with_one, correlation_with_one, hat]
    rcases Nat.lt_or_ge i (2 ^ 31) with h | h
    · rw [hlt i h]; simp
    · rw [show i = 2 ^ 31 by omega, hat]
  · rw [correlation_with_one, correlation_with_one, hat, hlt i hi]; simp
  · rw [List.length_append, List.length_replicate]; simp

/-- A preamble of a single 1 at the start of a stream with no tail, for both strategies. -/
theorem witness_CleanPreamble :
    (∀ sel, (xcorrState [Cx.one] [Cx.one] [Cx.one] sel 1 1).core.fault = none ∧
      (xcorrState [Cx.one] [Cx.one] [Cx.one] sel 1 1).core.bufs[(0 : BufIdx)] = .cplx [Cx.one] ∧
      (xcorrState [Cx.one] [Cx.one] [Cx.one] sel 1 1).core.bufs[(1 : BufIdx)] = .cplx [Cx.one] ∧
      (xcorrState [Cx.one] [Cx.one] [Cx.one] sel 1 1).core.bufs[(2 : BufIdx)] = .cplx [Cx.one] ∧
      (xcorrState [Cx.one] [Cx.one] [Cx.one] sel 1 1).core.staging.syncsel = sel) ∧
    (List.replicate 0 Cx.zero ++ [Cx.one].map (Cx.mul Cx.one) ++ List.replicate 0 Cx.zero) = [Cx.one] ∧
    Cx.one.value ≠ 0 ∧ (∃ x ∈ [Cx.one], x.value ≠ 0) ∧ 0 ≤ 2 ^ 31 ∧ 0 + [Cx.one].length ≤ 2 ^ 31 ∧
    Cx.one.value = ((∑ m ∈ Finset.range [Cx.one].length, Complex.normSq (valueAt [Cx.one] m) : ℝ) : ℂ) ∧
    (1#32) ≠ 0 ∧ (1#32).toNat * (1#32).toNat ≤ 0 + [Cx.one].length + 0 + [Cx.one].length - 1 ∧
    0 + [Cx.one].length - 1 < (1#32).toNat * (1#32).toNat :=
  ⟨fun _ => ⟨rfl, rfl, rfl, rfl, rfl⟩, by decide +kernel, by simp, ⟨Cx.one, by simp, by simp⟩, by simp, by simp,
    by simp [valueAt, elemAt], by decide, by decide, by decide⟩

theorem witness_StatusWordFields :
    CoreState.reset.fault = none ∧
      ∀ cause : Cause, ({ CoreState.reset with fault := some ⟨cause, 1, 0⟩ } : CoreState).fault = some ⟨cause, 1, 0⟩ :=
  ⟨rfl, fun _ => rfl⟩

theorem witness_ControlRegister :
    ((3#32).getLsbD 1 = true) ∧ ((1#32).getLsbD 1 = false ∧ (1#32).getLsbD 0 = true) ∧
    ((0xFFFFFFFC#32).getLsbD 1 = false ∧ (0xFFFFFFFC#32).getLsbD 0 = false) ∧
    (scripted CoreState.reset [.csrWrite 2 3]).script = .csrWrite 2 3 :: [] := by decide +kernel

theorem witness_ClearFault :
    ((1#32).getLsbD 0 = true ∧ (1#32).getLsbD 1 = false) ∧
    (pendingState [.csrWrite 2 1, .csrWrite 0 0]).script = .csrWrite 2 1 :: .csrWrite 0 0 :: [] ∧
    (scripted CoreState.reset [.csrWrite 2 1, .csrWrite 0 0]).core.fault = none ∧ decode 0#32 = .ok .nop := by decide +kernel

theorem witness_StagingRegisters :
    (∀ j ∈ [8, 9, 10, 11, 12, 13, 14, 15], 8 ≤ j ∧ j ≤ 15 ∧
      (scripted CoreState.reset [.csrWrite j 3]).script = .csrWrite j 3 :: []) ∧ 15 ≠ 8 ∧
    ∃ t, exec .nop (idle CoreState.reset) = .next t := ⟨by decide +kernel, by decide, _, rfl⟩

theorem witness_ReservedAndReadOnlyRegisters :
    (21 ≤ 31 ∧ 31 ≤ 31) ∧ 48 ≤ 65536 ∧ (3 ≤ 7 ∧ 7 ≤ 7) ∧ (16 ≤ 65535 ∧ 65535 ≤ 65535) ∧
    (scripted CoreState.reset [.csrRead 65536]).script = .csrRead 65536 :: [] ∧
    (scripted CoreState.reset [.csrWrite 1 3]).script = .csrWrite 1 3 :: [] ∧
    (scripted CoreState.reset [.csrWrite 65535 3]).script = .csrWrite 65535 3 :: [] := by decide +kernel

theorem witness_ViewRegisters :
    CoreState.reset.fault = none ∧ (pendingState []).core.fault = some ⟨.invalidOrder, 1, 0⟩ ∧
    CoreState.reset.constel = none ∧ CoreState.reset.frame = none ∧ CoreState.reset.bufs[(7 : BufIdx)] = .none ∧
    ((withOrder 2 CoreState.reset).constel = some ⟨2⟩ ∧ (2#32).toNat = 2 ^ 1) ∧
    (withFrame 1 1 .cyclicPrefix CoreState.reset).frame = some ⟨1, 1, .cyclicPrefix⟩ ∧
    (withFrame 1 1 .cyclicSuffix CoreState.reset).frame = some ⟨1, 1, .cyclicSuffix⟩ ∧
    (withFrame 1 1 .zeroPad CoreState.reset).frame = some ⟨1, 1, .zeroPad⟩ ∧
    (bench (bits []) (cx []) .none).bufs[(0 : BufIdx)] = .bits [] ∧
    (bench (bits []) (cx []) .none).bufs[(1 : BufIdx)] = .cplx [] := by decide +kernel

theorem witness_HostBufferWrite :
    (scripted CoreState.reset [.bufWrite 7 (bits [])]).script = .bufWrite 7 (.bits []) :: [] ∧
    (Buffer.bits [] ≠ .none ∧ Config.fitsCap (Buffer.bits []).len = true ∧ (Buffer.bits []).numbers = true) ∧
    (scripted CoreState.reset [.bufWrite 7 .none]).script = .bufWrite 7 .none :: [] ∧
    (Buffer.cplx [⟨[⟨1 / 2, 1⟩]⟩] ≠ .none ∧ Config.fitsCap (Buffer.cplx [⟨[⟨1 / 2, 1⟩]⟩]).len = true ∧
      (Buffer.cplx [⟨[⟨1 / 2, 1⟩]⟩]).numbers = false) := by decide +kernel

theorem witness_HostBufferWrite_tooMany (h : Config.capSlack = some 0) :
    Buffer.bits (List.replicate 65 false) ≠ .none ∧ Config.fitsCap (Buffer.bits (List.replicate 65 false)).len = false :=
  ⟨by decide, fitsCap_of_slack h (by simp [Buffer.len])⟩

theorem witness_HostBufferRead :
    (scripted CoreState.reset [.bufRead 0]).script = .bufRead 0 :: [] ∧
    (scripted CoreState.reset [.bufRead 0]).core.bufs[(0 : BufIdx)] = .none := by decide +kernel

theorem witness_SoftReset :
    let s := scripted (withOrder 2 CoreState.reset) [.csrWrite 2 2]
    (2#32).getLsbD 1 = true ∧ s.script = .csrWrite 2 2 :: [] ∧
      { s with script := .resetInput :: [] } = scripted (withOrder 2 CoreState.reset) [.resetInput] := by decide +kernel

/-- A reset that invalidates both halves and a buffer. -/
theorem witness_OnlyResetInvalidates :
    let s := scripted (withFrame 1 0 .zeroPad (withOrder 2 (bench (bits []) .none .none))) [.resetInput]
    s.script = .resetInput :: [] ∧ s.core.constel ≠ none ∧ s.core.frame ≠ none ∧ s.core.bufs[(0 : BufIdx)] ≠ .none ∧
      (∃ t, step s = .next t ∧ t.core.constel = none ∧ t.core.frame = none ∧ t.core.bufs[(0 : BufIdx)] = .none) ∧
      (idle CoreState.reset).script = [] :=
  ⟨rfl, by decide +kernel, by decide +kernel, by decide +kernel, ⟨_, rfl, rfl, rfl, rfl⟩, rfl⟩

/-- The invariant holds with both halves latched, a cyclic guard as long as the block and a complex buffer. -/
theorem witness_StepKeepsInvariant :
    (withFrame 1 1 .cyclicPrefix (withOrder 2 (CoreState.reset.writeBuf 0 (.cplx [Cx.one])))).Inv ∧
    ∃ t, step (scripted (withFrame 1 1 .cyclicPrefix (withOrder 2 (CoreState.reset.writeBuf 0 (.cplx [Cx.one]))))
      [.csrWrite 0 0x00000920#32]) = .next t := by
  refine ⟨⟨?_, ?_, ?_, ?_, by simp [withFrame, withOrder], by simp [withFrame, withOrder]⟩, _, rfl⟩
  · intro b
    apply fitsCap_of_le_64
    revert b
    decide +kernel
  · intro b
    revert b
    decide +kernel
  · rintro k ⟨⟩
    exact ⟨1, le_refl 1, rfl, fitsOrder_of_le_64 (by norm_num)⟩
  · rintro f ⟨⟩
    exact ⟨by decide, fun _ => le_refl _⟩

/-! The reference machine (R9): a number no element stands for -/

/-- The host writes pi and reads it back (R62, R63). -/
theorem test_reference_holds_pi :
    refAnswer (.bufRead 0) (refPerform (.bufWrite 0 (.cplx [(Real.pi : ℂ)])) RefCore.reset) =
      .content (.cplx [(Real.pi : ℂ)]) := by
  simp [refPerform, refAnswer, RefCore.writeBuf]

/-- `EQ` of pi by a scalar gain of 2 gives pi / 2 (R164). -/
theorem test_reference_divides_pi :
    let c := (RefCore.reset.writeBuf 0 (.cplx [(Real.pi : ℂ)])).writeBuf 1 (.cplx [2])
    (refExec (.eq 2 0 1) c).bufs[(2 : BufIdx)] = .cplx [(Real.pi : ℂ) / 2] := by
  simp [refExec, RefCore.carryOut, refRule, refEq, RefCore.sourceCplx, RefCore.writeBuf, RefCore.done, RefCore.reset,
    CoreState.toRef, CoreState.reset, refRequireGain, quotients, numberAt, pure_ok]

end Sys2Proof.Tests
end

/-! Family 00_scope: elements and the complex numbers they stand for (R9), and the model's number format (R12). -/

namespace Sys2Proof.Machine

/-! The formulas of R9 in Mathlib's terms -/

theorem conj_eq_re_sub_im (z : ℂ) : (starRingEnd ℂ) z = (z.re : ℂ) - (z.im : ℂ) * Complex.I := by
  apply Complex.ext <;> simp

theorem abs2Value_eq_normSq (z : ℂ) : abs2Value z = Complex.normSq z := (Complex.normSq_apply z).symm

theorem turnPoint_eq_cisValue (r : ℚ) : turnPoint r = cisValue (2 * Real.pi * r) := by
  have angle : 2 * (Real.pi : ℂ) * Complex.I * (r : ℂ) = ((2 * Real.pi * (r : ℝ) : ℝ) : ℂ) * Complex.I := by
    push_cast; ring
  rw [turnPoint, angle, Complex.exp_ofReal_mul_I, cisValue]

/-! Canonical elements among the complex numbers -/

theorem eq_iff_value_eq {x y : Cx} (hx : x.canonical = true) (hy : y.canonical = true) :
    x = y ↔ x.value = y.value :=
  ⟨congrArg Cx.value, eq_of_value_eq hx hy⟩

/-- The elements with rational parts are already dense, each part approached by itself. -/
theorem exists_canonical_near (z : ℂ) {ε : ℝ} (hε : 0 < ε) : ∃ x : Cx, x.canonical = true ∧ ‖x.value - z‖ < ε := by
  obtain ⟨a, ha⟩ := exists_rat_near z.re (half_pos hε)
  obtain ⟨b, hb⟩ := exists_rat_near z.im (half_pos hε)
  rw [abs_sub_comm] at ha hb
  refine ⟨Cx.ofParts a b, canonical_ofParts a b, ?_⟩
  calc ‖(Cx.ofParts a b).value - z‖
      ≤ |((Cx.ofParts a b).value - z).re| + |((Cx.ofParts a b).value - z).im| := Complex.norm_le_abs_re_add_abs_im _
    _ = |(a : ℝ) - z.re| + |(b : ℝ) - z.im| := by simp
    _ < ε := by linarith

/-! The format of the model (R12) -/

theorem mem_elementFormat {r : ℝ} :
    r ∈ elementFormat.representable ↔ ∃ z : Cx, z.canonical = true ∧ z.value = (r : ℂ) := Iff.rfl

theorem rat_mem_elementFormat (q : ℚ) : (q : ℝ) ∈ elementFormat.representable :=
  mem_elementFormat.2 ⟨Cx.ofRat q, canonical_ofRat q, by simp⟩

theorem elementFormat_rnd_of_mem {r : ℝ} (h : r ∈ elementFormat.representable) : elementFormat.rnd r = r :=
  if_pos (mem_elementFormat.1 h)

theorem elementFormat_rnd_of_not_mem {r : ℝ} (h : r ∉ elementFormat.representable) : elementFormat.rnd r = 0 :=
  if_neg (mt mem_elementFormat.2 h)

theorem elementFormat_valid : elementFormat.Valid where
  zero_mem := by simpa using rat_mem_elementFormat 0
  one_mem := by simpa using rat_mem_elementFormat 1
  neg_one_mem := by simpa using rat_mem_elementFormat (-1)
  rnd_mem r := by
    by_cases h : r ∈ elementFormat.representable
    · rwa [elementFormat_rnd_of_mem h]
    · rw [elementFormat_rnd_of_not_mem h]
      simpa using rat_mem_elementFormat 0
  rnd_of_mem _ h := elementFormat_rnd_of_mem h
  tol_nonneg := le_rfl

theorem elementFormat_holds {x : Cx} (hx : x.canonical = true) : elementFormat.Holds x.value :=
  ⟨mem_elementFormat.2 ⟨x.re, canonical_re hx, value_re x⟩, mem_elementFormat.2 ⟨x.im, canonical_im x, value_im x⟩⟩

/-- What the format holds conforms to itself: the distance is 0, within any tolerance that is no negative number. -/
theorem NumFormat.Valid.conforms_self {f : NumFormat} (hf : f.Valid) {z : ℂ} (hz : f.Holds z) : f.Conforms z z := by
  have bound : 0 ≤ f.tol * max 1 ‖z‖ := mul_nonneg hf.tol_nonneg (zero_le_one.trans (le_max_left 1 _))
  exact ⟨hz, by simpa using bound, by simpa using bound⟩

end Sys2Proof.Machine

namespace Sys2Proof

open Machine

/-- Settles O60: the laws of the exact arithmetic (values, canonical form, uniqueness, order), the density of the rational
points and the format of the model, put together. -/
theorem elementsAreComplexNumbers : Obligations.ElementsAreComplexNumbers := by
  unfold Obligations.ElementsAreComplexNumbers
  refine ⟨fun x y => ⟨value_add x y, value_mul x y, ?conj, value_re x, value_im x, ?abs2, fun _ => value_div x y⟩,
    fun r => ⟨canonical_cis r, ?cis⟩, fun a b => ⟨canonical_ofParts a b, value_ofParts a b⟩,
    fun x y hx hy => ⟨canonical_add hx hy, canonical_mul x y, canonical_conj x, canonical_re hx, canonical_im x,
      canonical_abs2 x, canonical_div x y, eq_iff_value_eq hx hy, fun _ _ hr hs => le_iff hx hy hr hs⟩,
    fun z _ hε => exists_canonical_near z hε, elementFormat_valid,
    fun _ hx => elementFormat_valid.conforms_self (elementFormat_holds hx)⟩
  case conj => rw [value_conj, conj_eq_re_sub_im]
  case abs2 => rw [value_abs2, abs2Value_eq_normSq]
  case cis => rw [value_cis, turnPoint_eq_cisValue]

end Sys2Proof

/-! Family 10_state: what a step does with each event, what a command can do to CORE, the registers (R30 to R41), the
constellation tables (R46 to R49) and the invariant. -/

namespace Sys2Proof.Machine

/-! The step, event by event -/

theorem answer_eq {s : State} {e : HostEvent} {rest : List HostEvent} (h : s.script = e :: rest) (r : HostReply) :
    s.answer r = { core := s.core, script := rest, replies := s.replies ++ [r] } := by
  simp [State.answer, h]

theorem step_csrRead {s : State} {i : ℕ} {rest : List HostEvent} (h : s.script = .csrRead i :: rest) :
    step s = .next { core := s.core, script := rest, replies := s.replies ++ [.value (s.core.readIndex i)] } := by
  rw [step_cons h, perform, answer_eq h]

theorem step_bufRead {s : State} {b : BufIdx} {rest : List HostEvent} (h : s.script = .bufRead b :: rest) :
    step s = .next { core := s.core, script := rest, replies := s.replies ++ [.content s.core.bufs[b]] } := by
  rw [step_cons h, perform, answer_eq h]

theorem step_resetInput {s : State} {rest : List HostEvent} (h : s.script = .resetInput :: rest) :
    step s = .next { core := CoreState.reset, script := rest, replies := s.replies ++ [.completed] } := by
  rw [step_cons h, perform, answer_eq h]

theorem step_bufWrite {s : State} {b : BufIdx} {d : Buffer} {rest : List HostEvent}
    (h : s.script = .bufWrite b d :: rest) :
    step s = hostBufWrite b d { core := s.core, script := rest, replies := s.replies ++ [.completed] } := by
  rw [step_cons h, perform, answer_eq h]

/-- A write to `CMD` issues its word (R31). -/
theorem step_command {s : State} {w : Word} {rest : List HostEvent} (h : s.script = .csrWrite 0 w :: rest) :
    step s = issue w { core := s.core, script := rest, replies := s.replies ++ [.completed] } := by
  rw [step_cons h, perform, answer_eq h]
  exact if_pos rfl

/-- A write to any other index is a register write (R61). -/
theorem step_csrWrite {s : State} {i : ℕ} {w : Word} {rest : List HostEvent} (h : s.script = .csrWrite i w :: rest)
    (hi : i ≠ 0) :
    step s = .next { core := s.core.writeIndex i w, script := rest, replies := s.replies ++ [.completed] } := by
  rw [step_cons h, perform, answer_eq h]
  exact if_neg hi

/-- A buffer write that gives a next state handed over a transaction's content, and wrote it (R62). -/
theorem step_bufWrite_next {s t : State} {b : BufIdx} {d : Buffer} {rest : List HostEvent}
    (h : s.script = .bufWrite b d :: rest) (ht : step s = .next t) :
    hostWriteProblem d = none ∧ t.core = s.core.writeBuf b d := by
  rw [step_bufWrite h] at ht
  rcases hostBufWrite_cases b d { core := s.core, script := rest, replies := s.replies ++ [.completed] } with
    ⟨hd, hw⟩ | ⟨r, -, hw⟩ <;> rw [hw] at ht <;> cases ht
  exact ⟨hd, rfl⟩

/-! What a command can do to CORE -/

/-- Everything a command can do: it is refused, completes, or faults (R205 to R208). -/
theorem exec_cases {i : Instr} {s t : State} (h : exec i s = .next t) :
    (s.core.fault ≠ none ∧ t = s) ∨
    (∃ c, s.core.fault = none ∧ ruleOf i s.core = .ok c ∧ t = { s with core := c.done }) ∨
    (∃ r, s.core.fault = none ∧ ruleOf i s.core = .error r ∧ t = { s with core := s.core.raise (encode i) r }) := by
  rw [exec_eq] at h
  cases h
  rcases carryOut_cases s.core (encode i) (ruleOf i) with ⟨r, hf, hc⟩ | ⟨c, hf, hr, hc⟩ | ⟨r, hf, hr, hc⟩ <;> rw [hc]
  · exact .inl ⟨by simp [hf], rfl⟩
  · exact .inr (.inl ⟨c, hf, hr, rfl⟩)
  · exact .inr (.inr ⟨r, hf, hr, rfl⟩)

/-- Everything a word written to `CMD` can do: it is refused, executed, or illegal (R31, R86, R208). -/
theorem issue_cases {w : Word} {s t : State} (h : issue w s = .next t) :
    (s.core.fault ≠ none ∧ t = s) ∨
    (∃ i, s.core.fault = none ∧ decode w = .ok i ∧ exec i s = .next t) ∨
    (∃ e, s.core.fault = none ∧ decode w = .error e ∧ t = s.faulted w .illegalCommand w) := by
  cases hf : s.core.fault with
  | some r =>
    rw [issue_refused hf] at h
    cases h
    exact .inl ⟨by simp, rfl⟩
  | none =>
    cases hd : decode w with
    | ok i => exact .inr (.inl ⟨i, rfl, rfl, issue_decoded hf hd ▸ h⟩)
    | error e =>
      rw [issue_illegal hf hd] at h
      cases h
      exact .inr (.inr ⟨e, rfl, rfl, rfl⟩)

/-- The buffer a command writes whose one effect it is: `QMOD`, `QDEM`, `OFTX`, `OFRX`, `CHEST` and `EQ`. -/
def soleBuffer : Instr → Option BufIdx
  | .nop | .cbuild | .fbuild | .xcorr _ _ _ _ => none
  | .qmod rd _ | .qdem rd _ | .oftx rd _ | .ofrx rd _ | .chest rd _ | .eq rd _ _ => some rd

/-- Everything a rule can write: nothing, the half it builds, one buffer, or a buffer with the offset (R23, R69). -/
theorem ruleOf_ok_cases {i : Instr} {c c' : CoreState} (h : ruleOf i c = .ok c') :
    (i = .nop ∧ c' = c) ∨
    (i = .cbuild ∧ ∃ k, c' = { c with constel := some k }) ∨
    (i = .fbuild ∧ ∃ f, c' = { c with frame := some f }) ∨
    (∃ rd d, soleBuffer i = some rd ∧ c' = c.writeBuf rd d) ∨
    (∃ rd rs1 rs2 rs3 d o, i = .xcorr rd rs1 rs2 rs3 ∧ c' = { c.writeBuf rd d with syncoff := o, svalid := true }) := by
  cases i with
  | nop => exact .inl ⟨rfl, nopRule_ok h⟩
  | cbuild =>
    obtain ⟨-, -, hc⟩ := cbuildRule_ok h
    exact .inr (.inl ⟨rfl, _, hc⟩)
  | fbuild =>
    obtain ⟨-, -, -, hc⟩ := fbuildRule_ok h
    exact .inr (.inr (.inl ⟨rfl, _, hc⟩))
  | qmod rd rs1 =>
    obtain ⟨_, _, -, -, -, hc⟩ := qmodRule_ok h
    exact .inr (.inr (.inr (.inl ⟨rd, _, rfl, hc⟩)))
  | qdem rd rs1 =>
    obtain ⟨_, _, -, -, -, hc⟩ := qdemRule_ok h
    exact .inr (.inr (.inr (.inl ⟨rd, _, rfl, hc⟩)))
  | oftx rd rs1 =>
    obtain ⟨_, _, -, -, -, -, hc⟩ := oftxRule_ok h
    exact .inr (.inr (.inr (.inl ⟨rd, _, rfl, hc⟩)))
  | ofrx rd rs1 =>
    obtain ⟨_, _, -, -, hc⟩ := ofrxRule_ok h
    exact .inr (.inr (.inr (.inl ⟨rd, _, rfl, hc⟩)))
  | chest rd rs1 =>
    obtain ⟨-, ⟨-, _, -, -, hc⟩ | ⟨-, hc⟩⟩ := chestRule_ok h <;> exact .inr (.inr (.inr (.inl ⟨rd, _, rfl, hc⟩)))
  | eq rd rs1 rs2 =>
    obtain ⟨_, _, -, -, -, ⟨-, hc⟩ | ⟨-, _, -, -, -, hc⟩⟩ := eqRule_ok h <;>
      exact .inr (.inr (.inr (.inl ⟨rd, _, rfl, hc⟩)))
  | xcorr rd rs1 rs2 rs3 =>
    obtain ⟨_, _, _, _, -, -, -, -, -, -, -, -, -, -, hc⟩ := xcorrRule_ok h
    exact .inr (.inr (.inr (.inr ⟨rd, rs1, rs2, rs3, _, _, rfl, hc⟩)))

theorem ruleOf_soleBuffer {i : Instr} {rd : BufIdx} {c c' : CoreState} (hi : soleBuffer i = some rd)
    (h : ruleOf i c = .ok c') : ∃ d, c' = c.writeBuf rd d := by
  rcases ruleOf_ok_cases h with ⟨rfl, -⟩ | ⟨rfl, -⟩ | ⟨rfl, -⟩ | ⟨rd', d, hrd, hc⟩ | ⟨_, _, _, _, _, _, rfl, -⟩
  case inr.inr.inr.inl =>
    cases hi.symm.trans hrd
    exact ⟨d, hc⟩
  all_goals cases hi

/-- No rule writes a staging register, the fault record or `CSEQ` (R69, R206). -/
theorem ruleOf_ok_frame {i : Instr} {c c' : CoreState} (h : ruleOf i c = .ok c') :
    c'.staging = c.staging ∧ c'.fault = c.fault ∧ c'.cseq = c.cseq := by
  rcases ruleOf_ok_cases h with ⟨-, rfl⟩ | ⟨-, _, rfl⟩ | ⟨-, _, rfl⟩ | ⟨_, _, -, rfl⟩ | ⟨_, _, _, _, _, _, -, rfl⟩ <;>
    exact ⟨rfl, rfl, rfl⟩

theorem exec_staging {i : Instr} {s t : State} (h : exec i s = .next t) : t.core.staging = s.core.staging := by
  rcases exec_cases h with ⟨-, rfl⟩ | ⟨c, -, hr, rfl⟩ | ⟨r, -, -, rfl⟩
  · rfl
  · exact (ruleOf_ok_frame hr).1
  · rfl

/-- `CSEQ` counts a command that leaves no fault recorded, and no other (R33, R206). -/
theorem exec_cseq {i : Instr} {s t : State} (h : exec i s = .next t) :
    t.core.cseq = if t.core.fault = none then s.core.cseq + 1 else s.core.cseq := by
  rcases exec_cases h with ⟨hf, rfl⟩ | ⟨c, hf, hr, rfl⟩ | ⟨r, -, -, rfl⟩
  · simp [hf]
  · obtain ⟨-, hfault, hcseq⟩ := ruleOf_ok_frame hr
    simp [hfault, hcseq, hf]
  · simp

theorem issue_cseq {w : Word} {s t : State} (h : issue w s = .next t) :
    t.core.cseq = if t.core.fault = none then s.core.cseq + 1 else s.core.cseq := by
  rcases issue_cases h with ⟨hf, rfl⟩ | ⟨i, -, -, he⟩ | ⟨e, -, -, rfl⟩
  · simp [hf]
  · exact exec_cseq he
  · simp [State.faulted]

/-- While a fault is recorded a word written to `CMD` changes nothing (R208). -/
theorem issue_of_fault {w : Word} {s t : State} (h : issue w s = .next t) (hf : s.core.fault ≠ none) : t = s := by
  obtain ⟨r, hr⟩ := Option.ne_none_iff_exists'.1 hf
  rw [issue_refused hr] at h
  cases h
  rfl

/-- A register write other than one that resets leaves `CSEQ` (R33, R35, R36). -/
theorem writeIndex_cseq (c : CoreState) {i : ℕ} {w : Word} (h : i = 2 → w.getLsbD 1 = false) :
    (c.writeIndex i w).cseq = c.cseq := by
  unfold CoreState.writeIndex
  cases hr : Csr.ofIndex i with
  | none => rfl
  | some r =>
    rcases writeCsr_cases c w r with ⟨rfl, hw, -⟩ | ⟨-, hc⟩ | ⟨g, hc⟩
    · exact absurd hw (by rw [h (index_ofIndex hr).symm]; decide)
    · simp [hc]
    · simp [hc]

/-! The causes a command records (R204) -/

/-- Every fault of the outcome has its cause among those listed. -/
def RaisesOnly {α : Type} (causes : List Cause) (x : Except Raise α) : Prop := ∀ r, x = .error r → r.cause ∈ causes

section

variable {α β : Type} {causes : List Cause}

theorem RaisesOnly.ok (a : α) : RaisesOnly causes (.ok a) := fun _ h => nomatch h

theorem RaisesOnly.bind {x : Except Raise α} {f : α → Except Raise β} (hx : RaisesOnly causes x)
    (hf : ∀ a, RaisesOnly causes (f a)) : RaisesOnly causes (x >>= f) := by
  intro r h
  rcases bind_error_iff.1 h with h | ⟨a, -, h⟩
  · exact hx r h
  · exact hf a r h

theorem RaisesOnly.ite {p : Prop} [Decidable p] {x y : Except Raise α} (hx : RaisesOnly causes x)
    (hy : RaisesOnly causes y) : RaisesOnly causes (if p then x else y) := by
  split
  · exact hx
  · exact hy

theorem RaisesOnly.require {p : Prop} [Decidable p] {r : Raise} (h : r.cause ∈ causes := by simp [mayRaise]) :
    RaisesOnly causes (require p r) := by
  intro e he
  obtain ⟨-, rfl⟩ := require_error_iff.1 he
  exact h

theorem RaisesOnly.sourceBits {c : CoreState} {n : ℕ} {b : BufIdx} (h : .badOperand ∈ causes := by simp [mayRaise]) :
    RaisesOnly causes (c.sourceBits n b) := by
  intro r hr
  obtain ⟨-, rfl⟩ := sourceBits_error_iff.1 hr
  exact h

theorem RaisesOnly.sourceCplx {c : CoreState} {n : ℕ} {b : BufIdx} (h : .badOperand ∈ causes := by simp [mayRaise]) :
    RaisesOnly causes (c.sourceCplx n b) := by
  intro r hr
  obtain ⟨-, rfl⟩ := sourceCplx_error_iff.1 hr
  exact h

theorem RaisesOnly.needOrder {c : CoreState} (h : .notConfigured ∈ causes := by simp [mayRaise]) :
    RaisesOnly causes c.needOrder := by
  intro r hr
  obtain ⟨-, rfl⟩ := needOrder_error_iff.1 hr
  exact h

theorem RaisesOnly.needFrame {c : CoreState} (h : .notConfigured ∈ causes := by simp [mayRaise]) :
    RaisesOnly causes c.needFrame := by
  intro r hr
  obtain ⟨-, rfl⟩ := needFrame_error_iff.1 hr
  exact h

theorem RaisesOnly.requireGain {z g : List Cx} (h : .divideByZero ∈ causes := by simp [mayRaise]) :
    RaisesOnly causes (requireGain z g) := by
  unfold Machine.requireGain
  split
  · exact .require h
  · exact .ok ()

theorem RaisesOnly.searchPeak {g : Staging} {c : List Cx} {m : ℕ} (h : .invalidParameter ∈ causes := by simp [mayRaise]) :
    RaisesOnly causes (searchPeak g c m) :=
  .ite (.ok _) (.bind (.require h) fun _ => .bind (.require h) fun _ => .ok _)

end

/-- A rule raises only the causes its column of the table allows (R204). -/
theorem ruleOf_raisesOnly (i : Instr) (c : CoreState) : RaisesOnly (mayRaise i) (ruleOf i c) := by
  cases i with
  | nop => exact .ok c
  | cbuild => exact .bind .require fun _ => .bind .require fun _ => .ok _
  | fbuild => exact .bind .require fun _ => .bind .require fun _ => .bind .require fun _ => .ok _
  | qmod rd rs1 => exact .bind .needOrder fun _ => .bind .sourceBits fun _ => .bind .require fun _ => .ok _
  | qdem rd rs1 => exact .bind .needOrder fun _ => .bind .sourceCplx fun _ => .bind .require fun _ => .ok _
  | oftx rd rs1 =>
    exact .bind .needFrame fun _ => .bind .sourceCplx fun _ => .bind .require fun _ => .bind .require fun _ => .ok _
  | ofrx rd rs1 => exact .bind .needFrame fun _ => .bind .sourceCplx fun _ => .ok _
  | chest rd rs1 =>
    exact .bind .sourceCplx fun _ => .bind .require fun _ =>
      .ite (.bind .needFrame fun _ => .bind .require fun _ => .ok _) (.ok _)
  | eq rd rs1 rs2 =>
    exact .bind .sourceCplx fun _ => .bind .sourceCplx fun _ =>
      .ite (.bind .requireGain fun _ => .ok _)
        (.bind .needFrame fun _ => .bind .require fun _ => .bind .require fun _ => .bind .requireGain fun _ => .ok _)
  | xcorr rd rs1 rs2 rs3 =>
    exact .bind .sourceCplx fun _ => .bind .sourceCplx fun _ => .bind .sourceCplx fun _ =>
      .bind .require fun _ => .bind .require fun _ => .bind .require fun _ => .bind .require fun _ =>
      .bind .searchPeak fun _ => .bind .require fun _ => .bind .require fun _ => .ok _

/-- No command records `UnsupportedLayout` (R128). -/
theorem ruleOf_error_cause {i : Instr} {c : CoreState} {r : Raise} (h : ruleOf i c = .error r) :
    r.cause ≠ .unsupportedLayout := by
  have absent : .unsupportedLayout ∉ mayRaise i := by cases i <;> simp [mayRaise]
  intro hr
  exact absent (hr ▸ ruleOf_raisesOnly i c r h)

/-! The invariant -/

theorem inv_reset : CoreState.reset.Inv where
  lengths b := by simp [Buffer.len, fitsCap_of_le_64]
  numbers b := by simp [Buffer.numbers]
  order k hk := by simp at hk
  frame f hf := by simp at hf
  offset _ := rfl
  causes r hr := by simp at hr

namespace CoreState.Inv

variable {c : CoreState}

theorem withFault (h : c.Inv) {f : Option FaultRecord} (hf : ∀ r, f = some r → r.cause ≠ .unsupportedLayout) :
    CoreState.Inv { c with fault := f } :=
  { h with causes := hf }

theorem clearFault (h : c.Inv) : c.clearFault.Inv := h.withFault fun _ hr => nomatch hr

theorem raise (h : c.Inv) {r : Raise} (hr : r.cause ≠ .unsupportedLayout) (w : Word) : (c.raise w r).Inv :=
  h.withFault fun _ e => by cases e; exact hr

theorem withStaging (h : c.Inv) (g : Staging) : CoreState.Inv { c with staging := g } := { h with }

theorem done (h : c.Inv) : c.done.Inv := { h with }

theorem withOffset (h : c.Inv) (o : Word) : CoreState.Inv { c with syncoff := o, svalid := true } :=
  { h with offset := fun e => nomatch e }

/-- A buffer written with numbers that fit (R21, R25). -/
theorem writeBuf (h : c.Inv) (b : BufIdx) {d : Buffer} (hl : Config.fitsCap d.len = true) (hn : d.numbers = true) :
    (c.writeBuf b d).Inv :=
  { h with
    lengths := fun b' => by
      rw [show (c.writeBuf b d).bufs[b'] = if b = b' then d else c.bufs[b'] from c.writeBuf_get b b' d]
      split
      · exact hl
      · exact h.lengths b'
    numbers := fun b' => by
      rw [show (c.writeBuf b d).bufs[b'] = if b = b' then d else c.bufs[b'] from c.writeBuf_get b b' d]
      split
      · exact hn
      · exact h.numbers b' }

theorem writeCplx (h : c.Inv) (b : BufIdx) {zs : List Cx} (hl : Config.fitsCap zs.length = true)
    (hn : ∀ z ∈ zs, z.canonical = true) : (c.writeBuf b (.cplx zs)).Inv :=
  h.writeBuf b hl (List.all_eq_true.2 hn)

theorem source_fits (h : c.Inv) {b : BufIdx} {d : Buffer} (hb : c.bufs[b] = d) {n : ℕ} (hn : n ≤ d.len) :
    Config.fitsCap n = true :=
  fitsCap_mono hn (hb ▸ h.lengths b)

theorem cbuild (h : c.Inv) {o : Word} (h2 : 2 ≤ o.toNat) (hp : isPowerOfTwo o.toNat = true)
    (hf : Config.fitsOrder o.toNat = true) : CoreState.Inv { c with constel := some ⟨o⟩ } := by
  obtain ⟨n, hn⟩ := isPowerOfTwo_iff.1 hp
  have n_pos : 1 ≤ n := by
    rcases Nat.eq_zero_or_pos n with rfl | hpos
    · omega
    · exact hpos
  exact { h with order := fun k hk => by cases hk; exact ⟨n, n_pos, hn, hn ▸ hf⟩ }

theorem fbuild (h : c.Inv) {n g : Word} {t : ℕ} (hn : n.toNat ≠ 0) (ht : t ≤ 2)
    (hg : ¬((t = 1 ∨ t = 2) ∧ n.toNat < g.toNat)) : CoreState.Inv { c with frame := some ⟨n, g, guardOfCode t⟩ } := by
  have n_ne : n ≠ 0 := by rintro rfl; exact hn rfl
  have guard_le : guardOfCode t ≠ .zeroPad → g.toNat ≤ n.toNat := by
    intro hz
    have t_ne : t ≠ 0 := by rintro rfl; exact hz rfl
    omega
  exact { h with frame := fun f hf => by cases hf; exact ⟨n_ne, guard_le⟩ }

end CoreState.Inv

theorem canonical_equalized (n : ℕ) (z g : List Cx) : ∀ x ∈ equalized n z g, x.canonical = true := by
  intro x hx
  obtain ⟨i, -, rfl⟩ := List.mem_map.1 hx
  exact canonical_div _ _

theorem equalized_length (n : ℕ) (z g : List Cx) : (equalized n z g).length = z.length := by simp [equalized]

/-- Every rule writes numbers that fit, and latches legal parameters (R21, R25, R104, R108). -/
theorem ruleOf_keeps_inv {i : Instr} {c c' : CoreState} (hc : c.Inv) (h : ruleOf i c = .ok c') : c'.Inv := by
  cases i with
  | nop => exact nopRule_ok h ▸ hc
  | cbuild =>
    obtain ⟨⟨h2, hp⟩, hf, rfl⟩ := cbuildRule_ok h
    exact hc.cbuild h2 hp hf
  | fbuild =>
    obtain ⟨hn, ht, hg, rfl⟩ := fbuildRule_ok h
    exact hc.fbuild hn ht hg
  | qmod rd rs1 =>
    obtain ⟨k, b, -, hb, -, rfl⟩ := qmodRule_ok h
    refine hc.writeCplx rd (hc.source_fits hb ?_) (canonical_modulate _ _)
    rw [modulate_length]
    exact Nat.div_le_self _ _
  | qdem rd rs1 =>
    obtain ⟨k, z, -, -, hl, rfl⟩ := qdemRule_ok h
    exact hc.writeBuf rd (by rwa [Buffer.len, demodulate_length]) rfl
  | oftx rd rs1 =>
    obtain ⟨f, xs, hf, -, -, hl, rfl⟩ := oftxRule_ok h
    exact hc.writeCplx rd (by rwa [framed_length xs (hc.frame f hf).2]) (canonical_framed f xs)
  | ofrx rd rs1 =>
    obtain ⟨f, ys, -, hb, rfl⟩ := ofrxRule_ok h
    refine hc.writeCplx rd (hc.source_fits hb ?_) (canonical_deframed f ys)
    calc (deframed f ys).length = ys.length / f.block * f.size := deframed_length f ys
      _ ≤ ys.length / f.block * f.block := Nat.mul_le_mul_left _ (Nat.le_add_right _ _)
      _ ≤ ys.length := Nat.div_mul_le_self _ _
  | chest rd rs1 =>
    obtain ⟨-, ⟨-, f, -, hl, rfl⟩ | ⟨-, rfl⟩⟩ := chestRule_ok h
    · refine hc.writeCplx rd (by rwa [List.length_replicate]) fun z hz => ?_
      rw [List.eq_of_mem_replicate hz]
      exact canonical_ofRat 1
    · exact hc.writeCplx rd (fitsCap_of_le_64 (by simp)) (by simp [Cx.one])
  | eq rd rs1 rs2 =>
    obtain ⟨z, g, hb, -, -, ⟨-, rfl⟩ | ⟨-, f, -, -, -, rfl⟩⟩ := eqRule_ok h <;>
      exact hc.writeCplx rd (hc.source_fits hb (equalized_length _ z g).le) (canonical_equalized _ z g)
  | xcorr rd rs1 rs2 rs3 =>
    obtain ⟨rx, ref, ev, pk, -, -, -, -, -, -, -, -, -, -, rfl⟩ := xcorrRule_ok h
    exact (hc.writeCplx rd (fitsCap_of_le_64 (by simp)) (by simp)).withOffset _

theorem exec_keeps_inv {i : Instr} {s t : State} (hs : s.core.Inv) (h : exec i s = .next t) : t.core.Inv := by
  rcases exec_cases h with ⟨-, rfl⟩ | ⟨c, -, hr, rfl⟩ | ⟨r, -, hr, rfl⟩
  · exact hs
  · exact (ruleOf_keeps_inv hs hr).done
  · exact hs.raise (ruleOf_error_cause hr) _

theorem issue_keeps_inv {w : Word} {s t : State} (hs : s.core.Inv) (h : issue w s = .next t) : t.core.Inv := by
  rcases issue_cases h with ⟨-, rfl⟩ | ⟨i, -, -, he⟩ | ⟨e, -, -, rfl⟩
  · exact hs
  · exact exec_keeps_inv hs he
  · exact hs.withFault fun r hr => by cases hr; simp

theorem writeIndex_keeps_inv {c : CoreState} (hc : c.Inv) (i : ℕ) (w : Word) : (c.writeIndex i w).Inv := by
  unfold CoreState.writeIndex
  split
  · rename_i r _
    rcases writeCsr_cases c w r with ⟨-, -, e⟩ | ⟨-, e⟩ | ⟨g, e⟩ <;> rw [e]
    · exact inv_reset
    · exact hc.clearFault
    · exact hc.withStaging g
  · exact hc

/-! Independence from staging registers (R36) -/

/-- CORE with other values in its staging registers. -/
def CoreState.withStaging (c : CoreState) (g : Staging) : CoreState := { c with staging := g }

theorem searchPeak_congr {g h : Staging} (hs : g.syncsel = h.syncsel) (hf : g.sflen = h.sflen) (hr : g.srows = h.srows)
    (cs : List Cx) (m : ℕ) : searchPeak g cs m = searchPeak h cs m := by
  unfold searchPeak
  rw [hs, hf, hr]

/-- A rule gives the same with other values in the staging registers it does not read, which it leaves as they are. -/
theorem ruleOf_withStaging {i : Instr} {c : CoreState} {g : Staging} (h : sameStagingFor i c.staging g) :
    ruleOf i (c.withStaging g) = (ruleOf i c).map fun c' => c'.withStaging g := by
  cases i with
  | nop => rfl
  | cbuild =>
    have ho : (c.withStaging g).staging.order = c.staging.order := h.symm
    simp only [ruleOf, cbuildRule, outcome_map_bind, ho]
    rfl
  | fbuild =>
    obtain ⟨hn, hg, ht⟩ := h
    have hn : (c.withStaging g).staging.nsc = c.staging.nsc := hn.symm
    have hg : (c.withStaging g).staging.ng = c.staging.ng := hg.symm
    have ht : (c.withStaging g).staging.gtype = c.staging.gtype := ht.symm
    simp only [ruleOf, fbuildRule, outcome_map_bind, hn, hg, ht]
    rfl
  | qmod rd rs1 =>
    simp only [ruleOf, qmodRule, outcome_map_bind]
    rfl
  | qdem rd rs1 =>
    simp only [ruleOf, qdemRule, outcome_map_bind]
    rfl
  | oftx rd rs1 =>
    simp only [ruleOf, oftxRule, outcome_map_bind]
    rfl
  | ofrx rd rs1 =>
    simp only [ruleOf, ofrxRule, outcome_map_bind]
    rfl
  | chest rd rs1 =>
    have he : (c.withStaging g).staging.estsel = c.staging.estsel := Eq.symm h
    simp only [ruleOf, chestRule, outcome_map_bind, he, apply_ite (Except.map _)]
    rfl
  | eq rd rs1 rs2 =>
    simp only [ruleOf, eqRule, outcome_map_bind, apply_ite (Except.map _)]
    rfl
  | xcorr rd rs1 rs2 rs3 =>
    obtain ⟨hs, hf, hr⟩ := h
    have hs' : (c.withStaging g).staging.syncsel = c.staging.syncsel := hs.symm
    have hp := searchPeak_congr (g := (c.withStaging g).staging) hs.symm hf.symm hr.symm
    simp only [ruleOf, xcorrRule, outcome_map_bind, hs', hp]
    rfl

theorem carryOut_withStaging {c : CoreState} {rule : Rule} {g : Staging}
    (h : rule (c.withStaging g) = (rule c).map fun c' => c'.withStaging g) (w : Word) :
    (c.withStaging g).carryOut w rule = (c.carryOut w rule).withStaging g := by
  have fault_eq : (c.withStaging g).fault = c.fault := rfl
  rcases carryOut_cases c w rule with ⟨r, hf, hc⟩ | ⟨c', hf, hr, hc⟩ | ⟨r, hf, hr, hc⟩ <;> rw [hc]
  · exact carryOut_refused (fault_eq.trans hf) w rule
  · rw [hr] at h
    exact carryOut_ok (fault_eq.trans hf) h w
  · rw [hr] at h
    exact carryOut_error (fault_eq.trans hf) h w

/-! The registers (R30 to R41) -/

/-- A write to a reserved index or to a read-only register is ignored (R40). -/
theorem writeIndex_ignored (c : CoreState) {i : ℕ} (w : Word) (h : i = 1 ∨ (3 ≤ i ∧ i ≤ 7) ∨ 16 ≤ i) :
    c.writeIndex i w = c := by
  unfold CoreState.writeIndex
  cases hr : Csr.ofIndex i with
  | none => rfl
  | some r =>
    have hi := index_ofIndex hr
    cases r
    case ctrl | order | nsc | ng | gtype | estsel | syncsel | sflen | srows =>
      simp only [Csr.index] at hi
      omega
    all_goals rfl

/-- A reserved index and a write-only register read 0 (R40). -/
theorem readIndex_unreadable (c : CoreState) {i : ℕ} (h : i = 0 ∨ i = 2 ∨ i = 7 ∨ (21 ≤ i ∧ i ≤ 31) ∨ 48 ≤ i) :
    c.readIndex i = 0 := by
  rcases h with rfl | rfl | h
  · exact readIndex_index c .cmd
  · exact readIndex_index c .ctrl
  · rw [CoreState.readIndex, (ofIndex_none_iff i).2 h]

theorem writeIndex_ctrl_reset (c : CoreState) {w : Word} (h1 : w.getLsbD 1 = true) :
    c.writeIndex 2 w = CoreState.reset :=
  (writeIndex_index c .ctrl w).trans (if_pos h1)

theorem writeIndex_ctrl_clearFault (c : CoreState) {w : Word} (h1 : w.getLsbD 1 = false) (h0 : w.getLsbD 0 = true) :
    c.writeIndex 2 w = c.clearFault := by
  rw [show c.writeIndex 2 w = c.writeCtrl w from writeIndex_index c .ctrl w, CoreState.writeCtrl, h1, h0]
  rfl

theorem writeIndex_ctrl_ignored (c : CoreState) {w : Word} (h1 : w.getLsbD 1 = false) (h0 : w.getLsbD 0 = false) :
    c.writeIndex 2 w = c := by
  rw [show c.writeIndex 2 w = c.writeCtrl w from writeIndex_index c .ctrl w, CoreState.writeCtrl, h1, h0]
  rfl

/-- A write to a staging index changes the staging registers only (R36). -/
theorem writeIndex_staging_only (c : CoreState) {j : ℕ} (w : Word) (h8 : 8 ≤ j) (h15 : j ≤ 15) :
    ∃ g, c.writeIndex j w = { c with staging := g } := by
  interval_cases j <;> exact ⟨_, rfl⟩

theorem readIndex_writeIndex_staging (c : CoreState) {j : ℕ} (w : Word) (h8 : 8 ≤ j) (h15 : j ≤ 15) :
    (c.writeIndex j w).readIndex j = w := by
  interval_cases j <;> rfl

theorem readIndex_writeIndex_other_staging (c : CoreState) {j m : ℕ} (w : Word) (hj8 : 8 ≤ j) (hj15 : j ≤ 15)
    (hm8 : 8 ≤ m) (hm15 : m ≤ 15) (hmj : m ≠ j) : (c.writeIndex j w).readIndex m = c.readIndex m := by
  interval_cases j <;> interval_cases m
  any_goals rfl
  all_goals exact absurd rfl hmj

/-! `STATUS` (R34) -/

theorem Cause.code_le (k : Cause) : k.code ≤ 21 := by cases k <;> decide

theorem causeCode_le (c : CoreState) : c.causeCode ≤ 21 := by
  unfold CoreState.causeCode
  cases c.fault with
  | none => exact Nat.zero_le 21
  | some r => exact r.cause.code_le

/-- `STATUS` as a number: its fields at their places. -/
theorem readIndex_status_toNat (c : CoreState) :
    (c.readIndex 1).toNat = c.fault.isSome.toNat + 2 * c.constel.isSome.toNat + 4 * c.frame.isSome.toNat
      + 8 * c.svalid.toNat + 256 * c.causeCode := by
  have cause_le := causeCode_le c
  have fault_le := Bool.toNat_le c.fault.isSome
  have constel_le := Bool.toNat_le c.constel.isSome
  have frame_le := Bool.toNat_le c.frame.isSome
  have svalid_le := Bool.toNat_le c.svalid
  rw [show c.readIndex 1 = c.statusWord from readIndex_index c .status, CoreState.statusWord, BitVec.toNat_ofNat,
    CoreState.faultFlag]
  omega

/-- A bit of a word, by arithmetic on the number the word is. -/
theorem getLsbD_eq_of_toNat {w : Word} {k : ℕ} {b : Bool} (h : w.toNat / 2 ^ k % 2 = b.toNat) : w.getLsbD k = b := by
  rw [BitVec.getLsbD, Nat.testBit_eq_decide_div_mod_eq, h]
  cases b <;> rfl

/-! The views of the buffers (R39) and the registers after reset (R55) -/

theorem readIndex_bkind (c : CoreState) (b : BufIdx) :
    c.readIndex (32 + 2 * b.val) = BitVec.ofNat 32 c.bufs[b].kindCode :=
  readIndex_index c (.bkind b)

theorem readIndex_blen_toNat (c : CoreState) (b : BufIdx) :
    (c.readIndex (33 + 2 * b.val)).toNat = min c.bufs[b].len (2 ^ 32 - 1) := by
  have e : c.readIndex (33 + 2 * b.val) = BitVec.ofNat 32 (min c.bufs[b].len (2 ^ 32 - 1)) :=
    readIndex_index c (.blen b)
  rw [e, BitVec.toNat_ofNat]
  omega

theorem readIndex_reset (i : ℕ) : CoreState.reset.readIndex i = 0 := by
  unfold CoreState.readIndex
  cases Csr.ofIndex i with
  | none => rfl
  | some r =>
    cases r with
    | bkind b => simp [CoreState.readCsr, Buffer.kindCode]
    | blen b => simp [CoreState.readCsr, Buffer.len]
    | _ => rfl

/-! The constellation tables (R46 to R49) -/

theorem rowsOf_eq_one_iff {k : ℕ} (hk : 1 ≤ k) : rowsOf k = 1 ↔ k = 1 := by
  rw [rowsOf, Nat.pow_eq_one]
  omega

theorem gridValue_two_pow (k r c : ℕ) : gridValue (2 ^ k) r c = r * columnsOf k + c := by
  rw [gridValue, xTicks_two_pow]

theorem gridValue_mod {k c : ℕ} (r : ℕ) (hc : c < columnsOf k) : gridValue (2 ^ k) r c % columnsOf k = c := by
  rw [gridValue_two_pow, Nat.mul_add_mod_of_lt hc]

theorem gridValue_div {k c : ℕ} (r : ℕ) (hc : c < columnsOf k) : gridValue (2 ^ k) r c / columnsOf k = r := by
  rw [gridValue_two_pow, mul_comm, Nat.mul_add_div (columnsOf_pos k), Nat.div_eq_of_lt hc, add_zero]

theorem gridValue_lt {k r c : ℕ} (hr : r < rowsOf k) (hc : c < columnsOf k) : gridValue (2 ^ k) r c < 2 ^ k := by
  have rows_first : gridValue (2 ^ k) r c < rowsOf k * columnsOf k := by
    rwa [← Nat.div_lt_iff_lt_mul (columnsOf_pos k), gridValue_div r hc]
  rwa [mul_comm, columnsOf_mul_rowsOf] at rows_first

theorem strictMono_axisCoord {n : ℕ} (hn : 2 ≤ n) : StrictMono (axisCoord n) := by
  intro i j hij
  have width_pos : (0 : ℝ) < (n : ℝ) - 1 := by
    have : (2 : ℝ) ≤ n := by exact_mod_cast hn
    linarith
  have hij : (i : ℝ) < j := by exact_mod_cast hij
  rw [axisCoord_of_two_le hn, axisCoord_of_two_le hn]
  gcongr

/-- Different ticks of an axis have different coordinates. -/
theorem axisCoord_inj {n i j : ℕ} (hi : i < n) (hj : j < n) (h : axisCoord n i = axisCoord n j) : i = j := by
  by_cases hn : 2 ≤ n
  · exact (strictMono_axisCoord hn).injective h
  · omega

theorem axisCoord_first {n : ℕ} (hn : 2 ≤ n) : axisCoord n 0 = -1 := by simp [axisCoord_of_two_le hn]

theorem axisCoord_last {n : ℕ} (hn : 2 ≤ n) : axisCoord n (n - 1) = 1 := by
  have width_ne : (n : ℝ) - 1 ≠ 0 := by
    have : (2 : ℝ) ≤ n := by exact_mod_cast hn
    linarith
  rw [axisCoord_of_two_le hn, Nat.cast_sub (by omega), Nat.cast_one, mul_div_assoc, div_self width_ne]
  norm_num

/-- Different values have different points: the real part tells the column, the imaginary part the row. -/
theorem symbolPoint_inj {k u v : ℕ} (hu : u < 2 ^ k) (hv : v < 2 ^ k) (h : symbolPoint k u = symbolPoint k v) :
    u = v := by
  have row_lt : ∀ {w}, w < 2 ^ k → w / columnsOf k < rowsOf k := fun hw =>
    Nat.div_lt_of_lt_mul (by rwa [columnsOf_mul_rowsOf])
  have column : u % columnsOf k = v % columnsOf k := by
    have hre := congrArg Complex.re h
    rw [re_symbolPoint, re_symbolPoint] at hre
    exact axisCoord_inj (Nat.mod_lt _ (columnsOf_pos k)) (Nat.mod_lt _ (columnsOf_pos k)) hre
  have row : u / columnsOf k = v / columnsOf k := by
    have him := congrArg Complex.im h
    rw [im_symbolPoint, im_symbolPoint] at him
    exact axisCoord_inj (row_lt hu) (row_lt hv) him
  rw [← Nat.div_add_mod u (columnsOf k), ← Nat.div_add_mod v (columnsOf k), column, row]

theorem borders_getElem? {n k : ℕ} (hk : k < n) :
    (borders n)[k]? = some (if k = 0 then none else some ((coord n (k - 1) + coord n k) / 2)) := by
  simp [borders, hk]

theorem border_cast (n k : ℕ) : (((coord n (k - 1) + coord n k) / 2 : ℚ) : ℝ) = axisBorder n k := by
  rw [axisBorder, ← coord_cast, ← coord_cast]
  push_cast
  rfl

end Sys2Proof.Machine

namespace Sys2Proof

open Machine

/-- Settles O59, event by event: what a command writes fits and is made of numbers, a register write resets, clears the
fault or changes staging, and the host hands over only what fits. -/
theorem stepKeepsInvariant : Obligations.StepKeepsInvariant := by
  unfold Obligations.StepKeepsInvariant
  intro s t hs ht
  cases hscript : s.script with
  | nil =>
    rw [step_nil hscript] at ht
    cases ht
    exact hs
  | cons e rest =>
    cases e with
    | csrRead i =>
      rw [step_csrRead hscript] at ht
      cases ht
      exact hs
    | csrWrite i w =>
      by_cases hi : i = 0
      · subst hi
        rw [step_command hscript] at ht
        exact issue_keeps_inv (s := { core := s.core, script := rest, replies := s.replies ++ [.completed] }) hs ht
      · rw [step_csrWrite hscript hi] at ht
        cases ht
        exact writeIndex_keeps_inv hs i w
    | bufRead b =>
      rw [step_bufRead hscript] at ht
      cases ht
      exact hs
    | bufWrite b d =>
      obtain ⟨hd, hcore⟩ := step_bufWrite_next hscript ht
      obtain ⟨-, hl, hn⟩ := (hostWriteProblem_none_iff d).1 hd
      exact hcore ▸ hs.writeBuf b hl hn
    | resetInput =>
      rw [step_resetInput hscript] at ht
      cases ht
      exact inv_reset

/-- Settles O11, event by event. -/
theorem cseqCountsCompletions : Obligations.CseqCountsCompletions := by
  unfold Obligations.CseqCountsCompletions
  intro s t e rest hs ht
  refine ⟨readIndex_index _ .cseq, ?completed, ?refused, ?faulted, ?csrWrite, ?csrRead, ?bufRead, ?bufWrite, ?reset⟩
  case completed =>
    rintro w rfl - hf
    rw [step_command hs] at ht
    rw [issue_cseq ht, if_pos hf]
  case refused =>
    rintro w rfl hf
    rw [step_command hs] at ht
    rw [issue_of_fault ht hf]
  case faulted =>
    rintro w rfl hf
    rw [step_command hs] at ht
    rw [issue_cseq ht, if_neg hf]
  case csrWrite =>
    rintro i w rfl hi hw
    rw [step_csrWrite hs hi] at ht
    cases ht
    exact writeIndex_cseq s.core hw
  case csrRead =>
    rintro i rfl
    rw [step_csrRead hs] at ht
    cases ht
    rfl
  case bufRead =>
    rintro b rfl
    rw [step_bufRead hs] at ht
    cases ht
    rfl
  case bufWrite =>
    rintro b d rfl
    rw [(step_bufWrite_next hs ht).2, CoreState.writeBuf_cseq]
  case reset =>
    rintro (rfl | ⟨w, rfl, hw⟩)
    · rw [step_resetInput hs] at ht
      cases ht
      rfl
    · rw [step_csrWrite hs (by decide)] at ht
      cases ht
      rw [writeIndex_ctrl_reset _ hw, CoreState.reset_cseq]

/-- Settles O16: the rules of these commands write the buffer `rd` alone (`ruleOf_soleBuffer`), and a fault writes its
record. -/
theorem frameOfBufferCommands : Obligations.FrameOfBufferCommands := by
  unfold Obligations.FrameOfBufferCommands
  intro i rd rs1 rs2 s t hi ht
  have hrd : soleBuffer i = some rd := by rcases hi with rfl | rfl | rfl | rfl | rfl | rfl <;> rfl
  rcases exec_cases ht with ⟨-, rfl⟩ | ⟨c, -, hr, rfl⟩ | ⟨r, -, -, rfl⟩
  · exact ⟨fun _ _ => rfl, rfl, rfl, rfl, rfl, rfl, .inl rfl, rfl, rfl⟩
  · obtain ⟨d, rfl⟩ := ruleOf_soleBuffer hrd hr
    exact ⟨fun b hb => CoreState.writeBuf_get_other _ hb.symm _, rfl, rfl, rfl, rfl, rfl, .inl rfl, rfl, rfl⟩
  · exact ⟨fun _ _ => rfl, rfl, rfl, rfl, rfl, rfl, .inr ⟨rfl, rfl⟩, rfl, rfl⟩

/-- Settles O18: the rule gives the same but for the registers (`ruleOf_withStaging`), and so does carrying it out. -/
theorem commandsReadOnlyTheirStagingRegisters : Obligations.CommandsReadOnlyTheirStagingRegisters := by
  unfold Obligations.CommandsReadOnlyTheirStagingRegisters
  intro i s t g hg ht
  rw [exec_eq] at ht ⊢
  cases ht
  exact congrArg (fun c => Host.Outcome.next { s with core := c }) (carryOut_withStaging (ruleOf_withStaging hg) _)

/-- Settles O22 by the dimensions of the grid, and by the column and the row that a value of the grid has. -/
theorem constellationGrid : Obligations.ConstellationGrid := by
  unfold Obligations.ConstellationGrid
  intro k hk
  rw [xTicks_two_pow, yTicks_two_pow]
  refine ⟨bpsOf_two_pow k, rfl, columnsOf_eq k, columnsOf_mul_rowsOf k, two_le_columnsOf hk, rowsOf_eq_one_iff hk,
    fun r c hr hc => ⟨gridValue_two_pow k r c, gridValue_lt hr hc, ?_⟩⟩
  rw [value_point, symbolPoint, gridValue_mod r hc, gridValue_div r hc]

/-- Settles O23: a point is R47's number (`value_point`), and its coordinates tell its value (`symbolPoint_inj`). -/
theorem constellationPoints : Obligations.ConstellationPoints := by
  unfold Obligations.ConstellationPoints
  intro k _
  have two_columns : columnsOf 1 = 2 := rfl
  have one_row : rowsOf 1 = 1 := rfl
  refine ⟨fun v _ => value_point k v, fun u v hu hv h => symbolPoint_inj hu hv ?inj,
    fun n i j hn hij _ => strictMono_axisCoord hn hij, fun n hn => ⟨axisCoord_first hn, axisCoord_last hn⟩, if_pos rfl,
    (value_point 1 0).trans ?first, (value_point 1 1).trans ?second⟩
  case inj => rw [← value_point, ← value_point, h]
  case first => norm_num [symbolPoint, two_columns, one_row, axisCoord]
  case second => norm_num [symbolPoint, two_columns, one_row, axisCoord]

/-- Settles O24: a border is the midpoint of two ticks, the coordinates of which ascend. -/
theorem decisionBorders : Obligations.DecisionBorders := by
  unfold Obligations.DecisionBorders
  intro n hn
  refine ⟨borders_length n, borders_getElem? hn, fun k hk hkn => ⟨_, ?_, border_cast n k,
    axisBorder_of_two_le (by omega) hk, ?_⟩⟩
  · rw [borders_getElem? hkn, if_neg (by omega)]
  · have ticks_lt : axisCoord n (k - 1) < axisCoord n k := strictMono_axisCoord (by omega) (by omega)
    exact ⟨left_lt_add_div_two.2 ticks_lt, add_div_two_lt_right.2 ticks_lt⟩

/-- Settles O50: a staging index writes one register and reads it back; no command writes one (`exec_staging`). -/
theorem stagingRegisters : Obligations.StagingRegisters := by
  unfold Obligations.StagingRegisters
  refine ⟨fun s j w rest h8 h15 hs => ?_, fun c => ⟨rfl, rfl, rfl, rfl, rfl, rfl, rfl, rfl⟩, fun i s t => exec_staging⟩
  obtain ⟨g, hg⟩ := writeIndex_staging_only s.core w h8 h15
  refine ⟨_, step_csrWrite hs (by omega), readIndex_writeIndex_staging s.core w h8 h15, ?_, ?_, ?_, ?_, ?_, ?_, ?_, ?_,
    fun m hm8 hm15 => readIndex_writeIndex_other_staging s.core w h8 h15 hm8 hm15, ?whole⟩
  case whole => rw [hg]
  all_goals
    rintro rfl
    rfl

/-- Settles O7: the write to `CMD` issues the word, which decodes. -/
theorem stepRunsDecodedCommand : Obligations.StepRunsDecodedCommand := by
  unfold Obligations.StepRunsDecodedCommand
  intro s w i rest hf hs hd
  exact (step_command hs).trans (issue_decoded hf hd)

/-- Settles O47: the fields by arithmetic on the number that `STATUS` is (`readIndex_status_toNat`). -/
theorem statusWordFields : Obligations.StatusWordFields := by
  unfold Obligations.StatusWordFields
  intro c
  have status := readIndex_status_toNat c
  have cause_le := causeCode_le c
  have fault_le := Bool.toNat_le c.fault.isSome
  have constel_le := Bool.toNat_le c.constel.isSome
  have frame_le := Bool.toNat_le c.frame.isSome
  have svalid_le := Bool.toNat_le c.svalid
  have cause : slice (c.readIndex 1) 15 8 = c.causeCode := by
    simp only [slice]
    omega
  refine ⟨getLsbD_eq_of_toNat (by omega), getLsbD_eq_of_toNat (by omega), getLsbD_eq_of_toNat (by omega),
    getLsbD_eq_of_toNat (by omega), by simp only [slice]; omega, by simp only [slice]; omega, fun hf => ?_, fun r hr => ?_⟩
  · rw [cause, CoreState.causeCode, hf]
  · have code : slice (c.readIndex 1) 15 8 = r.cause.code := by rw [cause, CoreState.causeCode, hr]
    have code_of : ∀ k, r.cause = k → slice (c.readIndex 1) 15 8 = k.code := fun k hk => hk ▸ code
    exact ⟨code, code_of _, code_of _, code_of _, code_of _, code_of _, code_of _, code_of _, code_of _, code_of _,
      code_of _, code_of _, code_of _⟩

/-- Settles O48 by the three cases of a write to `CTRL`. -/
theorem controlRegister : Obligations.ControlRegister := by
  unfold Obligations.ControlRegister
  intro s w rest
  exact ⟨readIndex_unreadable s.core (.inr (.inl rfl)), fun hs => ⟨_, step_csrWrite hs (by decide), rfl,
    writeIndex_ctrl_reset s.core, writeIndex_ctrl_clearFault s.core, writeIndex_ctrl_ignored s.core⟩⟩

/-- Settles O51 by the map of the registers: such an index reads 0 (`readIndex_unreadable`), and a write to it is ignored
(`writeIndex_ignored`). -/
theorem reservedAndReadOnlyRegisters : Obligations.ReservedAndReadOnlyRegisters := by
  unfold Obligations.ReservedAndReadOnlyRegisters
  refine ⟨fun s i rest hi hs => ?_, fun s i w rest hi hs => ?_⟩
  · rw [step_csrRead hs, readIndex_unreadable s.core hi]
  · rw [step_csrWrite hs (by omega), writeIndex_ignored s.core w (by omega)]

/-- Settles O52, register by register. -/
theorem viewRegisters : Obligations.ViewRegisters := by
  unfold Obligations.ViewRegisters
  intro c
  have fcmd : c.readIndex 4 = c.readCsr .fcmd := readIndex_index c .fcmd
  have finfo : c.readIndex 5 = c.readCsr .finfo := readIndex_index c .finfo
  have aorder : c.readIndex 16 = c.readCsr .aorder := readIndex_index c .aorder
  have abps : c.readIndex 17 = c.readCsr .abps := readIndex_index c .abps
  have ansc : c.readIndex 18 = c.readCsr .ansc := readIndex_index c .ansc
  have ang : c.readIndex 19 = c.readCsr .ang := readIndex_index c .ang
  have agtype : c.readIndex 20 = c.readCsr .agtype := readIndex_index c .agtype
  refine ⟨readIndex_index c .cseq, readIndex_index c .syncoff, ?noFault, ?fault, ?noConstel, ?constel, ?noFrame, ?frame,
    fun b => ⟨fun hb => ⟨?noneKind, BitVec.eq_of_toNat_eq ?noneLen⟩, fun d hb => ⟨?bitsKind, ?bitsLen⟩,
      fun d hb => ⟨?cplxKind, ?cplxLen⟩⟩⟩
  case noneKind | bitsKind | cplxKind =>
    rw [readIndex_bkind, hb]
    rfl
  case noneLen | bitsLen | cplxLen =>
    rw [readIndex_blen_toNat, hb]
    rfl
  case noFault =>
    intro hf
    simp [fcmd, finfo, CoreState.readCsr, hf]
  case fault =>
    intro r hr
    simp [fcmd, finfo, CoreState.readCsr, hr]
  case noConstel =>
    intro hk
    simp [aorder, abps, CoreState.readCsr, hk]
  case constel =>
    intro o k hk ho
    simp [aorder, abps, CoreState.readCsr, hk, ho, bpsOf_two_pow]
  case noFrame =>
    intro hf
    simp [ansc, ang, agtype, CoreState.readCsr, hf]
  case frame =>
    intro f hf
    simp +contextual [ansc, ang, agtype, CoreState.readCsr, hf, GuardType.code]

/-- Settles O55: reset leaves every register 0 (`readIndex_reset`). -/
theorem resetValues : Obligations.ResetValues :=
  ⟨CoreState.reset_buf, rfl, rfl, rfl, rfl, rfl, rfl, readIndex_reset⟩

/-- Settles O58, field by field. -/
theorem invariantAtReset : Obligations.InvariantAtReset := inv_reset

end Sys2Proof

/-! Family 20_memory: reads of registers and buffers, and the host's writes of buffers (R61 to R63, R67). -/

namespace Sys2Proof.Machine

/-! A read -/

/-- A read is answered from CORE alone, and leaves it as it is (R61, R63, R67). -/
theorem read_answered (c : CoreState) {e : HostEvent} (he : (∃ i, e = .csrRead i) ∨ ∃ b, e = .bufRead b) :
    ∃ r : HostReply,
      (∀ (s : State) (rest : List HostEvent), s.core = c → s.script = e :: rest →
        step s = .next { core := c, script := rest, replies := s.replies ++ [r] }) ∧
      (∀ i, e = .csrRead i → r = .value (c.readIndex i)) ∧ ∀ b, e = .bufRead b → r = .content c.bufs[b] := by
  rcases he with ⟨i, rfl⟩ | ⟨b, rfl⟩
  · refine ⟨.value (c.readIndex i), ?_, by rintro _ ⟨⟩; rfl, nofun⟩
    rintro s rest rfl hs
    exact step_csrRead hs
  · refine ⟨.content c.bufs[b], ?_, nofun, by rintro _ ⟨⟩; rfl⟩
    rintro s rest rfl hs
    exact step_bufRead hs

/-! A buffer write, by what is wrong with its content -/

theorem hostWriteProblem_none : hostWriteProblem .none = some .hostWroteKindNone := if_pos rfl

theorem hostWriteProblem_tooMany {d : Buffer} (hd : d ≠ .none) (hl : Config.fitsCap d.len = false) :
    hostWriteProblem d = some (.hostWroteTooMany d.len) := by
  rw [hostWriteProblem, if_neg hd, if_pos hl]

theorem hostWriteProblem_noNumber {d : Buffer} (hd : d ≠ .none) (hl : Config.fitsCap d.len = true)
    (hn : d.numbers = false) : hostWriteProblem d = some .hostWroteNoNumber := by
  rw [hostWriteProblem, if_neg hd, if_neg (by simp [hl]), if_pos hn]

theorem fitsCap_of_le_64_or {n : ℕ} (h : n ≤ 64 ∨ Config.fitsCap n = true) : Config.fitsCap n = true :=
  h.elim fitsCap_of_le_64 id

/-- A write of a transaction's content is the write (R62). -/
theorem step_bufWrite_of_no_problem {s : State} {b : BufIdx} {d : Buffer} {rest : List HostEvent}
    (h : s.script = .bufWrite b d :: rest) (hd : hostWriteProblem d = none) :
    step s = .next { core := s.core.writeBuf b d, script := rest, replies := s.replies ++ [.completed] } := by
  rw [step_bufWrite h, hostBufWrite, hd]

/-- A write of anything else is refused under the name of its problem. -/
theorem step_bufWrite_of_problem {s : State} {b : BufIdx} {d : Buffer} {r : Refusal} {rest : List HostEvent}
    (h : s.script = .bufWrite b d :: rest) (hd : hostWriteProblem d = some r) : step s = .refused r := by
  rw [step_bufWrite h, hostBufWrite, hd]

end Sys2Proof.Machine

namespace Sys2Proof

open Machine

/-- Settles O8: the answer is CORE's alone (`read_answered`), and the first read leaves CORE to the second. -/
theorem readsHaveNoSideEffect : Obligations.ReadsHaveNoSideEffect := by
  unfold Obligations.ReadsHaveNoSideEffect
  intro s e rest hs he
  obtain ⟨r, answered, value, content⟩ := read_answered s.core he
  exact ⟨r, _, _, answered _ _ rfl hs, answered _ _ rfl rfl, rfl, rfl, rfl, List.append_assoc s.replies [r] [r],
    value, content⟩

/-- Settles O53: content without a problem is written to the one buffer, and each problem is refused under its name. -/
theorem hostBufferWrite : Obligations.HostBufferWrite := by
  unfold Obligations.HostBufferWrite
  intro s b d rest hs
  refine ⟨fun hd hl hn => ?written, ?kindNone, fun hd hl => ?tooMany, fun hd hl hn => ?noNumber⟩
  case written =>
    have no_problem : hostWriteProblem d = none :=
      (hostWriteProblem_none_iff d).2 ⟨hd, fitsCap_of_le_64_or hl, hn⟩
    exact ⟨_, step_bufWrite_of_no_problem hs no_problem, CoreState.writeBuf_get_same _ b d,
      fun _ hb => CoreState.writeBuf_get_other _ hb.symm d, rfl, rfl⟩
  case kindNone =>
    rintro rfl
    exact step_bufWrite_of_problem hs hostWriteProblem_none
  case tooMany => exact step_bufWrite_of_problem hs (hostWriteProblem_tooMany hd hl)
  case noNumber => exact step_bufWrite_of_problem hs (hostWriteProblem_noNumber hd (fitsCap_of_le_64_or hl) hn)

/-- Settles O54: the answer is the buffer, whatever it holds. -/
theorem hostBufferRead : Obligations.HostBufferRead := by
  unfold Obligations.HostBufferRead
  intro s b rest hs
  have answered := step_bufRead hs
  exact ⟨answered, fun unwritten => by rw [answered, unwritten]⟩

end Sys2Proof

/-! Family 30_encoding: the opcode table as a partition of the words, and a decoded command by its opcode and buffer
fields (R81 to R86, R92). -/

namespace Sys2Proof

open Machine

/-! The rows of the opcode table -/

/-- The low byte is under the mask of every row. -/
theorem opTable_mask_low : ∀ r ∈ opTable, r.mask &&& 0xFF#32 = 0xFF#32 := by decide

/-- No two rows have one opcode. -/
theorem opTable_opcodes_nodup : (opTable.map fun r => r.pattern &&& 0xFF#32).Nodup := by decide

/-- A word has the low byte of a row it matches. -/
theorem row_low_byte {w : Word} {r : OpRow} (hr : r ∈ opTable) (h : w &&& r.mask = r.pattern) :
    r.pattern &&& 0xFF#32 = w &&& 0xFF#32 := by
  rw [← h, BitVec.and_assoc, opTable_mask_low r hr]

/-- A word matches one row at most. -/
theorem row_unique {w : Word} {r r' : OpRow} (hr : r ∈ opTable) (hr' : r' ∈ opTable) (h : w &&& r.mask = r.pattern)
    (h' : w &&& r'.mask = r'.pattern) : r = r' :=
  List.inj_on_of_nodup_map opTable_opcodes_nodup hr hr' ((row_low_byte hr h).trans (row_low_byte hr' h').symm)

/-- Decoding without the order of the rows: the command of the row the word matches (R84, R85). -/
theorem decode_ok_iff_row {w : Word} {i : Instr} :
    decode w = .ok i ↔ ∃ r ∈ opTable, r.build w = i ∧ w &&& r.mask = r.pattern := by
  unfold decode
  cases hfind : opTable.find? (fun r => w &&& r.mask == r.pattern) with
  | none =>
    simp only [List.find?_eq_none, beq_iff_eq] at hfind
    simp only [reduceCtorEq, false_iff]
    rintro ⟨r, hr, -, hmatch⟩
    exact hfind r hr hmatch
  | some r =>
    have hr : r ∈ opTable := List.mem_of_find?_eq_some hfind
    have hmatch : w &&& r.mask = r.pattern := by simpa using List.find?_some hfind
    simp only [Except.ok.injEq]
    constructor
    · exact fun hi => ⟨r, hr, hi, hmatch⟩
    · rintro ⟨r', hr', hi, hmatch'⟩
      rwa [row_unique hr hr' hmatch hmatch']

/-- A word is illegal when it matches no row (R86). -/
theorem decode_ne_ok_iff_row {w : Word} : (∀ i, decode w ≠ .ok i) ↔ ∀ r ∈ opTable, w &&& r.mask ≠ r.pattern := by
  simp only [ne_eq, decode_ok_iff_row]
  constructor
  · exact fun h r hr hmatch => h (r.build w) ⟨r, hr, rfl, hmatch⟩
  · rintro h i ⟨r, hr, -, hmatch⟩
    exact h r hr hmatch

/-! The upper bits of a word -/

/-- Bits 31:k are the word's number without its low `k` bits. -/
theorem slice_31 (w : Word) {k : ℕ} (hk : k ≤ 32) : slice w 31 k = w.toNat / 2 ^ k := by
  refine Nat.mod_eq_of_lt (Nat.div_lt_of_lt_mul ?_)
  rw [← pow_add, show k + (31 + 1 - k) = 32 by omega]
  exact w.isLt

/-- Bits 31:k are 0 when bits hi:k and the bits above them are. -/
theorem slice_31_eq_zero_iff (w : Word) {hi k : ℕ} (hk : k ≤ hi + 1) (hhi : hi ≤ 31) :
    slice w 31 k = 0 ↔ slice w hi k = 0 ∧ slice w 31 (hi + 1) = 0 := by
  have upper : w.toNat / 2 ^ (hi + 1) = w.toNat / 2 ^ k / 2 ^ (hi + 1 - k) := by
    rw [Nat.div_div_eq_div_mul, ← pow_add, show k + (hi + 1 - k) = hi + 1 by omega]
  rw [slice_31 w (by omega), slice_31 w (by omega), upper, slice]
  constructor
  · intro h
    simp [h]
  · rintro ⟨hlow, hhigh⟩
    rw [← Nat.div_add_mod (w.toNat / 2 ^ k) (2 ^ (hi + 1 - k)), hlow, hhigh, mul_zero]

/-! A match under a mask, as slices of the word -/

/-- What a mask of the low byte and of the bits from `k` on leaves of a word. -/
theorem toNat_and_mask {w m : Word} {k : ℕ} (hk : 8 ≤ k) (hlow : m.toNat % 2 ^ k = 2 ^ 8 - 1)
    (hhigh : m.toNat / 2 ^ k = 2 ^ (32 - k) - 1) : (w &&& m).toNat = 2 ^ k * slice w 31 k + slice w 7 0 := by
  have low : (w.toNat &&& m.toNat) % 2 ^ k = slice w 7 0 := by
    rw [Nat.and_mod_two_pow, hlow, Nat.and_two_pow_sub_one_eq_mod, Nat.mod_mod_of_dvd _ (Nat.pow_dvd_pow 2 hk)]
    simp [slice]
  have high : (w.toNat &&& m.toNat) / 2 ^ k = slice w 31 k := by
    rw [Nat.and_div_two_pow, hhigh, Nat.and_two_pow_sub_one_eq_mod, slice]
  rw [BitVec.toNat_and, ← low, ← high, Nat.div_add_mod]

/-- A match under such a mask: the low byte is the opcode and the bits from `k` on are 0. -/
theorem and_mask_eq_iff {w m p : Word} {k : ℕ} (hk : 8 ≤ k) (hlow : m.toNat % 2 ^ k = 2 ^ 8 - 1)
    (hhigh : m.toNat / 2 ^ k = 2 ^ (32 - k) - 1) (hp : p.toNat < 2 ^ 8) :
    w &&& m = p ↔ slice w 31 k = 0 ∧ slice w 7 0 = p.toNat := by
  rw [← BitVec.toNat_inj, toNat_and_mask hk hlow hhigh]
  constructor
  · intro h
    have high : slice w 31 k = 0 := by
      by_contra hne
      have above : 2 ^ k ≤ 2 ^ k * slice w 31 k := Nat.le_mul_of_pos_right _ (Nat.pos_of_ne_zero hne)
      have opcode_below : 2 ^ 8 ≤ 2 ^ k := Nat.pow_le_pow_right two_pos hk
      omega
    simpa [high] using h
  · rintro ⟨high, low⟩
    simp [high, low]

/-- The row of a command without operands. -/
theorem match_noOperand_iff {w p : Word} (hp : p.toNat < 2 ^ 8) :
    w &&& 0xFFFFFFFF#32 = p ↔ slice w 31 8 = 0 ∧ slice w 7 0 = p.toNat :=
  and_mask_eq_iff (by decide) (by decide) (by decide) hp

/-- The row of a command with rd and rs1. -/
theorem match_twoOperands_iff {w p : Word} (hp : p.toNat < 2 ^ 8) :
    w &&& 0xFFFFC0FF#32 = p ↔ slice w 31 14 = 0 ∧ slice w 7 0 = p.toNat :=
  and_mask_eq_iff (by decide) (by decide) (by decide) hp

/-- The row of a command with rd, rs1 and rs2. -/
theorem match_threeOperands_iff {w p : Word} (hp : p.toNat < 2 ^ 8) :
    w &&& 0xFFFE00FF#32 = p ↔ slice w 31 17 = 0 ∧ slice w 7 0 = p.toNat :=
  and_mask_eq_iff (by decide) (by decide) (by decide) hp

/-- The row of a command with all four operands. -/
theorem match_fourOperands_iff {w p : Word} (hp : p.toNat < 2 ^ 8) :
    w &&& 0xFFF000FF#32 = p ↔ slice w 31 20 = 0 ∧ slice w 7 0 = p.toNat :=
  and_mask_eq_iff (by decide) (by decide) (by decide) hp

/-! A decoded command by its opcode and fields -/

/-- The four buffer fields of a word (R81). -/
def wordFields (w : Word) : BufIdx × BufIdx × BufIdx × BufIdx :=
  (bufField w 8, bufField w 11, bufField w 14, bufField w 17)

/-- The bits from a buffer field on are 0 when the field is and those above it are. -/
theorem slice_31_eq_zero_iff_bufField (w : Word) {k : ℕ} (hk : k ≤ 29) :
    slice w 31 k = 0 ↔ bufField w k = 0 ∧ slice w 31 (k + 3) = 0 := by
  rw [slice_31_eq_zero_iff w (hi := k + 2) (by omega) (by omega), ← Fin.val_inj]
  rfl

/-- A word is a command exactly when it has its opcode and its buffer fields, 0 where it uses none, and no bit of 31:20
(R81, R84 to R86). -/
theorem decode_ok_iff_fields {w : Word} {i : Instr} :
    decode w = .ok i ↔ wordFields w = i.fields ∧ slice w 31 20 = 0 ∧ slice w 7 0 = i.opcode := by
  have from8 := slice_31_eq_zero_iff_bufField w (k := 8) (by decide)
  have from11 := slice_31_eq_zero_iff_bufField w (k := 11) (by decide)
  have from14 := slice_31_eq_zero_iff_bufField w (k := 14) (by decide)
  have from17 := slice_31_eq_zero_iff_bufField w (k := 17) (by decide)
  cases i
  case nop | cbuild | fbuild =>
    simp [decode_ok_iff_row, opTable, match_noOperand_iff, from8, from11, from14, from17, Instr.fields, wordFields,
      Instr.opcode, and_assoc]
  case qmod | qdem | oftx | ofrx | chest =>
    simp [decode_ok_iff_row, opTable, match_twoOperands_iff, from14, from17, Instr.fields, wordFields, Instr.opcode,
      and_assoc]
  case eq =>
    simp [decode_ok_iff_row, opTable, match_threeOperands_iff, from17, Instr.fields, wordFields, Instr.opcode,
      and_assoc]
  case xcorr =>
    simp [decode_ok_iff_row, opTable, match_fourOperands_iff, Instr.fields, wordFields, Instr.opcode, and_assoc]

/-- The fields of a decoded command are the 3-bit fields of the word as they stand (R83). -/
theorem fields_of_decode {w : Word} {i : Instr} (h : decode w = .ok i) :
    i.fields.1.val = slice w 10 8 ∧ i.fields.2.1.val = slice w 13 11 ∧ i.fields.2.2.1.val = slice w 16 14 ∧
      i.fields.2.2.2.val = slice w 19 17 := by
  obtain ⟨fields, -, -⟩ := decode_ok_iff_fields.1 h
  rw [← fields]
  exact ⟨rfl, rfl, rfl, rfl⟩

/-- The encoding of a command is the one word with its opcode and its buffer fields and no bit of 31:20 (R81, R92). -/
theorem encode_eq_iff_fields {w : Word} {i : Instr} :
    encode i = w ↔ wordFields w = i.fields ∧ slice w 31 20 = 0 ∧ slice w 7 0 = i.opcode := by
  obtain ⟨number, -⟩ := Laws.EncodeOpcode.of_fields i
  have opcode_lt := Laws.EncodeOpcode.opcode_lt i
  have rd_lt := i.fields.1.isLt
  have rs1_lt := i.fields.2.1.isLt
  have rs2_lt := i.fields.2.2.1.isLt
  have rs3_lt := i.fields.2.2.2.isLt
  have word_lt := w.isLt
  rw [← BitVec.toNat_inj, number]
  simp only [wordFields, Prod.ext_iff, Fin.ext_iff, bufField, slice]
  omega

/-- Decoding and encoding are inverse to each other. -/
theorem decode_ok_iff_encode {w : Word} {i : Instr} : decode w = .ok i ↔ encode i = w :=
  decode_ok_iff_fields.trans encode_eq_iff_fields.symm

/-! The obligations -/

/-- Settles O1: the encoding is the word that decodes to the command (`decode_ok_iff_encode`). -/
theorem decodeOfEncode : Obligations.DecodeOfEncode :=
  fun _ => decode_ok_iff_encode.2 rfl

/-- Settles O2: the other direction of `decode_ok_iff_encode`. -/
theorem encodeOfDecode : Obligations.EncodeOfDecode :=
  fun _ _ => decode_ok_iff_encode.1

/-- Settles O4: the one row that builds the command. -/
theorem commandsByMatchAndMask : Obligations.CommandsByMatchAndMask := by
  unfold Obligations.CommandsByMatchAndMask
  intro w
  simp [decode_ok_iff_row, opTable]

/-- Settles O5: the fields of the word are those of the command (`fields_of_decode`). -/
theorem operandFields : Obligations.OperandFields := by
  unfold Obligations.OperandFields
  intro w rd rs1 rs2 rs3
  refine ⟨?twoOperands, fun h => ?threeOperands, fun h => fields_of_decode h⟩
  case twoOperands =>
    rintro (h | h | h | h | h)
    all_goals
      obtain ⟨hrd, hrs1, -, -⟩ := fields_of_decode h
      exact ⟨hrd, hrs1⟩
  case threeOperands =>
    obtain ⟨hrd, hrs1, hrs2, -⟩ := fields_of_decode h
    exact ⟨hrd, hrs1, hrs2⟩

/-- Settles O6: a word is illegal when it matches no row, opcode by opcode; issuing it takes the fault (`issue_illegal`). -/
theorem illegalWords : Obligations.IllegalWords := by
  unfold Obligations.IllegalWords
  refine ⟨fun w => ?which, fun s w rest hf hs illegal => ?step⟩
  case which =>
    have from8 := slice_31_eq_zero_iff w (hi := 19) (k := 8) (by decide) (by decide)
    have from14 := slice_31_eq_zero_iff w (hi := 19) (k := 14) (by decide) (by decide)
    have from17 := slice_31_eq_zero_iff w (hi := 19) (k := 17) (by decide) (by decide)
    simp (disch := decide) only [decode_ne_ok_iff_row, opTable, List.forall_mem_cons, ne_eq, match_noOperand_iff,
      match_twoOperands_iff, match_threeOperands_iff, match_fourOperands_iff, from8, from14, from17]
    by_cases known : slice w 7 0 ∈ opcodes
    · simp only [opcodes, List.mem_cons, List.not_mem_nil, or_false] at known
      rcases known with h | h | h | h | h | h | h | h | h | h <;> simp [h, imp_iff_not_or, or_comm]
    · simp only [opcodes, List.mem_cons, not_or] at known
      simp [known]
  case step =>
    rw [step_command hs]
    cases hd : decode w with
    | ok i => exact absurd hd (illegal i)
    | error e => exact issue_illegal hf hd

/-- Settles O3: each word is the encoding of its command. -/
theorem sampleWordsDecode : Obligations.SampleWordsDecode := by
  unfold Obligations.SampleWordsDecode
  simp only [decode_ok_iff_encode]
  decide

end Sys2Proof

/-! Family 40_constellation_config: the outcome of each check of `CBUILD` and `FBUILD`, the views of the latched
halves, and what a configuration command writes (R100 to R110). -/

namespace Sys2Proof.Machine

/-! `CBUILD`, by the outcome of its checks (R104) -/

/-- The orders the first check lets through: with `o ≥ 2`, `k ≥ 1`. -/
theorem buildableOrder_iff {o : ℕ} : 2 ≤ o ∧ isPowerOfTwo o = true ↔ ∃ k, 1 ≤ k ∧ o = 2 ^ k := by
  rw [isPowerOfTwo_iff]
  constructor
  · rintro ⟨h2, k, rfl⟩
    exact ⟨k, Nat.one_le_iff_ne_zero.2 fun hk => by simp [hk] at h2, rfl⟩
  · rintro ⟨k, hk, rfl⟩
    exact ⟨Nat.le_self_pow (Nat.one_le_iff_ne_zero.1 hk) 2, k, rfl⟩

/-- Every CORE has the orders up to 64 (R5). -/
theorem fitsOrder_two_pow {k : ℕ} (h : k ≤ 6 ∨ Config.fitsOrder (2 ^ k) = true) : Config.fitsOrder (2 ^ k) = true :=
  h.elim (fun hk => fitsOrder_of_le_64 (Nat.pow_le_pow_right two_pos hk)) id

section

variable {c : CoreState}

theorem cbuildRule_latches {k : ℕ} (hk : 1 ≤ k) (ho : c.staging.order.toNat = 2 ^ k)
    (hf : Config.fitsOrder (2 ^ k) = true) : cbuildRule c = .ok { c with constel := some ⟨c.staging.order⟩ } := by
  rw [cbuildRule, require_of (buildableOrder_iff.2 ⟨k, hk, ho⟩), ok_bind, ho, require_of hf, ok_bind, pure_ok]

theorem cbuildRule_invalidOrder (h : c.staging.order.toNat < 2 ∨ ∀ k, c.staging.order.toNat ≠ 2 ^ k) :
    cbuildRule c = .error ⟨.invalidOrder, c.staging.order.toNat⟩ := by
  have illegal : ¬(2 ≤ c.staging.order.toNat ∧ isPowerOfTwo c.staging.order.toNat = true) := by
    rw [isPowerOfTwo_iff]
    rintro ⟨h2, k, hk⟩
    exact h.elim (Nat.not_lt.2 h2) fun hne => hne k hk
  rw [cbuildRule, require_of_not illegal, error_bind]

theorem cbuildRule_capacityExceeded {k : ℕ} (hk : 1 ≤ k) (ho : c.staging.order.toNat = 2 ^ k)
    (hf : Config.fitsOrder (2 ^ k) = false) :
    cbuildRule c = .error ⟨.capacityExceeded, c.staging.order.toNat⟩ := by
  rw [cbuildRule, require_of (buildableOrder_iff.2 ⟨k, hk, ho⟩), ok_bind, ho, require_of_not (by simp [hf]), error_bind]

/-! `FBUILD`, by the first check that fails (R108) -/

theorem fbuildRule_latches (hn : c.staging.nsc.toNat ≠ 0) (ht : c.staging.gtype.toNat ≤ 2)
    (hg : c.staging.gtype.toNat = 0 ∨ c.staging.ng.toNat ≤ c.staging.nsc.toNat) :
    fbuildRule c =
      .ok { c with frame := some ⟨c.staging.nsc, c.staging.ng, guardOfCode c.staging.gtype.toNat⟩ } := by
  rw [fbuildRule, require_of hn, ok_bind, require_of ht, ok_bind, require_of (by omega), ok_bind, pure_ok]

theorem fbuildRule_noSubcarrier (hn : c.staging.nsc.toNat = 0) : fbuildRule c = .error ⟨.invalidParameter, 9⟩ := by
  rw [fbuildRule, require_of_not (not_not.2 hn), error_bind]

theorem fbuildRule_unknownGuard (hn : c.staging.nsc.toNat ≠ 0) (ht : 2 < c.staging.gtype.toNat) :
    fbuildRule c = .error ⟨.invalidParameter, 11⟩ := by
  rw [fbuildRule, require_of hn, ok_bind, require_of_not (Nat.not_le.2 ht), error_bind]

theorem fbuildRule_longGuard (hn : c.staging.nsc.toNat ≠ 0)
    (ht : c.staging.gtype.toNat = 1 ∨ c.staging.gtype.toNat = 2) (hg : c.staging.nsc.toNat < c.staging.ng.toNat) :
    fbuildRule c = .error ⟨.invalidParameter, 10⟩ := by
  rw [fbuildRule, require_of hn, ok_bind, require_of (by omega), ok_bind, require_of_not (not_not.2 ⟨ht, hg⟩), error_bind]

end

/-- A guard type has the code it was latched from (R110). -/
theorem code_guardOfCode {t : ℕ} (ht : t ≤ 2) : (guardOfCode t).code = t := by
  interval_cases t <;> rfl

/-! The views of the latched halves (R34, R38) -/

theorem views_of_constel {c : CoreState} {o : Word} {k : ℕ} (hc : c.constel = some ⟨o⟩) (ho : o.toNat = 2 ^ k) :
    c.readIndex 16 = BitVec.ofNat 32 (2 ^ k) ∧ c.readIndex 17 = BitVec.ofNat 32 k ∧ (c.readIndex 1).getLsbD 1 = true := by
  obtain ⟨-, -, -, -, -, constel_views, -⟩ := viewRegisters c
  obtain ⟨-, cvalid, -⟩ := statusWordFields c
  obtain ⟨aorder, abps⟩ := constel_views o k hc ho
  have order_eq : o = BitVec.ofNat 32 (2 ^ k) := by rw [← ho, BitVec.ofNat_toNat, BitVec.setWidth_eq]
  exact ⟨aorder.trans order_eq, abps, cvalid.trans (by rw [hc]; rfl)⟩

theorem views_of_frame {c : CoreState} {f : Frame} (hf : c.frame = some f) :
    c.readIndex 18 = f.nsc ∧ c.readIndex 19 = f.ng ∧ c.readIndex 20 = BitVec.ofNat 32 f.gtype.code ∧
      (c.readIndex 1).getLsbD 2 = true := by
  obtain ⟨-, -, -, -, -, -, -, frame_views, -⟩ := viewRegisters c
  obtain ⟨-, -, fvalid, -⟩ := statusWordFields c
  obtain ⟨ansc, ang, zeroPad, cyclicPrefix, cyclicSuffix⟩ := frame_views f hf
  refine ⟨ansc, ang, ?_, fvalid.trans (by rw [hf]; rfl)⟩
  cases hg : f.gtype with
  | zeroPad => exact zeroPad hg
  | cyclicPrefix => exact cyclicPrefix hg
  | cyclicSuffix => exact cyclicSuffix hg

/-! What a configuration command writes (R23, R69) -/

/-- The rule of a configuration command writes the latched halves at most, and only the half it builds. -/
theorem ruleOf_configuration {i : Instr} {c c' : CoreState} (hi : i = .nop ∨ i = .cbuild ∨ i = .fbuild)
    (h : ruleOf i c = .ok c') :
    ∃ k f, c' = { c with constel := k, frame := f } ∧ (i ≠ .cbuild → k = c.constel) ∧ (i ≠ .fbuild → f = c.frame) := by
  rcases hi with rfl | rfl | rfl
  · exact ⟨_, _, nopRule_ok h, fun _ => rfl, fun _ => rfl⟩
  · obtain ⟨-, -, hc⟩ := cbuildRule_ok h
    exact ⟨_, _, hc, fun hne => absurd rfl hne, fun _ => rfl⟩
  · obtain ⟨-, -, -, hc⟩ := fbuildRule_ok h
    exact ⟨_, _, hc, fun _ => rfl, fun hne => absurd rfl hne⟩

end Sys2Proof.Machine

namespace Sys2Proof

open Machine

/-- Settles O15: a rule of these commands writes only the half it builds (`ruleOf_configuration`), and a fault only its
record. -/
theorem frameOfConfigurationCommands : Obligations.FrameOfConfigurationCommands := by
  unfold Obligations.FrameOfConfigurationCommands
  intro i s t hi ht
  rcases exec_cases ht with ⟨-, rfl⟩ | ⟨c, -, hr, rfl⟩ | ⟨r, -, -, rfl⟩
  · exact ⟨fun _ => rfl, rfl, rfl, rfl, fun _ => rfl, fun _ => rfl, .inl rfl, rfl, rfl⟩
  · obtain ⟨k, f, rfl, hk, hf⟩ := ruleOf_configuration hi hr
    exact ⟨fun _ => rfl, rfl, rfl, rfl, hk, hf, .inl rfl, rfl, rfl⟩
  · exact ⟨fun _ => rfl, rfl, rfl, rfl, fun _ => rfl, fun _ => rfl, .inr ⟨rfl, rfl, rfl⟩, rfl, rfl⟩

/-- Settles O20 by the outcome of the two checks; a latched order shows in its views (`views_of_constel`). -/
theorem cbuildCommand : Obligations.CbuildCommand := by
  unfold Obligations.CbuildCommand
  intro s hf
  refine ⟨by decide, fun k hk ho hfit => ?latched, fun h => ?invalidOrder, fun k hk ho hfit => ?capacityExceeded⟩
  case latched =>
    exact ⟨exec_completed hf (cbuildRule_latches hk ho (fitsOrder_two_pow hfit)) rfl, views_of_constel rfl ho⟩
  case invalidOrder =>
    simpa using exec_error (i := .cbuild) hf (cbuildRule_invalidOrder h)
  case capacityExceeded =>
    simpa using exec_error (i := .cbuild) hf (cbuildRule_capacityExceeded hk ho hfit)

/-- Settles O21 by the first check that fails; a latched frame shows in its views (`views_of_frame`). -/
theorem fbuildCommand : Obligations.FbuildCommand := by
  unfold Obligations.FbuildCommand
  intro s hf
  refine ⟨by decide, fun hn ht hg => ?latched, fun hn => exec_error (i := .fbuild) hf (fbuildRule_noSubcarrier hn),
    fun hn ht => exec_error (i := .fbuild) hf (fbuildRule_unknownGuard hn ht),
    fun hn ht hg => exec_error (i := .fbuild) hf (fbuildRule_longGuard hn ht hg)⟩
  case latched =>
    refine ⟨_, exec_completed hf (fbuildRule_latches hn ht hg) rfl, rfl, rfl, fun h => ?zeroPad, fun h => ?cyclicPrefix,
      fun h => ?cyclicSuffix, ?views⟩
    case zeroPad | cyclicPrefix | cyclicSuffix =>
      rw [h]
      rfl
    case views =>
      obtain ⟨ansc, ang, agtype, fvalid⟩ := views_of_frame (c := { s.core with frame := some _ }) rfl
      refine ⟨ansc, ang, agtype.trans ?_, fvalid⟩
      rw [code_guardOfCode ht, BitVec.ofNat_toNat, BitVec.setWidth_eq]

/-- Settles O19: the rule of `NOP` writes nothing, and the one word with opcode 0 has no other bit set (R86). -/
theorem nopCommand : Obligations.NopCommand := by
  unfold Obligations.NopCommand
  refine ⟨fun s hf => exec_ok hf rfl, fun s hf => ?refused, by decide, fun w opcode upper => ?illegal⟩
  case refused =>
    obtain ⟨r, hr⟩ := Option.ne_none_iff_exists'.1 hf
    exact exec_refused hr
  case illegal =>
    have some_bit : slice w 19 8 ≠ 0 ∨ slice w 31 20 ≠ 0 :=
      not_and_or.1 fun h => upper ((slice_31_eq_zero_iff w (by decide) (by decide)).2 h)
    refine (illegalWords.1 w).2 ?_
    rcases some_bit with operand_bit | reserved_bit
    · exact .inr (.inr (.inl ⟨by simp [opcode], operand_bit⟩))
    · exact .inr (.inl reserved_bit)

end Sys2Proof

/-! Family 41_qam: the floor search, the decision as the nearest point, and `QMOD` and `QDEM` check by check (R120 to
R129). -/

namespace Sys2Proof.Machine

/-! The number of borders at most x (R125) -/

theorem axisBorder_le_of_le {n j k : ℕ} {x : ℝ} (hj : 1 ≤ j) (hjk : j ≤ k) (hk : k < n) (hx : axisBorder n k ≤ x) :
    axisBorder n j ≤ x := by
  rcases hjk.eq_or_lt with rfl | hlt
  · exact hx
  · exact (axisBorder_lt hj hlt hk).le.trans hx

/-- The borders ascend, so those at most x are the first ones. -/
theorem axisBorder_le_iff {n k : ℕ} {x : ℝ} (hk : 1 ≤ k) (hkn : k < n) :
    axisBorder n k ≤ x ↔ k ≤ bordersBelow n x := by
  unfold bordersBelow
  constructor
  · intro hx
    have first : Finset.Icc 1 k ⊆ (Finset.range n).filter fun j => 1 ≤ j ∧ axisBorder n j ≤ x := by
      intro j hj
      obtain ⟨hj1, hjk⟩ := Finset.mem_Icc.1 hj
      exact Finset.mem_filter.2 ⟨Finset.mem_range.2 (by omega), hj1, axisBorder_le_of_le hj1 hjk hkn hx⟩
    simpa using Finset.card_le_card first
  · intro hcard
    by_contra hx
    have below : ((Finset.range n).filter fun j => 1 ≤ j ∧ axisBorder n j ≤ x) ⊆ Finset.Ico 1 k := by
      intro j hj
      obtain ⟨hjn, hj1, hjx⟩ := Finset.mem_filter.1 hj
      refine Finset.mem_Ico.2 ⟨hj1, Nat.lt_of_not_le fun hkj => hx ?_⟩
      exact axisBorder_le_of_le hk hkj (Finset.mem_range.1 hjn) hjx
    have card_le := Finset.card_le_card below
    rw [Nat.card_Ico] at card_le
    omega

theorem bordersBelow_lt {n : ℕ} (hn : 1 ≤ n) (x : ℝ) : bordersBelow n x < n := by
  have ticks : ((Finset.range n).filter fun k => 1 ≤ k ∧ axisBorder n k ≤ x) ⊆ Finset.Ico 1 n := by
    intro k hk
    obtain ⟨hkn, hk1, -⟩ := Finset.mem_filter.1 hk
    exact Finset.mem_Ico.2 ⟨hk1, Finset.mem_range.1 hkn⟩
  have card_le := Finset.card_le_card ticks
  rw [Nat.card_Ico] at card_le
  unfold bordersBelow
  omega

theorem isGreatest_bordersBelow {n : ℕ} (hn : 1 ≤ n) (x : ℝ) :
    IsGreatest {k | k < n ∧ (k = 0 ∨ axisBorder n k ≤ x)} (bordersBelow n x) := by
  constructor
  · refine ⟨bordersBelow_lt hn x, or_iff_not_imp_left.2 fun h0 => ?_⟩
    exact (axisBorder_le_iff (Nat.one_le_iff_ne_zero.2 h0) (bordersBelow_lt hn x)).2 le_rfl
  · rintro k ⟨hkn, hk⟩
    rcases Nat.eq_zero_or_pos k with rfl | hpos
    · exact Nat.zero_le _
    · exact (axisBorder_le_iff hpos hkn).1 (hk.resolve_left hpos.ne')

/-! The nearest tick of an axis (R126) -/

/-- Of two numbers the greater is as near to x when x is at least their midpoint. -/
theorem sq_sub_le_sq_sub_iff {a b x : ℝ} (hab : a < b) : (x - b) ^ 2 ≤ (x - a) ^ 2 ↔ (a + b) / 2 ≤ x := by
  have difference : (x - a) ^ 2 - (x - b) ^ 2 = 2 * (b - a) * (x - (a + b) / 2) := by ring
  rw [← sub_nonneg, difference, mul_nonneg_iff_of_pos_left (by linarith), sub_nonneg]

/-- No tick at or below the decided one is nearer. -/
theorem sq_sub_axisCoord_le {n j : ℕ} (hn : 1 ≤ n) (x : ℝ) (hj : j ≤ bordersBelow n x) :
    (x - axisCoord n (bordersBelow n x)) ^ 2 ≤ (x - axisCoord n j) ^ 2 := by
  have tick_lt := bordersBelow_lt hn x
  rcases hj.eq_or_lt with rfl | hlt
  · exact le_rfl
  have ascending := strictMono_axisCoord (n := n) (by omega)
  have border_le : axisBorder n (bordersBelow n x) ≤ x := (axisBorder_le_iff (by omega) tick_lt).2 le_rfl
  have coord_le : axisCoord n j ≤ axisCoord n (bordersBelow n x - 1) := ascending.monotone (by omega)
  rw [axisBorder] at border_le
  rw [sq_sub_le_sq_sub_iff (ascending hlt)]
  linarith

/-- Every tick above the decided one is farther. -/
theorem sq_sub_axisCoord_lt {n j : ℕ} {x : ℝ} (hj : bordersBelow n x < j) (hjn : j < n) :
    (x - axisCoord n (bordersBelow n x)) ^ 2 < (x - axisCoord n j) ^ 2 := by
  have ascending := strictMono_axisCoord (n := n) (by omega)
  have border_gt : x < axisBorder n (bordersBelow n x + 1) := by
    rw [← not_le, axisBorder_le_iff (by omega) (by omega)]
    omega
  have coord_le : axisCoord n (bordersBelow n x + 1) ≤ axisCoord n j := ascending.monotone hj
  rw [axisBorder, Nat.add_sub_cancel] at border_gt
  rw [← not_le, sq_sub_le_sq_sub_iff (ascending hj)]
  linarith

/-- The decided tick is nearest, and the greatest of the nearest. -/
theorem nearest_tick {n j : ℕ} (hn : 1 ≤ n) (x : ℝ) (hj : j < n) :
    (x - axisCoord n (bordersBelow n x)) ^ 2 ≤ (x - axisCoord n j) ^ 2 ∧
      ((x - axisCoord n (bordersBelow n x)) ^ 2 = (x - axisCoord n j) ^ 2 → j ≤ bordersBelow n x) := by
  rcases le_or_gt j (bordersBelow n x) with hle | hgt
  · exact ⟨sq_sub_axisCoord_le hn x hle, fun _ => hle⟩
  · have farther := sq_sub_axisCoord_lt hgt hj
    exact ⟨farther.le, fun heq => absurd heq farther.ne⟩

/-! The nearest point of the constellation (R124, R126) -/

theorem decided_eq_gridValue (k : ℕ) (z : ℂ) :
    decided k z = gridValue (2 ^ k) (bordersBelow (rowsOf k) z.im) (bordersBelow (columnsOf k) z.re) :=
  (gridValue_two_pow k _ _).symm

theorem decided_mod (k : ℕ) (z : ℂ) : decided k z % columnsOf k = bordersBelow (columnsOf k) z.re := by
  rw [decided_eq_gridValue, gridValue_mod _ (bordersBelow_lt (columnsOf_pos k) _)]

theorem decided_div (k : ℕ) (z : ℂ) : decided k z / columnsOf k = bordersBelow (rowsOf k) z.im := by
  rw [decided_eq_gridValue, gridValue_div _ (bordersBelow_lt (columnsOf_pos k) _)]

theorem decided_lt (k : ℕ) (z : ℂ) : decided k z < 2 ^ k := by
  rw [decided_eq_gridValue]
  exact gridValue_lt (bordersBelow_lt (rowsOf_pos k) _) (bordersBelow_lt (columnsOf_pos k) _)

theorem row_lt_rowsOf {k u : ℕ} (hu : u < 2 ^ k) : u / columnsOf k < rowsOf k :=
  Nat.div_lt_of_lt_mul (by rwa [columnsOf_mul_rowsOf])

/-- The squared distance to a point, axis by axis. -/
theorem sq_norm_sub_symbolPoint (k u : ℕ) (z : ℂ) :
    ‖z - symbolPoint k u‖ ^ 2 =
      (z.re - axisCoord (columnsOf k) (u % columnsOf k)) ^ 2 + (z.im - axisCoord (rowsOf k) (u / columnsOf k)) ^ 2 := by
  rw [Complex.sq_norm, Complex.normSq_apply, Complex.sub_re, Complex.sub_im, re_symbolPoint, im_symbolPoint]
  ring

/-- The decided point is nearest; a tie goes to the greater coordinate on each axis (R126). -/
theorem nearest_point {k u : ℕ} (z : ℂ) (hu : u < 2 ^ k) :
    ‖z - symbolPoint k (decided k z)‖ ≤ ‖z - symbolPoint k u‖ ∧
      (‖z - symbolPoint k (decided k z)‖ = ‖z - symbolPoint k u‖ →
        u % columnsOf k ≤ decided k z % columnsOf k ∧ u / columnsOf k ≤ decided k z / columnsOf k) := by
  obtain ⟨column_le, column_tie⟩ := nearest_tick (columnsOf_pos k) z.re (Nat.mod_lt u (columnsOf_pos k))
  obtain ⟨row_le, row_tie⟩ := nearest_tick (rowsOf_pos k) z.im (row_lt_rowsOf hu)
  have decided_distance := sq_norm_sub_symbolPoint k (decided k z) z
  have distance := sq_norm_sub_symbolPoint k u z
  rw [decided_mod, decided_div] at *
  refine ⟨?_, fun tie => ?_⟩
  · rw [← sq_le_sq₀ (norm_nonneg _) (norm_nonneg _), decided_distance, distance]
    exact add_le_add column_le row_le
  · rw [tie, distance] at decided_distance
    exact ⟨column_tie (by linarith), row_tie (by linarith)⟩

/-- A point is decided for its own value: no other is at distance 0 (R129). -/
theorem decided_symbolPoint {k v : ℕ} (hv : v < 2 ^ k) : decided k (symbolPoint k v) = v := by
  have distance_le := (nearest_point (symbolPoint k v) hv).1
  rw [sub_self, norm_zero, norm_le_zero_iff, sub_eq_zero] at distance_le
  exact (symbolPoint_inj hv (decided_lt k _) distance_le).symm

/-! Bits and symbols (R120, R121, R124) -/

/-- Bit j of a number given by its bits, least significant first. -/
theorem bit_of_sum (f : ℕ → Bool) {p j : ℕ} (hj : j < p) :
    (∑ i ∈ Finset.range p, (f i).toNat * 2 ^ i) / 2 ^ j % 2 = (f j).toNat := by
  induction p generalizing f j with
  | zero => omega
  | succ p ih =>
    have split_first : ∑ i ∈ Finset.range (p + 1), (f i).toNat * 2 ^ i =
        2 * ∑ i ∈ Finset.range p, (f (i + 1)).toNat * 2 ^ i + (f 0).toNat := by
      rw [Finset.sum_range_succ', Finset.mul_sum]
      congr 1
      · exact Finset.sum_congr rfl fun i _ => by ring
      · simp
    have first_le := Bool.toNat_le (f 0)
    rw [split_first]
    cases j with
    | zero => rw [pow_zero]; omega
    | succ j =>
      rw [pow_succ', ← Nat.div_div_eq_div_mul, ← ih (fun i => f (i + 1)) (Nat.lt_of_succ_lt_succ hj)]
      congr 2
      omega

/-- Bit j of a group's value is the group's bit j: unpacking inverts packing (R129). -/
theorem bit_groupValue (p : ℕ) (b : List Bool) (i : ℕ) {j : ℕ} (hj : j < p) :
    decide (groupValue p b i / 2 ^ j % 2 = 1) = b.getD (i * p + j) false := by
  rw [groupValue_eq, bitGroup, bit_of_sum (fun j => b.getD (i * p + j) false) hj]
  cases b.getD (i * p + j) false <;> rfl

theorem valueAt_modulate (k : ℕ) (b : List Bool) {i : ℕ} (hi : i < b.length / k) :
    valueAt (modulate (2 ^ k) b) i = symbolPoint k (bitGroup k b i) := by
  rw [valueAt, modulate_get _ _ _ (by rwa [bpsOf_two_pow]), value_point, bpsOf_two_pow, groupValue_eq]

theorem canonical_elemAt {z : List Cx} (hz : ∀ x ∈ z, x.canonical = true) {i : ℕ} (hi : i < z.length) :
    (elemAt z i).canonical = true := by
  rw [elemAt, List.getD_eq_getElem _ _ hi]
  exact hz _ (List.getElem_mem hi)

theorem demodulate_bit (k : ℕ) {z : List Cx} (hz : ∀ x ∈ z, x.canonical = true) {i j : ℕ} (hi : i < z.length)
    (hj : j < k) :
    (demodulate (2 ^ k) z).getD (i * k + j) false = decide (decided k (valueAt z i) / 2 ^ j % 2 = 1) := by
  have bit := demodulate_get (2 ^ k) z hi (by rwa [bpsOf_two_pow])
  rwa [bpsOf_two_pow, decideValue_eq_decided k (canonical_elemAt hz hi)] at bit

/-- Demodulation undoes modulation, bit by bit (R129). -/
theorem demodulate_modulate {k : ℕ} {b : List Bool} (hk : 1 ≤ k) (hb : b.length % k = 0) :
    demodulate (2 ^ k) (modulate (2 ^ k) b) = b := by
  have symbols : (modulate (2 ^ k) b).length = b.length / k := by rw [modulate_length, bpsOf_two_pow]
  have length_eq : (demodulate (2 ^ k) (modulate (2 ^ k) b)).length = b.length := by
    rw [demodulate_length, symbols, bpsOf_two_pow, Nat.div_mul_cancel (Nat.dvd_of_mod_eq_zero hb)]
  refine List.ext_getElem length_eq fun n hn hnb => ?_
  have group_lt : n / k < b.length / k := Nat.div_lt_div_of_lt_of_dvd (Nat.dvd_of_mod_eq_zero hb) hnb
  have value_lt : bitGroup k b (n / k) < 2 ^ k := groupValue_eq k b (n / k) ▸ groupValue_lt k b (n / k)
  have bit : (demodulate (2 ^ k) (modulate (2 ^ k) b)).getD (n / k * k + n % k) false =
      b.getD (n / k * k + n % k) false := by
    rw [demodulate_bit k (canonical_modulate _ _) (symbols ▸ group_lt) (Nat.mod_lt n hk), valueAt_modulate k b group_lt,
      decided_symbolPoint value_lt, ← groupValue_eq, bit_groupValue k b _ (Nat.mod_lt n hk)]
  rwa [Nat.div_add_mod', List.getD_eq_getElem _ _ hn, List.getD_eq_getElem _ _ hnb] at bit

/-! `QMOD` and `QDEM`, by the first check that fails (R120, R124, R205) -/

section

variable {c : CoreState} {rd rs1 : BufIdx} {o : Word} {k : ℕ}

theorem needOrder_latched (hc : c.constel = some ⟨o⟩) (ho : o.toNat = 2 ^ k) : c.needOrder = .ok (2 ^ k) :=
  needOrder_ok_iff.2 ⟨⟨o⟩, hc, ho⟩

theorem needOrder_of_ne_none (hc : c.constel ≠ none) : ∃ n, c.needOrder = .ok n := by
  obtain ⟨h, hh⟩ := Option.ne_none_iff_exists'.1 hc
  exact ⟨_, needOrder_ok_iff.2 ⟨h, hh, rfl⟩⟩

theorem qmodRule_notConfigured (hc : c.constel = none) : qmodRule rd rs1 c = .error ⟨.notConfigured, 1⟩ := by
  rw [qmodRule, needOrder_error_iff.2 ⟨hc, rfl⟩, error_bind]

theorem qmodRule_badOperand (hc : c.constel ≠ none) (hb : ∀ b, c.bufs[rs1] ≠ .bits b) :
    qmodRule rd rs1 c = .error ⟨.badOperand, 1⟩ := by
  obtain ⟨n, hn⟩ := needOrder_of_ne_none hc
  rw [qmodRule, hn, ok_bind, sourceBits_error_iff.2 ⟨hb, rfl⟩, error_bind]

theorem qdemRule_notConfigured (hc : c.constel = none) : qdemRule rd rs1 c = .error ⟨.notConfigured, 1⟩ := by
  rw [qdemRule, needOrder_error_iff.2 ⟨hc, rfl⟩, error_bind]

theorem qdemRule_badOperand (hc : c.constel ≠ none) (hz : ∀ z, c.bufs[rs1] ≠ .cplx z) :
    qdemRule rd rs1 c = .error ⟨.badOperand, 1⟩ := by
  obtain ⟨n, hn⟩ := needOrder_of_ne_none hc
  rw [qdemRule, hn, ok_bind, sourceCplx_error_iff.2 ⟨hz, rfl⟩, error_bind]

variable (hc : c.constel = some ⟨o⟩) (ho : o.toNat = 2 ^ k)
include hc ho

theorem qmodRule_modulates {b : List Bool} (hb : c.bufs[rs1] = .bits b) (hl : b.length % k = 0) :
    qmodRule rd rs1 c = .ok (c.writeBuf rd (.cplx (modulate (2 ^ k) b))) := by
  rw [qmodRule, needOrder_latched hc ho, ok_bind, sourceBits_ok_iff.2 hb, ok_bind, bpsOf_two_pow, require_of hl, ok_bind,
    pure_ok]

theorem qmodRule_misaligned {b : List Bool} (hb : c.bufs[rs1] = .bits b) (hl : b.length % k ≠ 0) :
    qmodRule rd rs1 c = .error ⟨.misalignedBitLength, b.length⟩ := by
  rw [qmodRule, needOrder_latched hc ho, ok_bind, sourceBits_ok_iff.2 hb, ok_bind, bpsOf_two_pow, require_of_not hl,
    error_bind]

theorem qdemRule_demodulates {z : List Cx} (hz : c.bufs[rs1] = .cplx z) (hl : Config.fitsCap (z.length * k) = true) :
    qdemRule rd rs1 c = .ok (c.writeBuf rd (.bits (demodulate (2 ^ k) z))) := by
  rw [qdemRule, needOrder_latched hc ho, ok_bind, sourceCplx_ok_iff.2 hz, ok_bind, bpsOf_two_pow, require_of hl, ok_bind,
    pure_ok]

theorem qdemRule_capacityExceeded {z : List Cx} (hz : c.bufs[rs1] = .cplx z)
    (hl : Config.fitsCap (z.length * k) = false) :
    qdemRule rd rs1 c = .error ⟨.capacityExceeded, z.length * k⟩ := by
  rw [qdemRule, needOrder_latched hc ho, ok_bind, sourceCplx_ok_iff.2 hz, ok_bind, bpsOf_two_pow,
    require_of_not (by simp [hl]), error_bind]

end

end Sys2Proof.Machine

namespace Sys2Proof

open Machine

/-- Settles O25: the search counts the borders at most x (`region_eq_bordersBelow`), and these are the first ones, so the
count is the greatest of them. -/
theorem floorSearch : Obligations.FloorSearch := by
  unfold Obligations.FloorSearch
  intro n z x hn hz hx
  rw [region_eq_bordersBelow hz hx]
  exact ⟨isGreatest_bordersBelow hn x, rfl, fun single => by have := bordersBelow_lt hn x; omega⟩

/-- Settles O26: the decision is the count on each axis (`decideValue_eq_decided`), which is the nearest tick of it. -/
theorem decisionIsNearestPoint : Obligations.DecisionIsNearestPoint := by
  unfold Obligations.DecisionIsNearestPoint
  intro k z _ hz
  rw [decideValue_eq_decided k hz]
  exact ⟨decided_lt k z.value, rfl, fun u => nearest_point z.value⟩

/-- Settles O27 by the first check that fails; past them all, the points are those of the groups (`valueAt_modulate`). -/
theorem qmodCommand : Obligations.QmodCommand := by
  unfold Obligations.QmodCommand
  intro rd rs1 s hf
  refine ⟨?word, fun o k b hc _ ho hb hl => ?modulated,
    fun hc => exec_error (i := .qmod rd rs1) hf (qmodRule_notConfigured hc),
    fun hc hb => exec_error (i := .qmod rd rs1) hf (qmodRule_badOperand hc hb),
    fun o k b hc _ ho hb hl => exec_error (i := .qmod rd rs1) hf (qmodRule_misaligned hc ho hb hl)⟩
  case word => simpa [Instr.opcode, Instr.fields] using (Laws.EncodeOpcode.qmod rd rs1).1
  case modulated =>
    exact ⟨_, exec_completed (i := .qmod rd rs1) hf (qmodRule_modulates hc ho hb hl) rfl,
      by rw [modulate_length, bpsOf_two_pow], fun i hi => valueAt_modulate k b hi⟩

/-- Settles O28 by the first check that fails; past them all, the bits are those of the decided values
(`demodulate_bit`). -/
theorem qdemCommand : Obligations.QdemCommand := by
  unfold Obligations.QdemCommand
  intro rd rs1 s hf
  refine ⟨?word, fun o k z hc _ ho hz canonical hl => ?demodulated,
    fun hc => exec_error (i := .qdem rd rs1) hf (qdemRule_notConfigured hc),
    fun hc hz => exec_error (i := .qdem rd rs1) hf (qdemRule_badOperand hc hz),
    fun o k z hc _ ho hz hl => exec_error (i := .qdem rd rs1) hf (qdemRule_capacityExceeded hc ho hz hl)⟩
  case word => simpa [Instr.opcode, Instr.fields] using (Laws.EncodeOpcode.qdem rd rs1).1
  case demodulated =>
    exact ⟨_, exec_completed (i := .qdem rd rs1) hf (qdemRule_demodulates hc ho hz (fitsCap_of_le_64_or hl)) rfl,
      by rw [demodulate_length, bpsOf_two_pow], fun i j hi hj => demodulate_bit k canonical hi hj⟩

/-- Settles O29: both commands complete, and demodulation undoes modulation (`demodulate_modulate`). -/
theorem qamRoundTrip : Obligations.QamRoundTrip := by
  unfold Obligations.QamRoundTrip
  intro ra rb rs1 s o k b hf hc hk ho hb hl hfit
  have bit_count : (modulate (2 ^ k) b).length * k = b.length := by
    rw [modulate_length, bpsOf_two_pow, Nat.div_mul_cancel (Nat.dvd_of_mod_eq_zero hl)]
  have fits : Config.fitsCap ((modulate (2 ^ k) b).length * k) = true := bit_count ▸ fitsCap_of_le_64_or hfit
  have order_kept : (s.core.writeBuf ra (.cplx (modulate (2 ^ k) b))).done.constel = some ⟨o⟩ := hc
  have symbols : (s.core.writeBuf ra (.cplx (modulate (2 ^ k) b))).done.bufs[ra] = .cplx (modulate (2 ^ k) b) :=
    CoreState.writeBuf_get_same _ _ _
  have demodulated := qdemRule_demodulates (rd := rb) order_kept ho symbols fits
  rw [demodulate_modulate hk hl] at demodulated
  exact ⟨_, _, exec_ok (i := .qmod ra rs1) hf (qmodRule_modulates hc ho hb hl),
    exec_ok (i := .qdem rb ra) hf demodulated, CoreState.writeBuf_get_same _ _ _, hf⟩

end Sys2Proof

/-! Family 42_ofdm: the transforms and their inversion, the guard interval, and `OFTX` and `OFRX` check by check (R141 to
R151). -/

namespace Sys2Proof.Machine

/-! The transforms and their inversion (R141, R142) -/

/-- A sample of the inverse transform of a block is the number R141 gives. -/
theorem valueAt_idft {size n : ℕ} (xs : List Cx) (hn : n < size) :
    valueAt (idft size xs) n = inverseTransform size (valueAt xs) n := by
  rw [valueAt, elemAt_idft xs hn, value_idftAt]

/-- A bin of the forward transform of a block is the number R142 gives. -/
theorem valueAt_dft {size k : ℕ} (xs : List Cx) (hk : k < size) :
    valueAt (dft size xs) k = forwardTransform size (valueAt xs) k := by
  rw [valueAt, elemAt_dft xs hk, value_dftAt]

theorem inverseTransform_eq_sum_turns (size : ℕ) (x : ℕ → ℂ) (n : ℕ) :
    inverseTransform size x n =
      1 / (size : ℂ) * ∑ k ∈ Finset.range size, x k * turnPoint ((k : ℚ) * n / size) := by
  simp only [inverseTransform, turnPoint]
  push_cast
  rfl

theorem forwardTransform_eq_sum_turns (size : ℕ) (x : ℕ → ℂ) (k : ℕ) :
    forwardTransform size x k = ∑ n ∈ Finset.range size, x n * turnPoint (-((k : ℚ) * n / size)) := by
  simp only [forwardTransform, turnPoint]
  push_cast
  simp only [mul_neg]

/-- The tones m and k of one block are orthogonal. -/
theorem tones_orthogonal {size m k : ℕ} (hm : m < size) (hk : k < size) :
    ∑ n ∈ Finset.range size, turnPoint ((m : ℚ) * n / size) * turnPoint (-((k : ℚ) * n / size)) =
      if m = k then (size : ℂ) else 0 := by
  have one_turn : ∀ n : ℕ, turnPoint ((m : ℚ) * n / size) * turnPoint (-((k : ℚ) * n / size)) =
      turnPoint ((n : ℚ) * ((m - k : ℤ) : ℚ) / size) := by
    intro n
    rw [← turnPoint_add]
    congr 1
    push_cast
    ring
  have same_tone : (size : ℤ) ∣ (m - k : ℤ) ↔ m = k := by
    constructor
    · intro h
      have := Int.eq_zero_of_abs_lt_dvd h (abs_lt.2 (by omega))
      omega
    · rintro rfl
      simp
  simp only [one_turn, sum_turns (Nat.zero_lt_of_lt hm), same_tone]

/-- Kernels `e` and `d` of size `size` that are orthogonal undo each other up to the factor `size`. -/
theorem sum_sum_of_orthogonal {size : ℕ} {e d : ℕ → ℕ → ℂ}
    (orthogonal : ∀ m k, m < size → k < size →
      ∑ n ∈ Finset.range size, e m n * d k n = if m = k then (size : ℂ) else 0)
    (x : ℕ → ℂ) {k : ℕ} (hk : k < size) :
    ∑ n ∈ Finset.range size, (∑ m ∈ Finset.range size, x m * e m n) * d k n = (size : ℂ) * x k := by
  calc ∑ n ∈ Finset.range size, (∑ m ∈ Finset.range size, x m * e m n) * d k n
      = ∑ m ∈ Finset.range size, x m * ∑ n ∈ Finset.range size, e m n * d k n := by
        simp only [Finset.sum_mul, Finset.mul_sum, mul_assoc]
        exact Finset.sum_comm
    _ = ∑ m ∈ Finset.range size, x m * if m = k then (size : ℂ) else 0 :=
        Finset.sum_congr rfl fun m hm => by rw [orthogonal m k (Finset.mem_range.1 hm) hk]
    _ = (size : ℂ) * x k := by simp [hk, mul_comm]

theorem forwardTransform_inverseTransform {size k : ℕ} (x : ℕ → ℂ) (hk : k < size) :
    forwardTransform size (inverseTransform size x) k = x k := by
  have size_ne : (size : ℂ) ≠ 0 := Nat.cast_ne_zero.2 (by omega)
  have undone := sum_sum_of_orthogonal (fun _ _ => tones_orthogonal) x hk
  simp only [forwardTransform_eq_sum_turns, inverseTransform_eq_sum_turns, mul_assoc, ← Finset.mul_sum]
  rw [undone, one_div, inv_mul_cancel_left₀ size_ne]

theorem inverseTransform_forwardTransform {size n : ℕ} (x : ℕ → ℂ) (hn : n < size) :
    inverseTransform size (forwardTransform size x) n = x n := by
  have size_ne : (size : ℂ) ≠ 0 := Nat.cast_ne_zero.2 (by omega)
  have orthogonal : ∀ m l, m < size → l < size → ∑ k ∈ Finset.range size,
      turnPoint (-((k : ℚ) * m / size)) * turnPoint ((k : ℚ) * l / size) = if m = l then (size : ℂ) else 0 := by
    intro m l hm hl
    simpa only [mul_comm, eq_comm] using tones_orthogonal hl hm
  rw [inverseTransform_eq_sum_turns]
  simp only [forwardTransform_eq_sum_turns]
  rw [sum_sum_of_orthogonal orthogonal x hn, one_div, inv_mul_cancel_left₀ size_ne]

section

variable {size : ℕ} {xs : List Cx} (hl : xs.length = size) (canonical : ∀ x ∈ xs, x.canonical = true)
include hl canonical

/-- The forward transform undoes the inverse one, as data (R142). -/
theorem dft_idft : dft size (idft size xs) = xs := by
  refine list_eq_of_value (canonical_dft _ _) canonical (by rw [dft_length, hl]) fun k hk => ?_
  rw [dft_length] at hk
  rw [valueAt_dft _ hk, forwardTransform_congr (fun n hn => valueAt_idft xs hn), forwardTransform_inverseTransform _ hk]

/-- The inverse transform undoes the forward one, as data (R142). -/
theorem idft_dft : idft size (dft size xs) = xs := by
  refine list_eq_of_value (canonical_idft _ _) canonical (by rw [idft_length, hl]) fun n hn => ?_
  rw [idft_length] at hn
  rw [valueAt_idft _ hn, inverseTransform_congr (fun k hk => valueAt_dft xs hk), inverseTransform_forwardTransform _ hn]

end

/-! The guard interval (R145, R149) -/

theorem guardInsert_of_ng_zero {f : Frame} {x : List Cx} (hx : x.length = f.size) (hg : f.ng = 0) :
    guardInsert f x = x := by
  have no_guard : f.guardLen = 0 := by rw [Frame.guardLen, hg]; rfl
  unfold guardInsert
  cases f.gtype <;> simp [no_guard, ← hx]

theorem guardRemove_guardInsert {f : Frame} {x : List Cx} (hx : x.length = f.size)
    (hg : f.gtype ≠ .zeroPad → f.ng.toNat ≤ f.nsc.toNat) : guardRemove f (guardInsert f x) = x := by
  unfold guardRemove guardInsert
  cases ht : f.gtype with
  | zeroPad => exact List.drop_left' List.length_replicate
  | cyclicPrefix =>
    have guard_le : f.guardLen ≤ f.size := hg (by simp [ht])
    exact List.drop_left' (by rw [List.length_drop, hx, Nat.sub_sub_self guard_le])
  | cyclicSuffix => exact List.take_left' hx

/-- Guard removal keeps the N samples after those it drops before the block (R149). -/
theorem elemAt_guardRemove (f : Frame) (y : List Cx) {n : ℕ} (hn : n < f.size) :
    elemAt (guardRemove f y) n = elemAt y (guardBefore f.gtype f.guardLen + n) := by
  unfold guardRemove guardBefore
  cases f.gtype <;> simp [elemAt, List.getD_eq_getElem?_getD, List.getElem?_take_of_lt, hn]

/-! Blocks (R7) -/

/-- Piece q of a sequence made of blocks of length t is block q. -/
theorem piece_flatMap_range {α : Type} {f : ℕ → List α} {t n : ℕ} (hf : ∀ q, q < n → (f q).length = t) {q : ℕ}
    (hq : q < n) : piece ((List.range n).flatMap f) (q * t) t = f q := by
  have within : q * t + t ≤ ((List.range n).flatMap f).length := by
    rw [flatMap_range_length f t n hf, ← Nat.succ_mul]
    exact Nat.mul_le_mul_right t hq
  have piece_len := piece_length _ _ _ within
  refine List.ext_getElem? fun j => ?_
  by_cases hj : j < t
  · rw [piece_get? _ _ _ _ hj, flatMap_range_get? f t n hf hq hj]
  · rw [List.getElem?_eq_none (by omega), List.getElem?_eq_none (by rw [hf q hq]; omega)]

theorem mul_add_le_of_lt_div {q n l : ℕ} (hq : q < l / n) : q * n + n ≤ l := by
  rw [← Nat.succ_mul]
  exact (Nat.mul_le_mul_right n hq).trans (Nat.div_mul_le_self l n)

/-- A sequence of whole blocks is its pieces in order. -/
theorem flatMap_piece {α : Type} {xs : List α} {n : ℕ} (hn : n ≠ 0) (hl : xs.length % n = 0) :
    ((List.range (xs.length / n)).flatMap fun q => piece xs (q * n) n) = xs := by
  have block_len : ∀ q, q < xs.length / n → (piece xs (q * n) n).length = n :=
    fun q hq => piece_length _ _ _ (mul_add_le_of_lt_div hq)
  have whole : xs.length / n * n = xs.length := Nat.div_mul_cancel (Nat.dvd_of_mod_eq_zero hl)
  have len_eq := (flatMap_range_length _ n _ block_len).trans whole
  refine List.ext_getElem? fun i => ?_
  by_cases hi : i < xs.length
  · have in_block : i % n < n := Nat.mod_lt i (Nat.pos_of_ne_zero hn)
    have block : i / n < xs.length / n := Nat.div_lt_div_of_lt_of_dvd (Nat.dvd_of_mod_eq_zero hl) hi
    have same := flatMap_range_get? _ n _ block_len block in_block
    rwa [piece_get? _ _ _ _ in_block, Nat.div_add_mod'] at same
  · rw [List.getElem?_eq_none (by omega), List.getElem?_eq_none (by omega)]

/-! Frames (R144, R148, R151) -/

/-- Sample `q*T + n` of the frames is sample n of the guarded inverse transform of block q. -/
theorem valueAt_framed {f : Frame} {xs : List Cx} (hg : f.gtype ≠ .zeroPad → f.ng.toNat ≤ f.nsc.toNat) {q n : ℕ}
    (hq : q < xs.length / f.size) (hn : n < f.block) :
    valueAt (framed f xs) (q * f.block + n) = frameSample f.gtype f.size f.guardLen
      (inverseTransform f.size fun k => valueAt xs (q * f.size + k)) n := by
  rw [valueAt, elemAt_framed hg hq hn, ← valueAt, sample_guardInsert (idft_length _ _) hg hn]
  refine frameSample_congr (size := f.size) (guard := f.guardLen) (fun m hm => ?_) hg hn
  rw [valueAt_idft _ hm, inverseTransform_congr fun k hk => valueAt_piece xs (q * f.size) f.size k hk]

/-- Bin `q*N + k` of the blocks is bin k of the forward transform of what guard removal keeps of block q. -/
theorem valueAt_deframed {f : Frame} {ys : List Cx} {q k : ℕ} (hq : q < ys.length / f.block) (hk : k < f.size) :
    valueAt (deframed f ys) (q * f.size + k) = forwardTransform f.size
      (fun n => valueAt ys (q * f.block + (guardBefore f.gtype f.guardLen + n))) k := by
  rw [valueAt, elemAt_deframed hq hk, value_dftAt]
  refine forwardTransform_congr (fun n hn => ?_) k
  rw [sample_guardRemove f _ hn, valueAt_piece _ _ _ _ (guardBefore_add_lt f hn)]

/-- The deframer undoes the framer, block by block (R151). -/
theorem deframed_framed {f : Frame} {xs : List Cx} (hn : f.size ≠ 0)
    (hg : f.gtype ≠ .zeroPad → f.ng.toNat ≤ f.nsc.toNat) (canonical : ∀ x ∈ xs, x.canonical = true)
    (hl : xs.length % f.size = 0) : deframed f (framed f xs) = xs := by
  have block_pos : 0 < f.block := Nat.add_pos_left (Nat.pos_of_ne_zero hn) _
  have block_count : (framed f xs).length / f.block = xs.length / f.size := by
    rw [framed_length xs hg, Nat.mul_div_cancel _ block_pos]
  have block_back : ∀ q ∈ List.range (xs.length / f.size),
      dft f.size (guardRemove f (piece (framed f xs) (q * f.block) f.block)) = piece xs (q * f.size) f.size := by
    intro q hq
    have hq := List.mem_range.1 hq
    rw [framed, piece_flatMap_range (fun _ _ => guardInsert_length (idft_length _ _) hg) hq,
      guardRemove_guardInsert (idft_length _ _) hg,
      dft_idft (piece_length _ _ _ (mul_add_le_of_lt_div hq)) fun x hx => canonical x (mem_piece hx)]
  rw [deframed, block_count, List.flatMap_congr block_back, flatMap_piece hn hl]

/-! `OFTX` and `OFRX`, by the first check that fails (R144, R148, R205) -/

section

variable {c : CoreState} {rd rs1 : BufIdx}

theorem needFrame_of_ne_none (hc : c.frame ≠ none) : ∃ f, c.needFrame = .ok f := by
  obtain ⟨f, hf⟩ := Option.ne_none_iff_exists'.1 hc
  exact ⟨f, needFrame_ok_iff.2 hf⟩

theorem oftxRule_notConfigured (hc : c.frame = none) : oftxRule rd rs1 c = .error ⟨.notConfigured, 2⟩ := by
  rw [oftxRule, needFrame_error_iff.2 ⟨hc, rfl⟩, error_bind]

theorem oftxRule_badOperand (hc : c.frame ≠ none) (hx : ∀ xs, c.bufs[rs1] ≠ .cplx xs) :
    oftxRule rd rs1 c = .error ⟨.badOperand, 1⟩ := by
  obtain ⟨f, hf⟩ := needFrame_of_ne_none hc
  rw [oftxRule, hf, ok_bind, sourceCplx_error_iff.2 ⟨hx, rfl⟩, error_bind]

theorem ofrxRule_notConfigured (hc : c.frame = none) : ofrxRule rd rs1 c = .error ⟨.notConfigured, 2⟩ := by
  rw [ofrxRule, needFrame_error_iff.2 ⟨hc, rfl⟩, error_bind]

theorem ofrxRule_badOperand (hc : c.frame ≠ none) (hy : ∀ ys, c.bufs[rs1] ≠ .cplx ys) :
    ofrxRule rd rs1 c = .error ⟨.badOperand, 1⟩ := by
  obtain ⟨f, hf⟩ := needFrame_of_ne_none hc
  rw [ofrxRule, hf, ok_bind, sourceCplx_error_iff.2 ⟨hy, rfl⟩, error_bind]

variable {f : Frame} {xs : List Cx} (hc : c.frame = some f) (hx : c.bufs[rs1] = .cplx xs)
include hc hx

theorem oftxRule_misaligned (hl : xs.length % f.size ≠ 0) :
    oftxRule rd rs1 c = .error ⟨.misalignedSymbolLength, xs.length⟩ := by
  rw [oftxRule, needFrame_ok_iff.2 hc, ok_bind, sourceCplx_ok_iff.2 hx, ok_bind, require_of_not hl, error_bind]

theorem oftxRule_capacityExceeded (hl : xs.length % f.size = 0)
    (hfit : Config.fitsCap (xs.length / f.size * f.block) = false) :
    oftxRule rd rs1 c = .error ⟨.capacityExceeded, xs.length / f.size * f.block⟩ := by
  rw [oftxRule, needFrame_ok_iff.2 hc, ok_bind, sourceCplx_ok_iff.2 hx, ok_bind, require_of hl, ok_bind,
    require_of_not (by simp [hfit]), error_bind]

theorem oftxRule_frames (hl : xs.length % f.size = 0)
    (hfit : Config.fitsCap (xs.length / f.size * f.block) = true) :
    oftxRule rd rs1 c = .ok (c.writeBuf rd (.cplx (framed f xs))) := by
  rw [oftxRule, needFrame_ok_iff.2 hc, ok_bind, sourceCplx_ok_iff.2 hx, ok_bind, require_of hl, ok_bind,
    require_of hfit, ok_bind, pure_ok]

theorem ofrxRule_deframes : ofrxRule rd rs1 c = .ok (c.writeBuf rd (.cplx (deframed f xs))) := by
  rw [ofrxRule, needFrame_ok_iff.2 hc, ok_bind, sourceCplx_ok_iff.2 hx, ok_bind, pure_ok]

end

end Sys2Proof.Machine

namespace Sys2Proof

open Machine

/-- Settles O30: the machine's sum is that of R141 (`valueAt_idft`). -/
theorem inverseTransform : Obligations.InverseTransform := by
  unfold Obligations.InverseTransform
  exact fun size xs => ⟨idft_length size xs, fun n hn => valueAt_idft xs hn⟩

/-- Settles O31: the machine's sum is that of R142 (`valueAt_dft`). -/
theorem forwardTransform : Obligations.ForwardTransform := by
  unfold Obligations.ForwardTransform
  exact fun size xs => ⟨dft_length size xs, fun k hk => valueAt_dft xs hk⟩

/-- Settles O32: the tones of a block are orthogonal (`tones_orthogonal`), and equal numbers are equal data. -/
theorem transformsInvertEachOther : Obligations.TransformsInvertEachOther := by
  unfold Obligations.TransformsInvertEachOther
  exact fun size xs _ hl canonical => ⟨dft_idft hl canonical, idft_dft hl canonical⟩

/-- Settles O33 by the samples of each type (`sample_guardInsert`). -/
theorem guardInsertion : Obligations.GuardInsertion := by
  unfold Obligations.GuardInsertion
  exact fun f x hx hg =>
    ⟨guardInsert_length hx hg, fun n hn => sample_guardInsert hx hg hn, guardInsert_of_ng_zero hx⟩

/-- Settles O34: removal drops exactly the guard, of a frame and of any block of T samples. -/
theorem guardRemoval : Obligations.GuardRemoval := by
  unfold Obligations.GuardRemoval
  exact fun f hg =>
    ⟨fun x hx => guardRemove_guardInsert hx hg, fun y hy => ⟨guardRemove_length hy, fun n hn => elemAt_guardRemove f y hn⟩⟩

/-- Settles O35 by the first check that fails; past them all, the samples are those of the frames (`valueAt_framed`). -/
theorem oftxCommand : Obligations.OftxCommand := by
  unfold Obligations.OftxCommand
  intro rd rs1 s hf
  refine ⟨?word, fun f xs hc hn hg hx hl hfit => ?framed,
    fun hc => exec_error (i := .oftx rd rs1) hf (oftxRule_notConfigured hc),
    fun hc hx => exec_error (i := .oftx rd rs1) hf (oftxRule_badOperand hc hx),
    fun f xs hc hx hl => exec_error (i := .oftx rd rs1) hf (oftxRule_misaligned hc hx hl),
    fun f xs hc hx hl hfit => exec_error (i := .oftx rd rs1) hf (oftxRule_capacityExceeded hc hx hl hfit)⟩
  case word => simpa [Instr.opcode, Instr.fields] using (Laws.EncodeOpcode.oftx rd rs1).1
  case framed =>
    exact ⟨_, exec_completed (i := .oftx rd rs1) hf (oftxRule_frames hc hx hl (fitsCap_of_le_64_or hfit)) rfl,
      framed_length xs hg, fun q n hq hn => valueAt_framed hg hq hn⟩

/-- Settles O36 by the first check that fails; past them all, the bins are those of the blocks (`valueAt_deframed`). -/
theorem ofrxCommand : Obligations.OfrxCommand := by
  unfold Obligations.OfrxCommand
  intro rd rs1 s hf
  refine ⟨?word, fun f y hc _ hy => ?deframed,
    fun hc => exec_error (i := .ofrx rd rs1) hf (ofrxRule_notConfigured hc),
    fun hc hy => exec_error (i := .ofrx rd rs1) hf (ofrxRule_badOperand hc hy)⟩
  case word => simpa [Instr.opcode, Instr.fields] using (Laws.EncodeOpcode.ofrx rd rs1).1
  case deframed =>
    exact ⟨_, exec_completed (i := .ofrx rd rs1) hf (ofrxRule_deframes hc hy) rfl, deframed_length f y,
      fun q k hq hk => valueAt_deframed hq hk⟩

/-- Settles O37: both commands complete, and the deframer undoes the framer (`deframed_framed`). -/
theorem ofdmRoundTrip : Obligations.OfdmRoundTrip := by
  unfold Obligations.OfdmRoundTrip
  intro ra rb rs1 s f xs hf hc hn hg hx canonical hl hfit
  have frame_kept : (s.core.writeBuf ra (.cplx (framed f xs))).done.frame = some f := hc
  have samples : (s.core.writeBuf ra (.cplx (framed f xs))).done.bufs[ra] = .cplx (framed f xs) :=
    CoreState.writeBuf_get_same _ _ _
  have deframes := ofrxRule_deframes (rd := rb) frame_kept samples
  rw [deframed_framed hn hg canonical hl] at deframes
  exact ⟨_, _, exec_ok (i := .oftx ra rs1) hf (oftxRule_frames hc hx hl (fitsCap_of_le_64_or hfit)),
    exec_ok (i := .ofrx rb ra) hf deframes, CoreState.writeBuf_get_same _ _ _, hf⟩

end Sys2Proof

/-! Family 43_estimate_equalize: the unit gain of `CHEST`, the division of `EQ` and what undoes it, both commands check by
check, and `RXCHAIN` as its three commands (R160 to R169). -/

namespace Sys2Proof.Machine

/-! `CHEST`, by the first check that fails (R160, R205) -/

section

variable {c : CoreState} {rd rs1 : BufIdx}

theorem chestRule_badOperand (hx : ∀ d, c.bufs[rs1] ≠ .cplx d) : chestRule rd rs1 c = .error ⟨.badOperand, 1⟩ := by
  rw [chestRule, sourceCplx_error_iff.2 ⟨hx, rfl⟩, error_bind]

variable {d : List Cx} (hx : c.bufs[rs1] = .cplx d)
include hx

theorem chestRule_invalidParameter (he : 1 < c.staging.estsel.toNat) :
    chestRule rd rs1 c = .error ⟨.invalidParameter, 12⟩ := by
  simp only [chestRule, sourceCplx_ok_iff.2 hx, ok_bind, require_of_not (Nat.not_le.2 he), error_bind]

/-- Strategy 1 gives a scalar (R161). -/
theorem chestRule_scalar (he : c.staging.estsel.toNat = 1) :
    chestRule rd rs1 c = .ok (c.writeBuf rd (.cplx [Cx.one])) := by
  simp only [chestRule, sourceCplx_ok_iff.2 hx, ok_bind, he, require_of le_rfl, if_neg one_ne_zero, pure_ok]

section

variable (he : c.staging.estsel.toNat = 0)
include he

/-- Under strategy 0, a frame that fits is all that is left to check. -/
theorem chestRule_of_estsel_zero :
    chestRule rd rs1 c = c.needFrame >>= fun f => require (Config.fitsCap f.size = true) ⟨.capacityExceeded, f.size⟩ >>=
      fun _ => .ok (c.writeBuf rd (.cplx (List.replicate f.size Cx.one))) := by
  simp only [chestRule, sourceCplx_ok_iff.2 hx, ok_bind, he, require_of zero_le_one, if_true, pure_ok]

theorem chestRule_notConfigured (hc : c.frame = none) : chestRule rd rs1 c = .error ⟨.notConfigured, 2⟩ := by
  rw [chestRule_of_estsel_zero hx he, needFrame_error_iff.2 ⟨hc, rfl⟩, error_bind]

variable {f : Frame} (hc : c.frame = some f)
include hc

theorem chestRule_capacityExceeded (hfit : Config.fitsCap f.size = false) :
    chestRule rd rs1 c = .error ⟨.capacityExceeded, f.size⟩ := by
  rw [chestRule_of_estsel_zero hx he, needFrame_ok_iff.2 hc, ok_bind, require_of_not (by simp [hfit]), error_bind]

/-- Strategy 0 gives one element a tone (R161). -/
theorem chestRule_perTone (hfit : Config.fitsCap f.size = true) :
    chestRule rd rs1 c = .ok (c.writeBuf rd (.cplx (List.replicate f.size Cx.one))) := by
  rw [chestRule_of_estsel_zero hx he, needFrame_ok_iff.2 hc, ok_bind, require_of hfit, ok_bind]

end

/-- Either strategy writes a gain of ones, of a length `EQ` takes for a scalar or for the latched frame (R160). -/
theorem chestRule_unitGain {f : Frame} (he : c.staging.estsel.toNat ≤ 1) (hc : c.frame = some f)
    (hfit : Config.fitsCap f.size = true) :
    ∃ g, chestRule rd rs1 c = .ok (c.writeBuf rd (.cplx g)) ∧ (∀ h ∈ g, h = Cx.one) ∧
      (g.length = 1 ∨ g.length = f.size) := by
  rcases Nat.le_one_iff_eq_zero_or_eq_one.1 he with perTone | scalar
  · exact ⟨_, chestRule_perTone hx perTone hc hfit, fun _ => List.eq_of_mem_replicate, .inr List.length_replicate⟩
  · exact ⟨_, chestRule_scalar hx scalar, fun _ => List.eq_of_mem_singleton, .inl rfl⟩

end

/-! The quotients of `EQ` (R164) and what undoes them (R166) -/

theorem valueAt_equalized (n : ℕ) (z g : List Cx) {i : ℕ} (hi : i < z.length) :
    valueAt (equalized n z g) i = valueAt z i / valueAt g (i % n) := by
  simp [equalized, valueAt, elemAt, List.getD_eq_getElem?_getD, hi]

/-- `EQ` gives back the factors `xs` of the products `z`, as data, where no gain is 0 (R166). -/
theorem equalized_of_products {n : ℕ} {z xs g : List Cx} (canonical : ∀ x ∈ xs, x.canonical = true)
    (hl : z.length = xs.length) (hn : n ≠ 0) (no_zero : ∀ k, k < n → valueAt g k ≠ 0)
    (product : ∀ i, i < xs.length → valueAt z i = valueAt xs i * valueAt g (i % n)) : equalized n z g = xs := by
  refine list_eq_of_value (canonical_equalized _ _ _) canonical (by rw [equalized_length, hl]) fun i hi => ?_
  rw [equalized_length] at hi
  have gain_ne := no_zero (i % n) (Nat.mod_lt i (Nat.pos_of_ne_zero hn))
  rw [valueAt_equalized n z g hi, product i (hl ▸ hi), mul_div_cancel_right₀ _ gain_ne]

/-- An element at an index below the length is an element of the sequence. -/
theorem elemAt_mem {z : List Cx} {i : ℕ} (hi : i < z.length) : elemAt z i ∈ z := by
  rw [elemAt, List.getD_eq_getElem _ _ hi]
  exact List.getElem_mem hi

/-- `EQ` undoes a gain without a zero (R166). -/
theorem equalized_products {xs g : List Cx} (canonical : ∀ x ∈ xs, x.canonical = true)
    (gain : ∀ h ∈ g, h.canonical = true ∧ h ≠ Cx.zero) (hn : g.length ≠ 0) :
    equalized g.length ((List.range xs.length).map fun (i : ℕ) => Cx.mul (elemAt xs i) (elemAt g (i % g.length))) g =
      xs := by
  refine equalized_of_products canonical (by simp) hn (fun k hk => ?_) fun i hi => ?_
  · obtain ⟨canonical_gain, gain_ne⟩ := gain _ (elemAt_mem hk)
    exact fun value_zero => gain_ne ((value_eq_zero_iff canonical_gain).1 value_zero)
  · simp [valueAt, elemAt, List.getD_eq_getElem?_getD, hi]

/-- A unit gain leaves the symbols as they are (R166). -/
theorem equalized_unitGain {xs g : List Cx} (canonical : ∀ x ∈ xs, x.canonical = true) (unit : ∀ h ∈ g, h = Cx.one)
    (hn : g.length ≠ 0) : equalized g.length xs g = xs := by
  have valueAt_gain : ∀ k, k < g.length → valueAt g k = 1 := fun k hk => by
    rw [valueAt, unit _ (elemAt_mem hk), value_one]
  refine equalized_of_products canonical rfl hn (fun k hk => ?_) fun i _ => ?_
  · rw [valueAt_gain k hk]
    exact one_ne_zero
  · rw [valueAt_gain _ (Nat.mod_lt i (Nat.pos_of_ne_zero hn)), mul_one]

theorem zero_notMem_of_unitGain {g : List Cx} (unit : ∀ h ∈ g, h = Cx.one) : Cx.zero ∉ g :=
  fun h => absurd (unit _ h) (by decide)

/-! `EQ`, by the first check that fails (R164, R205) -/

/-- A gain of n elements serves the symbols z: as a scalar, or one a tone of whole blocks of the latched frame (R165). -/
def GainFits (c : CoreState) (z : List Cx) (n : ℕ) : Prop :=
  n = 1 ∨ ∃ f, c.frame = some f ∧ n = f.size ∧ z.length % n = 0

/-- The least index of a zero gain is the one recorded (R164, R167). -/
theorem requireGain_divideByZero {z g : List Cx} {k : ℕ} (hz : z ≠ []) (hk : g[k]? = some Cx.zero)
    (least : ∀ j, j < k → g[j]? ≠ some Cx.zero) : requireGain z g = .error ⟨.divideByZero, k⟩ := by
  have first : g.findIdx? (fun x => x = Cx.zero) = some k := by
    obtain ⟨hk, gain_zero⟩ := List.getElem?_eq_some_iff.1 hk
    refine List.findIdx?_eq_some_iff_getElem.2 ⟨hk, by simpa using gain_zero, fun j hj => ?_⟩
    have hne := least j hj
    rw [List.getElem?_eq_getElem (hj.trans hk)] at hne
    simpa using hne
  rw [requireGain, first]
  exact require_of_not (mt List.length_eq_zero_iff.1 hz) _

section

variable {c : CoreState} {rd rs1 rs2 : BufIdx}

theorem eqRule_badSymbols (hz : ∀ z, c.bufs[rs1] ≠ .cplx z) : eqRule rd rs1 rs2 c = .error ⟨.badOperand, 1⟩ := by
  rw [eqRule, sourceCplx_error_iff.2 ⟨hz, rfl⟩, error_bind]

variable {z : List Cx} (hz : c.bufs[rs1] = .cplx z)
include hz

theorem eqRule_badGain (hg : ∀ g, c.bufs[rs2] ≠ .cplx g) : eqRule rd rs1 rs2 c = .error ⟨.badOperand, 2⟩ := by
  rw [eqRule, sourceCplx_ok_iff.2 hz, ok_bind, sourceCplx_error_iff.2 ⟨hg, rfl⟩, error_bind]

variable {g : List Cx} (hg : c.bufs[rs2] = .cplx g)
include hg

section

variable (vector : g.length ≠ 1)
include vector

theorem eqRule_notConfigured (hc : c.frame = none) : eqRule rd rs1 rs2 c = .error ⟨.notConfigured, 2⟩ := by
  rw [eqRule, sourceCplx_ok_iff.2 hz, ok_bind, sourceCplx_ok_iff.2 hg, ok_bind, if_neg vector,
    needFrame_error_iff.2 ⟨hc, rfl⟩, error_bind]

variable {f : Frame} (hc : c.frame = some f)
include hc

theorem eqRule_gainMismatch (hn : g.length ≠ f.size) :
    eqRule rd rs1 rs2 c = .error ⟨.dimensionMismatch, g.length⟩ := by
  rw [eqRule, sourceCplx_ok_iff.2 hz, ok_bind, sourceCplx_ok_iff.2 hg, ok_bind, if_neg vector, needFrame_ok_iff.2 hc,
    ok_bind, require_of_not hn, error_bind]

theorem eqRule_symbolsMismatch (hn : g.length = f.size) (hl : z.length % f.size ≠ 0) :
    eqRule rd rs1 rs2 c = .error ⟨.dimensionMismatch, z.length⟩ := by
  rw [eqRule, sourceCplx_ok_iff.2 hz, ok_bind, sourceCplx_ok_iff.2 hg, ok_bind, if_neg vector, needFrame_ok_iff.2 hc,
    ok_bind, require_of hn, ok_bind, require_of_not hl, error_bind]

end

variable (fits : GainFits c z g.length)
include fits

/-- Once the gain fits, its zeros are all that is left to check. -/
theorem eqRule_of_gainFits :
    eqRule rd rs1 rs2 c = requireGain z g >>= fun _ => .ok (c.writeBuf rd (.cplx (equalized g.length z g))) := by
  rw [eqRule, sourceCplx_ok_iff.2 hz, ok_bind, sourceCplx_ok_iff.2 hg, ok_bind]
  by_cases scalar : g.length = 1
  · rw [if_pos scalar, scalar]
    rfl
  · obtain ⟨f, hc, hn, hl⟩ := fits.resolve_left scalar
    rw [if_neg scalar, needFrame_ok_iff.2 hc, ok_bind, require_of hn, ok_bind, require_of (hn ▸ hl), ok_bind, hn]
    rfl

theorem eqRule_divideByZero {k : ℕ} (some_symbol : z ≠ []) (hk : g[k]? = some Cx.zero)
    (least : ∀ j, j < k → g[j]? ≠ some Cx.zero) : eqRule rd rs1 rs2 c = .error ⟨.divideByZero, k⟩ := by
  rw [eqRule_of_gainFits hz hg fits, requireGain_divideByZero some_symbol hk least, error_bind]

theorem eqRule_divides (divisible : z = [] ∨ Cx.zero ∉ g) :
    eqRule rd rs1 rs2 c = .ok (c.writeBuf rd (.cplx (equalized g.length z g))) := by
  rw [eqRule_of_gainFits hz hg fits,
    requireGain_ok_iff (u := ()).2 (divisible.imp_left List.length_eq_zero_iff.2), ok_bind]

end

/-! A host script of commands (R31, R219) -/

theorem run_succ_of_step {M : Host.Core} {s t : M.State} {k : ℕ} (h : M.step s = .next t) :
    M.run (k + 1) s = M.run k t := by
  rw [Host.Core.run, h]

section

variable (c : CoreState) (replies : List HostReply)

theorem runScript_nil : runScript ⟨c, [], replies⟩ = .next ⟨c, [], replies⟩ := rfl

/-- A command that completes leaves the rest of the script to run from the core it leaves. -/
theorem runScript_command {i : Instr} {rest : List HostEvent} {c' : CoreState} (hf : c.fault = none)
    (hr : ruleOf i c = .ok c') :
    runScript ⟨c, scriptCommand i :: rest, replies⟩ = runScript ⟨c'.done, rest, replies ++ [.completed]⟩ := by
  have executed : step ⟨c, scriptCommand i :: rest, replies⟩ = exec i ⟨c, rest, replies ++ [.completed]⟩ :=
    (step_command rfl).trans (issue_decoded hf (decode_ok_iff_encode.2 rfl))
  exact run_succ_of_step (executed.trans (exec_ok hf hr))

end

end Sys2Proof.Machine

namespace Sys2Proof

open Machine

/-- Settles O38 by the first check that fails; past them all, the gain is one at each tone or one alone. -/
theorem chestCommand : Obligations.ChestCommand := by
  unfold Obligations.ChestCommand
  intro rd rs1 s hf
  refine ⟨?word, fun d f hx he hc hfit => ?perTone, fun d hx he => ?scalar,
    fun hx => exec_error (i := .chest rd rs1) hf (chestRule_badOperand hx),
    fun d hx he => exec_error (i := .chest rd rs1) hf (chestRule_invalidParameter hx he),
    fun d hx he hc => exec_error (i := .chest rd rs1) hf (chestRule_notConfigured hx (by simp [he]) hc),
    fun d f hx he hc hfit => ?capacityExceeded⟩
  case word => simpa [Instr.opcode, Instr.fields] using (Laws.EncodeOpcode.chest rd rs1).1
  case perTone =>
    have fits : Config.fitsCap f.size = true := fitsCap_of_le_64_or hfit
    refine ⟨_, exec_completed (i := .chest rd rs1) hf (chestRule_perTone hx (by simp [he]) hc fits) rfl,
      List.length_replicate, fun k hk => ?_⟩
    rw [valueAt, List.eq_of_mem_replicate (elemAt_mem (List.length_replicate.symm ▸ hk)), value_one]
  case scalar =>
    exact ⟨_, exec_completed (i := .chest rd rs1) hf (chestRule_scalar hx (by simp [he])) rfl, value_one⟩
  case capacityExceeded =>
    simpa [Frame.size] using exec_error (i := .chest rd rs1) hf (chestRule_capacityExceeded hx (by simp [he]) hc hfit)

/-- Settles O39 by the first check that fails; past them all, the symbols are the quotients (`valueAt_equalized`), and a
gain of one element is at index `i mod 1`. -/
theorem eqCommand : Obligations.EqCommand := by
  unfold Obligations.EqCommand
  intro rd rs1 rs2 s hf
  refine ⟨?word, fun z h hz hg divisible => ?scalar, fun z g f hz hg vector hc hn hl divisible => ?vector,
    fun hz => exec_error (i := .eq rd rs1 rs2) hf (eqRule_badSymbols hz),
    fun z hz hg => exec_error (i := .eq rd rs1 rs2) hf (eqRule_badGain hz hg),
    fun z g hz hg vector hc => exec_error (i := .eq rd rs1 rs2) hf (eqRule_notConfigured hz hg vector hc),
    fun z g f hz hg vector hc hn => exec_error (i := .eq rd rs1 rs2) hf (eqRule_gainMismatch hz hg vector hc hn),
    fun z g f hz hg vector hc hn hl =>
      exec_error (i := .eq rd rs1 rs2) hf (eqRule_symbolsMismatch hz hg vector hc hn hl),
    fun z g k hz hg fits some_symbol hk least => ?zeroGain⟩
  case word => simpa [Instr.opcode, Instr.fields] using (Laws.EncodeOpcode.eq rd rs1 rs2).1
  case scalar =>
    have no_zero : z = [] ∨ Cx.zero ∉ [h] := divisible.imp_right fun hne => by simpa using hne.symm
    refine ⟨_, exec_completed (i := .eq rd rs1 rs2) hf (eqRule_divides hz hg (.inl rfl) no_zero) rfl,
      equalized_length _ _ _, fun i hi => ?_⟩
    rw [valueAt_equalized _ _ _ hi, List.length_singleton, Nat.mod_one]
    rfl
  case vector =>
    have fits : GainFits s.core z g.length := .inr ⟨f, hc, hn, hn ▸ hl⟩
    refine ⟨_, exec_completed (i := .eq rd rs1 rs2) hf (eqRule_divides hz hg fits divisible) rfl,
      equalized_length _ _ _, fun i hi => ?_⟩
    rw [valueAt_equalized _ _ _ hi, hn]
  case zeroGain =>
    have fits : GainFits s.core z g.length := by
      refine (eq_or_ne g.length 1).imp_right fun vector => ?_
      obtain ⟨f, hc, hn, hl⟩ := fits vector
      exact ⟨f, hc, hn, hn ▸ hl⟩
    exact exec_error (i := .eq rd rs1 rs2) hf (eqRule_divideByZero hz hg fits some_symbol hk least)

/-- Settles O40: the command divides (`eqRule_divides`), and equal quotients are equal data. -/
theorem equalizerInvertsGain : Obligations.EqualizerInvertsGain := by
  unfold Obligations.EqualizerInvertsGain
  rintro rd rs1 rs2 s xs g _ hf canonical gain rfl serves hg
  have hn : g.length ≠ 0 := serves.elim (fun scalar => by simp [scalar]) fun ⟨_, _, _, hn, _⟩ => hn
  have fits {z : List Cx} (hl : z.length = xs.length) : GainFits s.core z g.length :=
    serves.imp_right fun ⟨f, hc, hsize, _, hmod⟩ => ⟨f, hc, hsize, hl ▸ hmod⟩
  have no_zero : Cx.zero ∉ g := fun zero_mem => (gain _ zero_mem).2 rfl
  refine ⟨fun hz => ?products, fun hz unit => ?unitGain⟩
  case products =>
    have divides := eqRule_divides (rd := rd) hz hg (fits (by simp)) (.inr no_zero)
    rw [equalized_products canonical gain hn] at divides
    exact exec_completed (i := .eq rd rs1 rs2) hf divides rfl
  case unitGain =>
    have divides := eqRule_divides (rd := rd) hz hg (fits rfl) (.inr no_zero)
    rw [equalized_unitGain canonical unit hn] at divides
    exact exec_completed (i := .eq rd rs1 rs2) hf divides rfl

/-- Settles O41: `OFRX` leaves the bins in the first scratch buffer, where `CHEST`, writing a unit gain to the other,
leaves them, and `EQ` divides them by 1. -/
theorem rxChainIsDeframing : Obligations.RxChainIsDeframing := by
  unfold Obligations.RxChainIsDeframing
  intro rd rs1 rt1 rt2 s t f y hf hc hn hy he hfit hne ht
  have size_ne : f.size ≠ 0 := hn
  set bins := deframed f y
  set c₁ := (s.core.writeBuf rt1 (.cplx bins)).done
  have deframes := ofrxRule_deframes (rd := rt1) hc hy
  have bins₁ : c₁.bufs[rt1] = .cplx bins := CoreState.writeBuf_get_same _ _ _
  obtain ⟨g, estimates, unit, gain_length⟩ := chestRule_unitGain (rd := rt2) bins₁ he hc (fitsCap_of_le_64_or hfit)
  set c₂ := (c₁.writeBuf rt2 (.cplx g)).done
  have bins₂ : c₂.bufs[rt1] = .cplx bins := (CoreState.writeBuf_get_other _ hne.symm _).trans bins₁
  have gain₂ : c₂.bufs[rt2] = .cplx g := CoreState.writeBuf_get_same _ _ _
  have fits : GainFits c₂ bins g.length := gain_length.imp_right fun whole =>
    ⟨f, hc, whole, by rw [whole, deframed_length, Nat.mul_mod_left]⟩
  have equalizes := eqRule_divides (rd := rd) bins₂ gain₂ fits (.inr (zero_notMem_of_unitGain unit))
  rw [equalized_unitGain (canonical_deframed f y) unit (by omega)] at equalizes
  have run := (runScript_command s.core s.replies (i := .ofrx rt1 rs1) hf deframes).trans <|
    (runScript_command c₁ _ (i := .chest rt2 rt1) hf estimates).trans <|
    (runScript_command c₂ _ (i := .eq rd rt1 rt2) hf equalizes).trans (runScript_nil _ _)
  refine ⟨_, run, ?bufs, ?cseq, hf⟩
  case bufs =>
    have alone := exec_ok (i := .ofrx rd rs1) hf (ofrxRule_deframes hc hy)
    cases ht.symm.trans alone
    exact (CoreState.writeBuf_get_same _ _ _).trans (CoreState.writeBuf_get_same _ _ _).symm
  case cseq =>
    change s.core.cseq + 1 + 1 + 1 = s.core.cseq + 3
    rw [BitVec.add_assoc, BitVec.add_assoc]
    rfl

end Sys2Proof

/-! Family 44_correlator: the correlation sequence as the matched filter's output, its peak, `XCORR` check by check, and
the report on a clean preamble (R181 to R192). -/

namespace Sys2Proof.Machine

/-! The matched filter (R183) -/

/-- Substituting `m = M - 1 - n` in the sum of R181 gives that of R183. -/
theorem correlationValue_eq_filterOutput (rx ref : List ℂ) (k : ℕ) :
    correlationValue rx ref k = filterOutput rx ref k := by
  unfold correlationValue filterOutput
  rw [← Finset.sum_range_reflect]
  refine Finset.sum_congr rfl fun n hn => ?_
  have n_lt := Finset.mem_range.1 hn
  rw [show (k : ℤ) - ((ref.length : ℤ) - 1) + ((ref.length - 1 - n : ℕ) : ℤ) = k - n by omega]

/-! The peak of a window (R187) -/

/-- A window that is not empty has a peak: the least index of greatest magnitude. -/
theorem exists_isPeak (c : ℕ → ℂ) {width : ℕ} (h : 1 ≤ width) : ∃ k, IsPeak c width k := by
  classical
  have greatest : ∃ k, k < width ∧ ∀ i, i < width → Complex.normSq (c i) ≤ Complex.normSq (c k) := by
    simpa using (Finset.range width).exists_max_image (fun i => Complex.normSq (c i)) ⟨0, Finset.mem_range.2 h⟩
  obtain ⟨k_lt, k_max⟩ := Nat.find_spec greatest
  refine ⟨Nat.find greatest, k_lt, k_max, fun i hi => lt_of_not_ge fun hge => ?_⟩
  exact Nat.find_min greatest hi ⟨hi.trans k_lt, fun j hj => (k_max j hj).trans hge⟩

theorem isPeak_peakOf (c : ℕ → ℂ) {width : ℕ} (h : 1 ≤ width) : IsPeak c width (peakOf c width) := by
  obtain ⟨k, hk⟩ := exists_isPeak c h
  exact (peakOf_eq hk).symm ▸ hk

/-- An index of greater magnitude than every other is the peak of each window that holds it. -/
theorem isPeak_of_unique_greatest {c : ℕ → ℂ} {width k : ℕ} (hk : k < width)
    (greatest : ∀ i, i ≠ k → Complex.normSq (c i) < Complex.normSq (c k)) : IsPeak c width k := by
  refine ⟨hk, fun i _ => ?_, fun i hi => greatest i hi.ne⟩
  rcases eq_or_ne i k with rfl | hne
  · exact le_rfl
  · exact (greatest i hne).le

/-! The search of either strategy (R185, R186) -/

section

variable {g : Staging} {rx ref : List Cx} (some_reference : ref.length ≠ 0) (long_enough : ref.length ≤ rx.length)
include some_reference long_enough

theorem searchPeak_whole {k : ℕ} (hs : g.syncsel = 0)
    (peak : IsPeak (correlationValue (numbersOf rx) (numbersOf ref)) (rx.length + ref.length - 1) k) :
    searchPeak g (correlation rx ref) ref.length = .ok (k, (k : ℤ) - ref.length) := by
  rw [searchPeak_eq some_reference long_enough, refSearch, if_pos (by simp [hs]), peakOf_eq peak]

section

variable (hs : g.syncsel = 1)
include hs

/-- Strategy 1 is its two checks and the peak of the window. -/
theorem searchPeak_of_grid :
    searchPeak g (correlation rx ref) ref.length =
      require (g.sflen.toNat ≠ 0) ⟨.invalidParameter, 14⟩ >>= fun _ =>
      require (g.srows.toNat ≠ 0 ∧ g.srows.toNat * g.sflen.toNat ≤ rx.length + ref.length - 1) ⟨.invalidParameter, 15⟩ >>=
      fun _ =>
        let k := peakOf (correlationValue (numbersOf rx) (numbersOf ref)) (g.srows.toNat * g.sflen.toNat)
        .ok (k, (k : ℤ)) := by
  rw [searchPeak_eq some_reference long_enough, refSearch, if_neg (by simp [hs])]
  rfl

theorem searchPeak_noRowLength (hf : g.sflen.toNat = 0) :
    searchPeak g (correlation rx ref) ref.length = .error ⟨.invalidParameter, 14⟩ := by
  rw [searchPeak_of_grid some_reference long_enough hs, require_of_not (not_not.2 hf), error_bind]

variable (hf : g.sflen.toNat ≠ 0)
include hf

theorem searchPeak_badRows
    (hr : g.srows.toNat = 0 ∨ rx.length + ref.length - 1 < g.srows.toNat * g.sflen.toNat) :
    searchPeak g (correlation rx ref) ref.length = .error ⟨.invalidParameter, 15⟩ := by
  rw [searchPeak_of_grid some_reference long_enough hs, require_of hf, ok_bind, require_of_not (by omega), error_bind]

theorem searchPeak_window {k : ℕ} (hr : g.srows.toNat ≠ 0)
    (hw : g.srows.toNat * g.sflen.toNat ≤ rx.length + ref.length - 1)
    (peak : IsPeak (correlationValue (numbersOf rx) (numbersOf ref)) (g.srows.toNat * g.sflen.toNat) k) :
    searchPeak g (correlation rx ref) ref.length = .ok (k, (k : ℤ)) := by
  rw [searchPeak_of_grid some_reference long_enough hs, require_of hf, ok_bind, require_of ⟨hr, hw⟩, ok_bind, peakOf_eq peak]

end

end

/-! `XCORR`, by the first check that fails (R184, R205) -/

/-- What `XCORR` does past the checks of its operands: the search, and the report of the peak it finds (R184). -/
def searchAndReport (rd : BufIdx) (rx ref ev : List Cx) : Rule := fun c => do
  let (k, off) ← searchPeak c.staging (correlation rx ref) ref.length
  require (-(2 ^ 31) ≤ off ∧ off ≤ 2 ^ 31 - 1) ⟨.capacityExceeded, k⟩
  require (elemAt (correlation rx ref) k ≠ Cx.zero) ⟨.divideByZero, k⟩
  pure { c.writeBuf rd (.cplx [Cx.div (elemAt ev 0) (elemAt (correlation rx ref) k)]) with
    syncoff := BitVec.ofInt 32 off, svalid := true }

section

variable {c : CoreState} {rd rs1 rs2 rs3 : BufIdx}

theorem xcorrRule_badStream (hx : ∀ z, c.bufs[rs1] ≠ .cplx z) :
    xcorrRule rd rs1 rs2 rs3 c = .error ⟨.badOperand, 1⟩ := by
  rw [xcorrRule, sourceCplx_error_iff.2 ⟨hx, rfl⟩, error_bind]

variable {rx : List Cx} (hx : c.bufs[rs1] = .cplx rx)
include hx

theorem xcorrRule_badReference (hr : ∀ z, c.bufs[rs2] ≠ .cplx z) :
    xcorrRule rd rs1 rs2 rs3 c = .error ⟨.badOperand, 2⟩ := by
  rw [xcorrRule, sourceCplx_ok_iff.2 hx, ok_bind, sourceCplx_error_iff.2 ⟨hr, rfl⟩, error_bind]

variable {ref : List Cx} (hr : c.bufs[rs2] = .cplx ref)
include hr

theorem xcorrRule_badEnergy (he : ∀ z, c.bufs[rs3] ≠ .cplx z) :
    xcorrRule rd rs1 rs2 rs3 c = .error ⟨.badOperand, 3⟩ := by
  rw [xcorrRule, sourceCplx_ok_iff.2 hx, ok_bind, sourceCplx_ok_iff.2 hr, ok_bind,
    sourceCplx_error_iff.2 ⟨he, rfl⟩, error_bind]

variable {ev : List Cx} (he : c.bufs[rs3] = .cplx ev)
include he

/-- Past the kinds of the sources, the checks of `SYNCSEL` and of the lengths are left, and the search. -/
theorem xcorrRule_of_sources :
    xcorrRule rd rs1 rs2 rs3 c =
      require (c.staging.syncsel.toNat ≤ 1) ⟨.invalidParameter, 13⟩ >>= fun _ =>
      require (ev.length = 1) ⟨.badOperand, 3⟩ >>= fun _ =>
      require (ref.length ≠ 0) ⟨.badOperand, 2⟩ >>= fun _ =>
      require (ref.length ≤ rx.length) ⟨.insufficientSamples, rx.length⟩ >>= fun _ => searchAndReport rd rx ref ev c := by
  rw [xcorrRule, sourceCplx_ok_iff.2 hx, ok_bind, sourceCplx_ok_iff.2 hr, ok_bind, sourceCplx_ok_iff.2 he, ok_bind]
  rfl

theorem xcorrRule_badStrategy (hs : 1 < c.staging.syncsel.toNat) :
    xcorrRule rd rs1 rs2 rs3 c = .error ⟨.invalidParameter, 13⟩ := by
  rw [xcorrRule_of_sources hx hr he, require_of_not (Nat.not_le.2 hs), error_bind]

variable (hs : c.staging.syncsel.toNat ≤ 1)
include hs

theorem xcorrRule_energyLength (hl : ev.length ≠ 1) : xcorrRule rd rs1 rs2 rs3 c = .error ⟨.badOperand, 3⟩ := by
  rw [xcorrRule_of_sources hx hr he, require_of hs, ok_bind, require_of_not hl, error_bind]

variable (hl : ev.length = 1)
include hl

theorem xcorrRule_emptyReference (h0 : ref.length = 0) : xcorrRule rd rs1 rs2 rs3 c = .error ⟨.badOperand, 2⟩ := by
  rw [xcorrRule_of_sources hx hr he, require_of hs, ok_bind, require_of hl, ok_bind, require_of_not (not_not.2 h0),
    error_bind]

theorem xcorrRule_insufficientSamples (h0 : ref.length ≠ 0) (h1 : rx.length < ref.length) :
    xcorrRule rd rs1 rs2 rs3 c = .error ⟨.insufficientSamples, rx.length⟩ := by
  rw [xcorrRule_of_sources hx hr he, require_of hs, ok_bind, require_of hl, ok_bind, require_of h0, ok_bind,
    require_of_not (Nat.not_le.2 h1), error_bind]

end

/-- The operands and the strategy pass every check of `XCORR` that comes before the search (R184). -/
structure XcorrOperands (c : CoreState) (rs1 rs2 rs3 : BufIdx) (rx ref ev : List Cx) : Prop where
  stream : c.bufs[rs1] = .cplx rx
  reference : c.bufs[rs2] = .cplx ref
  energy : c.bufs[rs3] = .cplx ev
  strategy : c.staging.syncsel.toNat ≤ 1
  one_energy : ev.length = 1
  some_reference : ref.length ≠ 0
  long_enough : ref.length ≤ rx.length

section

variable {c : CoreState} {rd rs1 rs2 rs3 : BufIdx} {rx ref ev : List Cx} (ops : XcorrOperands c rs1 rs2 rs3 rx ref ev)
include ops

theorem xcorrRule_of_operands : xcorrRule rd rs1 rs2 rs3 c = searchAndReport rd rx ref ev c := by
  rw [xcorrRule_of_sources ops.stream ops.reference ops.energy, require_of ops.strategy, ok_bind,
    require_of ops.one_energy, ok_bind, require_of ops.some_reference, ok_bind, require_of ops.long_enough, ok_bind]

theorem xcorrRule_searchError {r : Raise} (failed : searchPeak c.staging (correlation rx ref) ref.length = .error r) :
    xcorrRule rd rs1 rs2 rs3 c = .error r := by
  rw [xcorrRule_of_operands ops, searchAndReport, failed, error_bind]

variable {k : ℕ} {off : ℤ} (found : searchPeak c.staging (correlation rx ref) ref.length = .ok (k, off))
include found

/-- The term at the peak that was found is that of R181. -/
theorem elemAt_correlation_of_found : elemAt (correlation rx ref) k = correlationAt rx ref k := by
  have length_pos : 1 ≤ (correlation rx ref).length := by
    have := ops.some_reference
    have := ops.long_enough
    rw [correlation_length]
    omega
  exact elemAt_correlation (correlation_length rx ref ▸ searchPeak_lt length_pos found)

/-- Once a peak is found, the range of its offset and its value are left to check. -/
theorem xcorrRule_of_found :
    xcorrRule rd rs1 rs2 rs3 c =
      require (-(2 ^ 31) ≤ off ∧ off ≤ 2 ^ 31 - 1) ⟨.capacityExceeded, k⟩ >>= fun _ =>
      require (correlationAt rx ref k ≠ Cx.zero) ⟨.divideByZero, k⟩ >>= fun _ =>
        .ok { c.writeBuf rd (.cplx [Cx.div (elemAt ev 0) (correlationAt rx ref k)]) with
          syncoff := BitVec.ofInt 32 off, svalid := true } := by
  rw [xcorrRule_of_operands ops, searchAndReport, found, ← elemAt_correlation_of_found ops found]
  rfl

theorem xcorrRule_capacityExceeded (out : off < -(2 ^ 31) ∨ 2 ^ 31 - 1 < off) :
    xcorrRule rd rs1 rs2 rs3 c = .error ⟨.capacityExceeded, k⟩ := by
  rw [xcorrRule_of_found ops found, require_of_not (by omega), error_bind]

variable (fits : -(2 ^ 31) ≤ off ∧ off ≤ 2 ^ 31 - 1)
include fits

theorem xcorrRule_divideByZero (zero : correlationValue (numbersOf rx) (numbersOf ref) k = 0) :
    xcorrRule rd rs1 rs2 rs3 c = .error ⟨.divideByZero, k⟩ := by
  have peak_zero := (correlationAt_eq_zero_iff rx ref k).2 zero
  rw [xcorrRule_of_found ops found, require_of fits, ok_bind, require_of_not (not_not.2 peak_zero), error_bind]

theorem xcorrRule_reports (nonzero : correlationValue (numbersOf rx) (numbersOf ref) k ≠ 0) :
    xcorrRule rd rs1 rs2 rs3 c = .ok { c.writeBuf rd (.cplx [Cx.div (elemAt ev 0) (correlationAt rx ref k)]) with
      syncoff := BitVec.ofInt 32 off, svalid := true } := by
  have peak_ne := (correlationAt_eq_zero_iff rx ref k).not.2 nonzero
  rw [xcorrRule_of_found ops found, require_of fits, ok_bind, require_of peak_ne, ok_bind]

end

/-- An `XCORR` whose peak is found, at an offset of 32 bits and with a value other than 0, reports it (R184, R188). -/
theorem exec_xcorr_reports {rd rs1 rs2 rs3 : BufIdx} {s : State} {rx ref : List Cx} {e : Cx} {k : ℕ} {off : ℤ}
    (hf : s.core.fault = none) (ops : XcorrOperands s.core rs1 rs2 rs3 rx ref [e])
    (found : searchPeak s.core.staging (correlation rx ref) ref.length = .ok (k, off))
    (fits : -(2 ^ 31) ≤ off ∧ off ≤ 2 ^ 31 - 1) (nonzero : correlationValue (numbersOf rx) (numbersOf ref) k ≠ 0) :
    ∃ x : Cx, exec (.xcorr rd rs1 rs2 rs3) s = .next (s.completed { s.core.writeBuf rd (.cplx [x]) with
        syncoff := BitVec.ofInt 32 off, svalid := true }) ∧
      x.value = e.value / correlationValue (numbersOf rx) (numbersOf ref) k := by
  refine ⟨_, exec_completed (i := .xcorr rd rs1 rs2 rs3) hf (xcorrRule_reports ops found fits nonzero) rfl, ?_⟩
  rw [value_div, value_correlationAt]
  rfl

/-! A clean preamble (R182) -/

/-- The stream of R182: the reference through a channel of one factor, with zeros before and after it. -/
def preambleStream (lead tail : ℕ) (a : Cx) (ref : List Cx) : List Cx :=
  List.replicate lead Cx.zero ++ ref.map (Cx.mul a) ++ List.replicate tail Cx.zero

section

variable (lead tail : ℕ) (a : Cx) (ref : List Cx)

@[simp] theorem preambleStream_length : (preambleStream lead tail a ref).length = lead + ref.length + tail := by
  simp [preambleStream, add_assoc]

@[simp] theorem valueAt_replicate_zero (n i : ℕ) : valueAt (List.replicate n Cx.zero) i = 0 := by
  simp [valueAt, elemAt, List.getD_eq_getElem?_getD]

theorem valueAt_append_left {x : List Cx} (y : List Cx) {i : ℕ} (h : i < x.length) : valueAt (x ++ y) i = valueAt x i := by
  rw [valueAt, elemAt, List.getD_append _ _ _ _ h]
  rfl

theorem valueAt_append_right {x : List Cx} (y : List Cx) {i : ℕ} (h : x.length ≤ i) :
    valueAt (x ++ y) i = valueAt y (i - x.length) := by
  rw [valueAt, elemAt, List.getD_append_right _ _ _ _ h]
  rfl

theorem valueAt_map_mul (i : ℕ) : valueAt (ref.map (Cx.mul a)) i = a.value * valueAt ref i := by
  by_cases h : i < ref.length <;> simp [valueAt, elemAt, List.getD_eq_getElem?_getD, h]

theorem valueAt_preambleStream (i : ℕ) :
    valueAt (preambleStream lead tail a ref) i = if i < lead then 0 else a.value * valueAt ref (i - lead) := by
  unfold preambleStream
  split
  case isTrue before =>
    rw [List.append_assoc, valueAt_append_left _ (by simpa using before), valueAt_replicate_zero]
  case isFalse from_lead =>
    by_cases inside : i - lead < ref.length
    · rw [valueAt_append_left _ (by simp; omega), valueAt_append_right _ (by simp; omega), List.length_replicate,
        valueAt_map_mul]
    · rw [valueAt_append_right _ (by simp; omega), valueAt_replicate_zero, valueAt_of_le (not_lt.1 inside), mul_zero]

theorem streamValue_natCast (rx : List Cx) (i : ℕ) : streamValue (numbersOf rx) i = valueAt rx i := by
  rw [← value_streamAt]
  simp [streamAt, valueAt]

theorem streamValue_of_neg (rx : List ℂ) {i : ℤ} (h : i < 0) : streamValue rx i = 0 := if_neg fun hi => by omega

/-- The stream is the reference, shifted by the lead and scaled by the factor. -/
theorem streamValue_preambleStream (i : ℤ) :
    streamValue (numbersOf (preambleStream lead tail a ref)) i = a.value * streamValue (numbersOf ref) (i - lead) := by
  rcases lt_or_ge i 0 with negative | nonneg
  · rw [streamValue_of_neg _ negative, streamValue_of_neg _ (by omega), mul_zero]
  · lift i to ℕ using nonneg
    rw [streamValue_natCast, valueAt_preambleStream]
    split
    case isTrue before => rw [streamValue_of_neg _ (by omega), mul_zero]
    case isFalse from_lead => rw [← Nat.cast_sub (not_lt.1 from_lead), streamValue_natCast]

/-- The energy of the reference, `sum over m of abs2(ref[m])` (R182, R190). -/
noncomputable def referenceEnergy : ℝ := ∑ m ∈ Finset.range ref.length, Complex.normSq (valueAt ref m)

theorem referenceEnergy_pos {ref : List Cx} (hne : ∃ x ∈ ref, x.value ≠ 0) : 0 < referenceEnergy ref := by
  obtain ⟨x, x_mem, x_ne⟩ := hne
  obtain ⟨i, i_lt, rfl⟩ := List.getElem_of_mem x_mem
  have valueAt_ne : valueAt ref i ≠ 0 := by rwa [valueAt, elemAt, List.getD_eq_getElem _ _ i_lt]
  exact Finset.sum_pos' (fun m _ => Complex.normSq_nonneg _)
    ⟨i, Finset.mem_range.2 i_lt, Complex.normSq_pos.2 valueAt_ne⟩

/-- The correlation of the stream is that of the reference with its own shifts, scaled by the factor. -/
theorem correlationValue_preambleStream (k : ℕ) :
    correlationValue (numbersOf (preambleStream lead tail a ref)) (numbersOf ref) k =
      a.value * ∑ m ∈ Finset.range ref.length, streamValue (numbersOf ref) (m + ((k : ℤ) - (ref.length - 1) - lead)) *
        (starRingEnd ℂ) (streamValue (numbersOf ref) m) := by
  rw [correlationValue, numbersOf_length, Finset.mul_sum]
  refine Finset.sum_congr rfl fun m _ => ?_
  rw [streamValue_preambleStream, numberAt_numbersOf, ← streamValue_natCast, mul_assoc]
  ring_nf

/-- At the last sample of the preamble the shift is 0 (R182). -/
theorem correlationValue_preambleStream_peak (hm : ref.length ≠ 0) :
    correlationValue (numbersOf (preambleStream lead tail a ref)) (numbersOf ref) (lead + ref.length - 1) =
      a.value * (referenceEnergy ref : ℂ) := by
  have no_shift : ((lead + ref.length - 1 : ℕ) : ℤ) - (ref.length - 1) - lead = 0 := by omega
  rw [correlationValue_preambleStream, no_shift, referenceEnergy, Complex.ofReal_sum]
  simp only [add_zero, streamValue_natCast, Complex.mul_conj]

variable {a ref}

/-- Every other term is smaller, since the shift there is not 0 (R182). -/
theorem correlationValue_preambleStream_lt (ha : a.value ≠ 0) (hne : ∃ x ∈ ref, x.value ≠ 0) {k : ℕ}
    (hk : k ≠ lead + ref.length - 1) :
    Complex.normSq (correlationValue (numbersOf (preambleStream lead tail a ref)) (numbersOf ref) k) <
      Complex.normSq
        (correlationValue (numbersOf (preambleStream lead tail a ref)) (numbersOf ref) (lead + ref.length - 1)) := by
  have energy_pos := referenceEnergy_pos hne
  have some_reference : ref.length ≠ 0 := hne.elim fun _ mem => (List.length_pos_of_mem mem.1).ne'
  have outside : ∀ i : ℤ, i < 0 ∨ (ref.length : ℤ) ≤ i → streamValue (numbersOf ref) i = 0 := by
    intro i hi
    exact if_neg fun inside => by rw [numbersOf_length] at inside; omega
  have somewhere : ∃ i, streamValue (numbersOf ref) i ≠ 0 := by
    obtain ⟨m, -, hm⟩ := Finset.exists_ne_zero_of_sum_ne_zero energy_pos.ne'
    exact ⟨m, by rw [streamValue_natCast]; exact mt Complex.normSq_eq_zero.2 hm⟩
  have smaller := shifted_product_lt outside somewhere (d := (k : ℤ) - (ref.length - 1) - lead) (by omega)
  have energy : ∑ m ∈ Finset.range ref.length, Complex.normSq (streamValue (numbersOf ref) m) = referenceEnergy ref := by
    simp only [streamValue_natCast, referenceEnergy]
  rw [energy] at smaller
  rw [correlationValue_preambleStream_peak _ _ _ _ some_reference, correlationValue_preambleStream,
    Complex.normSq_eq_norm_sq, Complex.normSq_eq_norm_sq, norm_mul, norm_mul, Complex.norm_real,
    Real.norm_of_nonneg energy_pos.le]
  have factor_pos := norm_pos_iff.2 ha
  gcongr

theorem isPeak_preambleStream (ha : a.value ≠ 0) (hne : ∃ x ∈ ref, x.value ≠ 0) {width : ℕ}
    (inside : lead + ref.length - 1 < width) :
    IsPeak (correlationValue (numbersOf (preambleStream lead tail a ref)) (numbersOf ref)) width (lead + ref.length - 1) :=
  isPeak_of_unique_greatest inside fun _ hk => correlationValue_preambleStream_lt lead tail ha hne hk

end

/-- An `XCORR` that finds the peak of a clean preamble reports its offset, and the energy operand over the peak (R188,
R190). -/
theorem exec_xcorr_preamble {rd rs1 rs2 rs3 : BufIdx} {s : State} {lead tail : ℕ} {a e : Cx} {ref : List Cx} {off : ℤ}
    (hf : s.core.fault = none) (ops : XcorrOperands s.core rs1 rs2 rs3 (preambleStream lead tail a ref) ref [e])
    (ha : a.value ≠ 0) (hne : ∃ x ∈ ref, x.value ≠ 0)
    (found : searchPeak s.core.staging (correlation (preambleStream lead tail a ref) ref) ref.length =
      .ok (lead + ref.length - 1, off))
    (fits : -(2 ^ 31) ≤ off ∧ off ≤ 2 ^ 31 - 1) :
    ∃ t : State, exec (.xcorr rd rs1 rs2 rs3) s = .next t ∧ t.core.fault = none ∧
      t.core.syncoff = BitVec.ofInt 32 off ∧ t.core.svalid = true ∧
      ∃ x : Cx, t.core.bufs[rd] = .cplx [x] ∧ x.value = e.value / (a.value * (referenceEnergy ref : ℂ)) ∧
        (e.value = referenceEnergy ref → x.value = 1 / a.value) := by
  have energy_ne : (referenceEnergy ref : ℂ) ≠ 0 := by exact_mod_cast (referenceEnergy_pos hne).ne'
  have peak := correlationValue_preambleStream_peak lead tail a ref ops.some_reference
  obtain ⟨x, reported, gain⟩ := exec_xcorr_reports (rd := rd) hf ops found fits (peak ▸ mul_ne_zero ha energy_ne)
  rw [peak] at gain
  refine ⟨_, reported, hf, rfl, rfl, x, CoreState.writeBuf_get_same _ _ _, gain, fun he => ?_⟩
  rw [gain, he, div_mul_cancel_right₀ energy_ne, one_div]

end Sys2Proof.Machine

namespace Sys2Proof

open Machine

/-- Settles O42: a term of the machine's sequence is the sum of R181 (`valueAt_correlation`). -/
theorem correlationSequence : Obligations.CorrelationSequence := by
  unfold Obligations.CorrelationSequence
  exact fun rx ref _ _ => ⟨correlation_length rx ref, fun k hk => valueAt_correlation hk⟩

/-- Settles O43 by substituting `m = M - 1 - n` (`correlationValue_eq_filterOutput`). -/
theorem matchedFilterIsCorrelation : Obligations.MatchedFilterIsCorrelation := by
  unfold Obligations.MatchedFilterIsCorrelation
  exact fun rx ref _ _ k hk => (valueAt_correlation hk).trans (correlationValue_eq_filterOutput _ _ k)

/-- Settles O44: the machine finds the peak (`argmaxAbs_eq_peakOf`) that every window has (`isPeak_peakOf`). -/
theorem leastGreatestMagnitude : Obligations.LeastGreatestMagnitude := by
  unfold Obligations.LeastGreatestMagnitude
  intro c width h1 h2
  rw [argmaxAbs_eq_peakOf h1 h2]
  exact isPeak_peakOf _ h1

/-- Settles O17: the rule writes `rd`, `SYNCOFF` and `SVALID` (`xcorrRule_ok`), and a fault writes its record. -/
theorem frameOfXcorr : Obligations.FrameOfXcorr := by
  unfold Obligations.FrameOfXcorr
  intro rd rs1 rs2 rs3 s t ht
  rcases exec_cases ht with ⟨-, rfl⟩ | ⟨c, -, hr, rfl⟩ | ⟨r, -, -, rfl⟩
  · exact ⟨fun _ _ => rfl, rfl, rfl, rfl, .inl rfl, rfl, rfl⟩
  · obtain ⟨_, _, _, _, -, -, -, -, -, -, -, -, -, -, rfl⟩ := xcorrRule_ok hr
    exact ⟨fun b hb => CoreState.writeBuf_get_other _ hb.symm _, rfl, rfl, rfl, .inl rfl, rfl, rfl⟩
  · exact ⟨fun _ _ => rfl, rfl, rfl, rfl, .inr ⟨rfl, rfl, rfl, rfl⟩, rfl, rfl⟩

/-- Settles O45 by the first check that fails; past the operands, each strategy finds the peak of its window
(`searchPeak_whole`, `searchPeak_window`), and what is found is reported if it fits and is not 0. -/
theorem xcorrCommand : Obligations.XcorrCommand := by
  unfold Obligations.XcorrCommand
  intro rd rs1 rs2 rs3 s hf
  have raises {r : Raise} (h : xcorrRule rd rs1 rs2 rs3 s.core = .error r) :=
    exec_error (i := .xcorr rd rs1 rs2 rs3) hf h
  refine ⟨?word, fun rx ref e k hx hr he hs h0 h1 peak nonzero low high => ?whole,
    fun rx ref e k hx hr he hs h0 h1 hsf hsr hw peak nonzero high => ?window,
    fun hx => raises (xcorrRule_badStream hx), fun rx hx hr => raises (xcorrRule_badReference hx hr),
    fun rx ref hx hr he => raises (xcorrRule_badEnergy hx hr he), fun rx ref ev hx hr he => ⟨?badStrategy, ?energyLength,
      ?emptyReference, ?insufficientSamples, ?noRowLength, ?badRows, ?found⟩⟩
  case word => simpa [Instr.opcode, Instr.fields] using (Laws.EncodeOpcode.xcorr rd rs1 rs2 rs3).1
  case whole =>
    exact exec_xcorr_reports hf ⟨hx, hr, he, by simp [hs], rfl, h0, h1⟩ (searchPeak_whole h0 h1 hs peak) ⟨low, high⟩ nonzero
  case window =>
    exact exec_xcorr_reports hf ⟨hx, hr, he, by simp [hs], rfl, h0, h1⟩ (searchPeak_window h0 h1 hs hsf hsr hw peak)
      ⟨by omega, high⟩ nonzero
  case badStrategy => exact fun hs => raises (xcorrRule_badStrategy hx hr he hs)
  case energyLength => exact fun hs hl => raises (xcorrRule_energyLength hx hr he hs hl)
  case emptyReference => exact fun hs hl h0 => raises (xcorrRule_emptyReference hx hr he hs hl h0)
  case insufficientSamples =>
    exact fun hs hl h0 h1 => raises (xcorrRule_insufficientSamples hx hr he hs hl h0 h1)
  case noRowLength =>
    intro hs hl h0 h1 hsf
    exact raises (xcorrRule_searchError ⟨hx, hr, he, by simp [hs], hl, h0, h1⟩
      (searchPeak_noRowLength h0 h1 hs (by simp [hsf])))
  case badRows =>
    intro hs hl h0 h1 hsf hrows
    exact raises (xcorrRule_searchError ⟨hx, hr, he, by simp [hs], hl, h0, h1⟩
      (searchPeak_badRows h0 h1 hs (BitVec.toNat_ne_iff_ne.2 hsf) (hrows.imp_left fun h => by simp [h])))
  case found =>
    intro k off hl h0 h1 found
    have strategy : s.core.staging.syncsel.toNat ≤ 1 := by rcases found with ⟨hs, -⟩ | ⟨hs, -⟩ <;> simp [hs]
    have ops : XcorrOperands s.core rs1 rs2 rs3 rx ref ev := ⟨hx, hr, he, strategy, hl, h0, h1⟩
    have search : searchPeak s.core.staging (correlation rx ref) ref.length = .ok (k, (k : ℤ) - off) := by
      rcases found with ⟨hs, rfl, peak⟩ | ⟨hs, rfl, hsf, hsr, hw, peak⟩
      · exact searchPeak_whole h0 h1 hs peak
      · simpa using searchPeak_window h0 h1 hs (BitVec.toNat_ne_iff_ne.2 hsf) (BitVec.toNat_ne_iff_ne.2 hsr) hw peak
    exact ⟨fun out => raises (xcorrRule_capacityExceeded ops search out),
      fun low high zero => raises (xcorrRule_divideByZero ops search ⟨low, high⟩ zero)⟩

/-- Settles O46: the last sample of the preamble is the one greatest term (`isPeak_preambleStream`), so both strategies
find it, and its value is the channel factor times the energy. -/
theorem cleanPreamble : Obligations.CleanPreamble := by
  unfold Obligations.CleanPreamble
  rintro rd rs1 rs2 rs3 s lead tail a e ref hf hx hr he ha hne _ rfl
  have some_reference : ref.length ≠ 0 := hne.elim fun _ mem => (List.length_pos_of_mem mem.1).ne'
  have long_enough : ref.length ≤ (preambleStream lead tail a ref).length := by rw [preambleStream_length]; omega
  have operands (hs : s.core.staging.syncsel.toNat ≤ 1) :
      XcorrOperands s.core rs1 rs2 rs3 (preambleStream lead tail a ref) ref [e] :=
    ⟨hx, hr, he, hs, rfl, some_reference, long_enough⟩
  refine ⟨fun hs hlead => ?whole, fun hs hlead hsf hsr hw inside => ?window⟩
  case whole =>
    have found := searchPeak_whole some_reference long_enough hs
      (isPeak_preambleStream lead tail ha hne (by rw [preambleStream_length]; omega))
    rw [show ((lead + ref.length - 1 : ℕ) : ℤ) - ref.length = lead - 1 by omega] at found
    exact exec_xcorr_preamble hf (operands (by simp [hs])) ha hne found (by omega)
  case window =>
    have found := searchPeak_window some_reference long_enough hs (BitVec.toNat_ne_iff_ne.2 hsf)
      (BitVec.toNat_ne_iff_ne.2 hsr) (by rwa [preambleStream_length]) (isPeak_preambleStream lead tail ha hne inside)
    rw [show ((lead + ref.length - 1 : ℕ) : ℤ) = lead + ref.length - 1 by omega] at found
    exact exec_xcorr_preamble hf (operands (by simp [hs])) ha hne found (by omega)

end Sys2Proof

/-! Family 60_exceptions: what the registers show of the fault record, the record a command leaves and no more, the
commands refused while one stands, and a host script's end (R34, R37, R204 to R209, R219). -/

namespace Sys2Proof.Machine

/-! The fault record in its registers (R34, R37) -/

theorem slice_bit (w : Word) (k : ℕ) : slice w k k = (w.getLsbD k).toNat := by
  rw [slice, Nat.add_sub_cancel_left, pow_one, BitVec.getLsbD, Nat.toNat_testBit]

theorem views_of_fault {c : CoreState} {r : FaultRecord} (hr : c.fault = some r) :
    slice (c.readIndex 1) 0 0 = 1 ∧ slice (c.readIndex 1) 15 8 = r.cause.code ∧ c.readIndex 4 = r.fcmd ∧
      c.readIndex 5 = r.finfo := by
  obtain ⟨flag, -, -, -, -, -, -, cause⟩ := statusWordFields c
  obtain ⟨-, -, -, record, -⟩ := viewRegisters c
  exact ⟨by rw [slice_bit, flag, hr]; rfl, (cause r hr).1, record r hr⟩

theorem views_of_no_fault {c : CoreState} (hf : c.fault = none) :
    slice (c.readIndex 1) 0 0 = 0 ∧ slice (c.readIndex 1) 15 8 = 0 ∧ c.readIndex 4 = 0 ∧ c.readIndex 5 = 0 := by
  obtain ⟨flag, -, -, -, -, -, cause, -⟩ := statusWordFields c
  obtain ⟨-, -, record, -⟩ := viewRegisters c
  exact ⟨by rw [slice_bit, flag, hf]; rfl, cause hf, record hf⟩

theorem clearFault_of_no_fault {c : CoreState} (hf : c.fault = none) : c.clearFault = c := by
  rw [CoreState.clearFault, ← hf]

/-! The fault a command leaves (R207) -/

/-- A command that leaves a fault recorded ran a rule that raised it, and changed nothing but the record. -/
theorem exec_records {i : Instr} {s t : State} {r : FaultRecord} (ht : exec i s = .next t) (hf : s.core.fault = none)
    (hr : t.core.fault = some r) :
    ∃ e, ruleOf i s.core = .error e ∧ r = ⟨e.cause, encode i, BitVec.ofNat 32 e.info⟩ ∧
      t = { s with core := { s.core with fault := some r } } := by
  rcases exec_cases ht with ⟨recorded, -⟩ | ⟨c, -, completed, rfl⟩ | ⟨e, -, raised, rfl⟩
  · exact absurd hf recorded
  · have unrecorded : c.fault = none := (ruleOf_ok_frame completed).2.1.trans hf
    cases unrecorded.symm.trans hr
  · cases hr
    exact ⟨e, raised, rfl, rfl⟩

/-- A word that leaves a fault recorded, as a command's or as an illegal one, left the record of itself and nothing else. -/
theorem issue_records {w : Word} {s t : State} {r : FaultRecord} (ht : issue w s = .next t) (hf : s.core.fault = none)
    (hr : t.core.fault = some r) : r.fcmd = w ∧ t = { s with core := { s.core with fault := some r } } := by
  rcases issue_cases ht with ⟨recorded, -⟩ | ⟨i, -, decoded, executed⟩ | ⟨_, -, -, rfl⟩
  · exact absurd hf recorded
  · obtain ⟨e, -, rfl, only_record⟩ := exec_records executed hf hr
    exact ⟨encodeOfDecode w i decoded, only_record⟩
  · cases hr
    exact ⟨rfl, rfl⟩

/-! A host script's end (R219) -/

/-- A word written to `CMD` ends in a next state of CORE, whatever it does (R200). -/
theorem issue_next (w : Word) (s : State) : ∃ c, issue w s = .next { s with core := c } := by
  cases hf : s.core.fault with
  | some r => exact ⟨_, issue_refused hf w⟩
  | none =>
    cases hd : decode w with
    | ok i => exact ⟨_, (issue_decoded hf hd).trans (exec_eq i s)⟩
    | error e => exact ⟨_, issue_illegal hf hd⟩

/-- Every transaction, and the reset input, is taken off the script and given one reply (R61 to R63, R70). -/
theorem step_next {s : State} {e : HostEvent} {rest : List HostEvent} (he : e.wellFormed = true)
    (hs : s.script = e :: rest) : ∃ c r, step s = .next { core := c, script := rest, replies := s.replies ++ [r] } := by
  cases e with
  | csrRead i => exact ⟨_, _, step_csrRead hs⟩
  | csrWrite i w =>
    by_cases hi : i = 0
    · subst hi
      obtain ⟨c, issued⟩ := issue_next w { core := s.core, script := rest, replies := s.replies ++ [.completed] }
      exact ⟨c, _, (step_command hs).trans issued⟩
    · exact ⟨_, _, step_csrWrite hs hi⟩
  | bufRead b => exact ⟨_, _, step_bufRead hs⟩
  | bufWrite b d => exact ⟨_, _, step_bufWrite_of_no_problem hs (Option.isNone_iff_eq_none.1 he)⟩
  | resetInput => exact ⟨_, _, step_resetInput hs⟩

/-- A run of transactions takes them off one by one. -/
theorem runScript_ends (script : List HostEvent) (wellFormed : ∀ e ∈ script, e.wellFormed = true) (c : CoreState)
    (replies : List HostReply) :
    ∃ t, runScript ⟨c, script, replies⟩ = .next t ∧ t.ended ∧ t.replies.length = replies.length + script.length := by
  induction script generalizing c replies with
  | nil => exact ⟨_, runScript_nil c replies, rfl, rfl⟩
  | cons e rest ih =>
    obtain ⟨first, later⟩ := List.forall_mem_cons.1 wellFormed
    obtain ⟨c', r, stepped⟩ := step_next (s := ⟨c, e :: rest, replies⟩) first rfl
    obtain ⟨t, run, ended, answered⟩ := ih later c' (replies ++ [r])
    refine ⟨t, (run_succ_of_step stepped).trans run, ended, ?_⟩
    rw [answered, List.length_append, List.length_singleton, List.length_cons]
    omega

end Sys2Proof.Machine

namespace Sys2Proof

open Machine

/-- Settles O9: a recorded fault refuses every command (`exec_refused`, `issue_refused`); every other access is the one it
is without a fault. -/
theorem pendingFaultRefusesCommands : Obligations.PendingFaultRefusesCommands := by
  unfold Obligations.PendingFaultRefusesCommands
  intro s r rest hf
  refine ⟨fun _ => exec_refused hf, fun w hs => ?command, fun _ => step_csrRead, fun _ => step_bufRead,
    fun i w h8 h15 hs => ?staging, fun w hs => ?ctrl, fun b d hd hs => ?bufWrite⟩
  case command =>
    rw [step_command hs]
    exact issue_refused (s := { core := s.core, script := rest, replies := s.replies ++ [.completed] }) hf w
  case staging =>
    obtain ⟨g, staging_only⟩ := writeIndex_staging_only s.core w h8 h15
    exact ⟨_, step_csrWrite hs (by omega), readIndex_writeIndex_staging s.core w h8 h15,
      (congrArg CoreState.fault staging_only).trans hf⟩
  case ctrl =>
    obtain ⟨t, stepped, -, cases_of_word⟩ := (controlRegister s w rest).2 hs
    exact ⟨t, stepped, cases_of_word⟩
  case bufWrite =>
    exact ⟨_, step_bufWrite_of_no_problem hs hd, CoreState.writeBuf_get_same s.core b d, hf⟩

/-- Settles O10: the word left its record and nothing else (`issue_records`), and the registers show it
(`views_of_fault`). -/
theorem faultIsPrecise : Obligations.FaultIsPrecise := by
  unfold Obligations.FaultIsPrecise
  intro s t w rest r hf hs ht hr
  rw [step_command hs] at ht
  obtain ⟨rfl, only_record⟩ := issue_records ht hf hr
  exact ⟨rfl, only_record, views_of_fault hr⟩

/-- Settles O13 by induction on the script (`runScript_ends`). -/
theorem scriptsRunToTheirEnd : Obligations.ScriptsRunToTheirEnd :=
  fun s wellFormed => runScript_ends s.script wellFormed s.core s.replies

/-- Settles O14: the recorded cause is the one the command's rule raised (`exec_records`), which its column allows
(`ruleOf_raisesOnly`). -/
theorem faultTable : Obligations.FaultTable := by
  unfold Obligations.FaultTable
  intro i s t r hf ht hr
  obtain ⟨e, raised, rfl, -⟩ := exec_records ht hf hr
  exact ruleOf_raisesOnly i s.core e raised

/-- Settles O12: every command is its rule carried out on CORE (`exec_eq`). -/
theorem everyCommandTerminates : Obligations.EveryCommandTerminates :=
  fun i s => ⟨_, exec_eq i s⟩

/-- Settles O49: the write clears the record (`writeIndex_ctrl_clearFault`), which then reads 0, and with none recorded the
next word is executed. -/
theorem clearFault : Obligations.ClearFault := by
  unfold Obligations.ClearFault
  intro s w v rest h0 h1 hs
  have stepped := step_csrWrite hs (by decide)
  rw [writeIndex_ctrl_clearFault s.core h1 h0] at stepped
  obtain ⟨flag, cause, fcmd, finfo⟩ := views_of_no_fault (CoreState.clearFault_fault s.core)
  refine ⟨_, stepped, rfl, flag, cause, fcmd, finfo, clearFault_of_no_fault, fun i hd => ?executed⟩
  case executed =>
    rw [stepRunsDecodedCommand _ v i rest (CoreState.clearFault_fault s.core) rfl hd, List.append_assoc]
    rfl

end Sys2Proof

/-! Family 70_reset_and_hazards: what CORE keeps of its latched halves and of its buffers' contents, whatever happens
but a reset (R230), and the two ways to reset it (R231). -/

namespace Sys2Proof.Machine

/-! What is latched or written stays so -/

/-- From `c` to `c'` no latched half is invalidated and no buffer returns to `NONE` (R230). -/
structure CoreState.Keeps (c c' : CoreState) : Prop where
  constel : c.constel ≠ none → c'.constel ≠ none
  frame : c.frame ≠ none → c'.frame ≠ none
  bufs : ∀ b : BufIdx, c.bufs[b] ≠ .none → c'.bufs[b] ≠ .none

namespace CoreState.Keeps

theorem refl (c : CoreState) : c.Keeps c := ⟨id, id, fun _ => id⟩

/-- A write of content, bits or complex elements, takes no other buffer's away. -/
theorem writeBuf (c : CoreState) (b : BufIdx) {d : Buffer} (hd : d ≠ .none) : c.Keeps (c.writeBuf b d) where
  constel := id
  frame := id
  bufs b' written := by
    by_cases hb : b = b'
    · subst hb
      rwa [CoreState.writeBuf_get_same]
    · rwa [CoreState.writeBuf_get_other c hb]

theorem writeBits (c : CoreState) (b : BufIdx) (d : List Bool) : c.Keeps (c.writeBuf b (.bits d)) := writeBuf c b nofun

theorem writeCplx (c : CoreState) (b : BufIdx) (d : List Cx) : c.Keeps (c.writeBuf b (.cplx d)) := writeBuf c b nofun

end CoreState.Keeps

/-- A rule that completes builds a half or writes content, and takes nothing away. -/
theorem ruleOf_keeps {i : Instr} {c c' : CoreState} (h : ruleOf i c = .ok c') : c.Keeps c' := by
  cases i with
  | nop => exact nopRule_ok h ▸ .refl c
  | cbuild =>
    obtain ⟨-, -, rfl⟩ := cbuildRule_ok h
    exact { CoreState.Keeps.refl c with constel := nofun }
  | fbuild =>
    obtain ⟨-, -, -, rfl⟩ := fbuildRule_ok h
    exact { CoreState.Keeps.refl c with frame := nofun }
  | qmod rd rs1 =>
    obtain ⟨_, _, -, -, -, rfl⟩ := qmodRule_ok h
    exact .writeCplx c rd _
  | qdem rd rs1 =>
    obtain ⟨_, _, -, -, -, rfl⟩ := qdemRule_ok h
    exact .writeBits c rd _
  | oftx rd rs1 =>
    obtain ⟨_, _, -, -, -, -, rfl⟩ := oftxRule_ok h
    exact .writeCplx c rd _
  | ofrx rd rs1 =>
    obtain ⟨_, _, -, -, rfl⟩ := ofrxRule_ok h
    exact .writeCplx c rd _
  | chest rd rs1 =>
    obtain ⟨-, ⟨-, _, -, -, rfl⟩ | ⟨-, rfl⟩⟩ := chestRule_ok h <;> exact .writeCplx c rd _
  | eq rd rs1 rs2 =>
    obtain ⟨_, _, -, -, -, ⟨-, rfl⟩ | ⟨-, _, -, -, -, rfl⟩⟩ := eqRule_ok h <;> exact .writeCplx c rd _
  | xcorr rd rs1 rs2 rs3 =>
    obtain ⟨_, _, _, _, -, -, -, -, -, -, -, -, -, -, rfl⟩ := xcorrRule_ok h
    exact { CoreState.Keeps.writeCplx c rd _ with }

theorem exec_keeps {i : Instr} {s t : State} (h : exec i s = .next t) : s.core.Keeps t.core := by
  rcases exec_cases h with ⟨-, rfl⟩ | ⟨c, -, completed, rfl⟩ | ⟨r, -, -, rfl⟩
  · exact .refl _
  · exact { ruleOf_keeps completed with }
  · exact { CoreState.Keeps.refl s.core with }

theorem issue_keeps {w : Word} {s t : State} (h : issue w s = .next t) : s.core.Keeps t.core := by
  rcases issue_cases h with ⟨-, rfl⟩ | ⟨i, -, -, executed⟩ | ⟨_, -, -, rfl⟩
  · exact .refl _
  · exact exec_keeps executed
  · exact { CoreState.Keeps.refl s.core with }

/-- A register write other than one that resets takes nothing away (R35, R36). -/
theorem writeIndex_keeps (c : CoreState) {i : ℕ} {w : Word} (h : i = 2 → w.getLsbD 1 = false) :
    c.Keeps (c.writeIndex i w) := by
  unfold CoreState.writeIndex
  cases hr : Csr.ofIndex i with
  | none => exact .refl c
  | some r =>
    change c.Keeps (c.writeCsr w r)
    rcases writeCsr_cases c w r with ⟨rfl, resets, -⟩ | ⟨-, written⟩ | ⟨g, written⟩
    · cases (h (index_ofIndex hr).symm).symm.trans resets
    · exact written ▸ { CoreState.Keeps.refl c with }
    · exact written ▸ { CoreState.Keeps.refl c with }

/-! Reset -/

/-- The next event is the reset input or a write of `SRST`, the two ways to reset CORE (R231). -/
def State.Resets (s : State) : Prop :=
  ∃ rest, s.script = .resetInput :: rest ∨ ∃ w, s.script = .csrWrite 2 w :: rest ∧ w.getLsbD 1 = true

/-- A step that does not reset CORE takes nothing away (R230). -/
theorem step_keeps {s t : State} (ht : step s = .next t) (hs : ¬ s.Resets) : s.core.Keeps t.core := by
  cases hscript : s.script with
  | nil =>
    rw [step_nil hscript] at ht
    cases ht
    exact .refl _
  | cons e rest =>
    cases e with
    | csrRead i =>
      rw [step_csrRead hscript] at ht
      cases ht
      exact .refl _
    | csrWrite i w =>
      by_cases hi : i = 0
      · subst hi
        rw [step_command hscript] at ht
        exact issue_keeps (s := { core := s.core, script := rest, replies := s.replies ++ [.completed] }) ht
      · rw [step_csrWrite hscript hi] at ht
        cases ht
        have no_reset : i = 2 → w.getLsbD 1 = false := by
          rintro rfl
          exact Bool.eq_false_iff.2 fun srst => hs ⟨rest, .inr ⟨w, hscript, srst⟩⟩
        exact writeIndex_keeps s.core no_reset
    | bufRead b =>
      rw [step_bufRead hscript] at ht
      cases ht
      exact .refl _
    | bufWrite b d =>
      obtain ⟨no_problem, written⟩ := step_bufWrite_next hscript ht
      exact written ▸ .writeBuf s.core b ((hostWriteProblem_none_iff d).1 no_problem).1
    | resetInput => exact absurd ⟨rest, .inl hscript⟩ hs

end Sys2Proof.Machine

namespace Sys2Proof

open Machine

/-- Settles O57: any step but a reset keeps the latched halves and the buffers' contents (`step_keeps`). -/
theorem onlyResetInvalidates : Obligations.OnlyResetInvalidates := by
  unfold Obligations.OnlyResetInvalidates
  refine ⟨fun s rest hs => ⟨_, step_resetInput hs, rfl⟩, fun s t ht lost => ?_, fun s => step_nil⟩
  by_contra no_reset
  have kept : s.core.Keeps t.core := step_keeps ht no_reset
  rcases lost with ⟨latched, invalid⟩ | ⟨latched, invalid⟩ | ⟨b, written, emptied⟩
  · exact kept.constel latched invalid
  · exact kept.frame latched invalid
  · exact kept.bufs b written emptied

/-- Settles O56: the write of `SRST` (`writeIndex_ctrl_reset`) and the reset input (`step_resetInput`) both put CORE at
its reset state. -/
theorem softReset : Obligations.SoftReset := by
  unfold Obligations.SoftReset
  rintro s t w rest srst hs rfl
  have written := step_csrWrite hs (by decide)
  rw [writeIndex_ctrl_reset s.core srst] at written
  exact ⟨_, _, written, step_resetInput rfl, rfl, rfl⟩

end Sys2Proof
